-- ==== Sys2Proof/Word.lean ====
section
/-! DEFINITION. The two widths of the core: the 32-bit word of the cipher and of every register, and the byte
of the memory port (spec 00_scope.md R11 WORD_BITS, R13, R17). -/

namespace Sys2Proof

/-- `u32` of R13: a register, a word of the cipher state, a memory-port address. -/
abbrev Word := BitVec 32

/-- `u8` of R13: one byte of memory-port space, one keystream byte. -/
abbrev Byte := BitVec 8

end Sys2Proof
end

