-- ==== Sys2Proof/Syntax.lean ====
section
/-! DEFINITION. The five commands of the core (spec 30_encoding.md R303), one constructor per row of
spec/opcode_table.json. -/

namespace Sys2Proof

/-- A legal command. The operands of QROUND are the 4-bit indices of R302, each naming one word of STATE; every
value names a word, so the type `Fin 16` holds exactly the operands the encoding admits. -/
inductive Instr where
  /-- BUILD: the state builder into STATE (R410). -/
  | build
  /-- QROUND a, b, c, d: one quarter-round on STATE (R453). -/
  | qround (a b c d : Fin 16)
  /-- DROUND: one double round on STATE (R504). -/
  | dround
  /-- BLOCK: one keystream block into KS (R510). -/
  | block
  /-- PROCESS: the counter-mode loop over memory (R550). -/
  | process
deriving DecidableEq, Repr

end Sys2Proof
end

