-- ==== Sys2Proof/Decode.lean ====
section
/-! DEFINITION. The command word CMD32 (spec 30_encoding.md R300 to R305): byte and bit fields, the decoder of
R304, the encoder, and the host's table-word entry point. -/

namespace Sys2Proof

/-- Byte `b` of a word, `w[8b+7:8b]` (R15, R202). -/
def byteOf (w : Word) (b : Nat) : Byte := w.extractLsb' (8 * b) 8

/-- `le32` of R15: `b0` is the byte at the lowest index. -/
def le32 (b0 b1 b2 b3 : Byte) : Word :=
  b0.setWidth 32 ||| (b1.setWidth 32 <<< 8) ||| (b2.setWidth 32 <<< 16) ||| (b3.setWidth 32 <<< 24)

/-- `bytes_le` of R15. -/
def bytesLe (w : Word) : List Byte := [byteOf w 0, byteOf w 1, byteOf w 2, byteOf w 3]

namespace Cmd32

/-- OP of R301: bits [3:0]. -/
def op (w : Word) : BitVec 4 := w.extractLsb' 0 4

/-- RSV0 of R301: bits [7:4]. -/
def rsv0 (w : Word) : BitVec 4 := w.extractLsb' 4 4

/-- Fields A, B, C, D of R301 together: bits [23:8]. -/
def operandBits (w : Word) : BitVec 16 := w.extractLsb' 8 16

/-- Field A of R301: bits [11:8]. -/
def a (w : Word) : Fin 16 := (w.extractLsb' 8 4).toFin

/-- Field B of R301: bits [15:12]. -/
def b (w : Word) : Fin 16 := (w.extractLsb' 12 4).toFin

/-- Field C of R301: bits [19:16]. -/
def c (w : Word) : Fin 16 := (w.extractLsb' 16 4).toFin

/-- Field D of R301: bits [23:20]. -/
def d (w : Word) : Fin 16 := (w.extractLsb' 20 4).toFin

/-- RSV1 of R301: bits [31:24]. -/
def rsv1 (w : Word) : BitVec 8 := w.extractLsb' 24 8

/-- The word whose fields are these: `RRRRRRRR DDDD CCCC BBBB AAAA rrrr OOOO` (R301), reserved bits 0. -/
def ofFields (op : BitVec 4) (a b c d : Fin 16) : Word :=
  0#8 ++ (BitVec.ofFin d : BitVec 4) ++ (BitVec.ofFin c : BitVec 4) ++ (BitVec.ofFin b : BitVec 4)
    ++ (BitVec.ofFin a : BitVec 4) ++ 0#4 ++ op

end Cmd32

/-- Why a word is illegal (R305). The core makes no difference between the reasons: each is IllegalCommand. -/
inductive IllegalWord where
  /-- A nonzero RSV0 or RSV1. -/
  | reservedBits
  /-- OP 0x0 or 0x6 to 0xF. -/
  | reservedOpcode
  /-- A nonzero A, B, C or D under an opcode other than QROUND. -/
  | unusedOperand
  /-- Not four bytes: no command word at all (R300: a command is exactly one 32-bit word). -/
  | notOneWord
deriving DecidableEq, Repr

/-- A command that carries no operand: its bits [23:8] must be 0 (R304). -/
def decodeBare (w : Word) (i : Instr) : Except IllegalWord Instr :=
  if Cmd32.operandBits w = 0 then .ok i else .error .unusedOperand

/-- The decoder of R304, a total function of the 32-bit word. -/
def decode (w : Word) : Except IllegalWord Instr :=
  if Cmd32.rsv0 w ≠ 0 ∨ Cmd32.rsv1 w ≠ 0 then .error .reservedBits
  else if Cmd32.op w = 0x1 then decodeBare w .build
  else if Cmd32.op w = 0x2 then .ok (.qround (Cmd32.a w) (Cmd32.b w) (Cmd32.c w) (Cmd32.d w))
  else if Cmd32.op w = 0x3 then decodeBare w .dround
  else if Cmd32.op w = 0x4 then decodeBare w .block
  else if Cmd32.op w = 0x5 then decodeBare w .process
  else .error .reservedOpcode

/-- Decoding on any bytes, in the order of the CMD register's window bytes (R202). -/
def decodeBytes : List Byte → Except IllegalWord Instr
  | [b0, b1, b2, b3] => decode (le32 b0 b1 b2 b3)
  | _                => .error .notOneWord

/-- The command word of an instruction, from R301 and R303. -/
def encode : Instr → Word
  | .build          => Cmd32.ofFields 0x1 0 0 0 0
  | .qround a b c d => Cmd32.ofFields 0x2 a b c d
  | .dround         => Cmd32.ofFields 0x3 0 0 0 0
  | .block          => Cmd32.ofFields 0x4 0 0 0 0
  | .process        => Cmd32.ofFields 0x5 0 0 0 0

/-- The instruction this decoder reads from a row of spec/opcode_table.json: the low `nbits` bits of `w`, laid out
as the four little-endian bytes of CMD. -/
def decodeTableWord (nbits w : Nat) : Option Instr :=
  (decodeBytes (bytesLe (BitVec.ofNat 32 (w % 2 ^ nbits)))).toOption

end Sys2Proof
end

