-- ==== Sys2Proof/Config.lean ====
section
/-! DEFINITION. What the source fixes (R11) and what the platform decides (R12): the parameters CHACHA_BASE,
MEM_ADMIT and WINDOW_ACCESS, as plain data. INSTANCES and IRQ_ROUTE concern other agents only and are left out
(log entries 6 and 7). -/

namespace Sys2Proof

namespace Config

/-- KEY_BYTES of R11, as the value KEYLEN is compared with (R400). -/
def keyBytes : Word := 32

/-- NONCE_BYTES of R11, as the value NONCELEN is compared with (R400). -/
def nonceBytes : Word := 12

/-- BLOCK_BYTES of R11. -/
def blockBytes : Nat := 64

/-- DOUBLE_ROUNDS of R11: 10 double rounds, 80 quarter-rounds (R506, conflict C1). -/
def doubleRounds : Nat := 10

/-- WINDOW_BYTES of R12: the register window is 256 bytes. -/
def windowBytes : Nat := 256

end Config

/-- The `kind` of MEM_ADMIT(kind, addr) (R205), and of one memory event (R210). -/
inductive AccessKind where
  | read
  | write
deriving DecidableEq, Repr

/-- One host access as the bus presents it: who makes it, the byte address and the width in bytes (log entry 21). Whether it is
inside the core's interface (R201) is checked, not assumed. -/
structure Access where
  master : Nat
  addr   : Nat
  width  : Nat
deriving DecidableEq, Repr

/-- A range of memory-port addresses, both ends included, in which MEM_ADMIT refuses accesses of one kind. -/
structure RefusedRange where
  kind  : AccessKind
  first : Nat
  last  : Nat
deriving DecidableEq, Repr

/-- The platform's parameters (R12, R620) as plain data. `basePage` gives CHACHA_BASE = 256 * basePage, a
multiple of 256 by construction. Every predicate MEM_ADMIT over the 2^32 addresses is some list of refused
ranges, and every WINDOW_ACCESS is some list of masters kept out, so nothing is lost by writing them as data
(log entries 11 and 17). -/
structure Platform where
  basePage      : Nat
  memRefused    : List RefusedRange
  deniedMasters : List Nat
deriving DecidableEq, Repr

/-- DESIGN CHOICE (unsafe, log entry 1): the platform that `State.reset` carries, window at address 0, every
memory access admitted, every master let in. The parameters are OPEN in the spec (D2, D20, D23). -/
def Platform.baseline : Platform :=
  { basePage := 0, memRefused := [], deniedMasters := [] }

/-- CHACHA_BASE of R12. -/
def Platform.base (p : Platform) : Nat := Config.windowBytes * p.basePage

end Sys2Proof
end

