-- ==== Sys2Proof/Machine/State.lean ====
section
/-! DEFINITION. Everything the spec gives the machine (10_state.md R100 to R118), as plain data: the register
window, the engine's hidden state, the memory behind the memory port, the memory history of the command, the
platform's parameters, and what the outside world does next. -/

namespace Sys2Proof

/-- `State` of R16: a sequence of exactly 16 words. STATE and KS hold one each (R101, R102). -/
abbrev CipherState := Vector Word 16

/-- Memory-port space (R200): cells in rising address order, none equal to what an unlisted address reads as. -/
abbrev Memory := List Host.Cell

namespace Machine

/-- The core never stops with a fault: it takes no traps (R614), each error is a completed command (R600, R602),
and a refused memory access leaves the engine stuck, which R205 calls "the stuck outcome, not a fault". So no
constructor exists, none is raised, and nothing safe or unsafe hangs on one. -/
inductive Fault where
deriving DecidableEq, Repr

/-- Why a step is refused. All but `notModelled` are host accesses outside the core's interface, for which the
spec says a model gives no step (R20, R201). -/
inductive Refusal where
  /-- Raised by `exec` for an instruction without a meaning yet; no arm raises it. Safe. -/
  | notModelled (mnemonic : String)
  /-- Raised by a host register access that is not 32 bits wide (R201). Safe: the host program is refused. -/
  | accessWidth
  /-- Raised by a host register access whose address is not a multiple of 4, or that would span two registers
  (R201). Safe. -/
  | accessMisaligned
  /-- Raised by a host register access to an address outside CHACHA_BASE + 0x000 to 0x0FF (R201). Safe. -/
  | outsideWindow
  /-- Raised by a host register access of a master that WINDOW_ACCESS keeps out (R620): what such a master sees
  is the platform's. Safe. -/
  | windowAccessDenied
deriving DecidableEq, Repr

/-- The error kinds, exactly three (R600). -/
inductive CmdError where
  | invalidKeyLength
  | invalidNonceLength
  | illegalCommand
deriving DecidableEq, Repr

/-- `phase` of R116. It is the one home of STATUS.BUSY, which it mirrors. -/
inductive Phase where
  | idle
  | busy
deriving DecidableEq, Repr

/-- `sub` of R116: which half of a block PROCESS is in (R555). -/
inductive Half where
  | read
  | write
deriving DecidableEq, Repr

/-- The hidden state of the engine (R116). -/
structure Engine where
  /-- IDLE or BUSY; mirrors STATUS.BUSY. -/
  phase : Phase
  /-- The accepted command word. -/
  cur   : Word
  /-- Working state of the block function. -/
  w     : CipherState
  /-- The retained unmodified copy for the feed-forward. -/
  o     : CipherState
  /-- The current keystream block in PROCESS. -/
  kb    : Vector Byte 64
  /-- The input bytes of the current block in PROCESS. -/
  ib    : Vector Byte 64
  /-- The index of the current block in PROCESS. -/
  j     : Word
  /-- The byte position inside the current block in PROCESS, 0 to 64. -/
  i     : Nat
  /-- READ or WRITE half. -/
  sub   : Half
deriving DecidableEq, Repr

/-- An engine in the given phase with the given command word and no progress. The values of the other hidden items
are a DESIGN CHOICE (log entry 2): the spec leaves them unspecified and unobservable (R116, R118). -/
def Engine.fresh (phase : Phase) (cur : Word) : Engine :=
  { phase := phase, cur := cur,
    w := Vector.replicate 16 0, o := Vector.replicate 16 0,
    kb := Vector.replicate 64 0, ib := Vector.replicate 64 0,
    j := 0, i := 0, sub := .read }

/-- One event of the memory history: one engine access of one byte (R17, R210). -/
structure MemEvent where
  kind : AccessKind
  addr : Word
  data : Byte
deriving DecidableEq, Repr

/-- The registers of the window by name (R100). -/
inductive Reg where
  | cmd | status | inten | ctr | keylen | noncelen | src | dst | len
  | key (k : Fin 8)
  | nonce (k : Fin 3)
  | state (i : Fin 16)
  | ks (i : Fin 16)
deriving DecidableEq, Repr

/-- What can happen at the core in one moment: the engine moves, or a host accesses the window. -/
inductive CoreEvent where
  | engine
  | read (a : Access)
  | write (a : Access) (v : Word)
deriving DecidableEq, Repr

/-- One thing the outside world does, or lets the engine do, next. A list of these is one interleaving of the
agents of R10; the spec leaves the interleaving open (R213, R605, R701), so a statement about every state is a
statement about every interleaving. -/
inductive Input where
  /-- A core event with reset not asserted. -/
  | core (e : CoreEvent)
  /-- Reset is asserted, and meets this event if there is one at the same moment (R700). -/
  | reset (met : Option CoreEvent)
  /-- `wait` of R307: this master polls STATUS until DONE reads 1. -/
  | wait (master : Nat)
  /-- Another agent reads one byte of memory (R211, R213). -/
  | memRead (addr : Word)
  /-- Another agent writes one byte of memory (R211, R213). -/
  | memWrite (addr : Word) (data : Byte)
deriving DecidableEq, Repr

/-- The whole machine. STATUS has no field of its own: BUSY is `engine.phase`, ERR is ERRCODE ≠ 0, and the other
fields stand here (R104, `statusWord`). -/
structure State where
  /-- CMD: the last accepted command word (R103). -/
  cmd      : Word
  /-- STATUS.DONE (R104). -/
  done     : Bool
  /-- STATUS.OVR (R104). -/
  ovr      : Bool
  /-- STATUS.ERRCODE (R104), none for code 0. -/
  errcode  : Option CmdError
  /-- INTEN.DONEIE (R105). -/
  doneie   : Bool
  /-- CTR: the initial block counter (R106). -/
  ctr      : Word
  /-- KEYLEN (R107). -/
  keylen   : Word
  /-- NONCELEN (R108). -/
  noncelen : Word
  /-- SRC (R109). -/
  src      : Word
  /-- DST (R110). -/
  dst      : Word
  /-- LEN (R111). -/
  len      : Word
  /-- KEY0 to KEY7 (R112). -/
  key      : Vector Word 8
  /-- NONCE0 to NONCE2 (R113). -/
  nonce    : Vector Word 3
  /-- STATE0 to STATE15 (R101). -/
  cipher   : CipherState
  /-- KS0 to KS15 (R102). -/
  ks       : CipherState
  /-- The hidden engine state (R116). -/
  engine   : Engine
  /-- The memory behind the memory port (R200, R211). -/
  mem      : Memory
  /-- The memory history of the last accepted command, oldest event first (R210; log entry 14). -/
  history  : List MemEvent
  /-- The platform's parameters (R12, R620). -/
  platform : Platform
  /-- What happens next, first thing first; when nothing is listed the engine moves (R612). -/
  inputs   : List Input
  /-- The value of the last host register read, the result of R307's `rd`. -/
  lastRead : Option Word
  /-- The value of the last memory read by another agent. -/
  lastMemRead : Option Byte
deriving DecidableEq, Repr

/-- Reset as R118 and R700 give it, on the given platform, with nothing listed in memory and no input pending. -/
def State.powerOn (p : Platform) : State :=
  { cmd := 0, done := false, ovr := false, errcode := none, doneie := false,
    ctr := 0, keylen := 0, noncelen := 0, src := 0, dst := 0, len := 0,
    key := Vector.replicate 8 0, nonce := Vector.replicate 3 0,
    cipher := Vector.replicate 16 0, ks := Vector.replicate 16 0,
    engine := Engine.fresh .idle 0,
    mem := [], history := [], platform := p, inputs := [], lastRead := none, lastMemRead := none }

/-- The machine right after reset (R118, R702), on the baseline platform (log entry 1). -/
def State.reset : State := State.powerOn Platform.baseline

end Machine
end Sys2Proof
end

