-- ==== Sys2Proof/Machine/Flags.lean ====
section
/-! DEFINITION. The flags: STATUS as a word, its write-1-to-clear fields, INTEN, and the interrupt output (spec
10_state.md R104, R105; 60_exceptions.md R601, R613). No command sets a flag by its arithmetic (R119). -/

namespace Sys2Proof
namespace Machine

/-- STATUS.BUSY: 1 from acceptance to completion (R104, R116). -/
def State.busy (s : State) : Bool := s.engine.phase == .busy

/-- `code(E)` of R601. -/
def CmdError.code : CmdError → BitVec 4
  | .invalidKeyLength   => 1
  | .invalidNonceLength => 2
  | .illegalCommand     => 3

/-- STATUS.ERRCODE as its four bits: 0 when there is no error (R104). -/
def errcodeBits : Option CmdError → BitVec 4
  | none   => 0
  | some e => e.code

/-- STATUS.ERR: always equal to ERRCODE ≠ 0 (R104). -/
def State.err (s : State) : Bool := errcodeBits s.errcode != 0

/-- STATUS as the host reads it: ERRCODE in [7:4], OVR, ERR, DONE, BUSY in [3:0], the rest 0 (R104). -/
def statusWord (s : State) : Word :=
  0#24 ++ errcodeBits s.errcode ++ BitVec.ofBool s.ovr ++ BitVec.ofBool s.err
    ++ BitVec.ofBool s.done ++ BitVec.ofBool s.busy

/-- A host write of STATUS: bit 1 clears DONE, bit 3 clears OVR, every other bit is ignored (R104). -/
def writeStatus (v : Word) (s : State) : State :=
  { s with done := s.done && !v.getLsbD 1, ovr := s.ovr && !v.getLsbD 3 }

/-- INTEN as the host reads it: DONEIE in bit 0, the rest 0 (R105). -/
def intenWord (s : State) : Word := 0#31 ++ BitVec.ofBool s.doneie

/-- A host write of INTEN: bit 0 is DONEIE, the rest is ignored (R105). -/
def writeInten (v : Word) (s : State) : State :=
  { s with doneie := v.getLsbD 0 }

/-- The interrupt output, a level: STATUS.DONE and INTEN.DONEIE (R613). -/
def irq (s : State) : Bool := s.done && s.doneie

end Machine
end Sys2Proof
end

