-- ==== Sys2Proof/Machine/Operands.lean ====
section
/-! DEFINITION. What a command reads: words of a cipher state by index (R302), the key and nonce as bytes (R112,
R113), the length checks (R400), and the shape of a PROCESS command in blocks, bytes and addresses (R204, R551
to R555). -/

namespace Sys2Proof

/-- `s[i]` of R16. -/
def CipherState.get (s : CipherState) (i : Fin 16) : Word := s[i.val]

/-- `s with [i] = v` of R16. -/
def CipherState.put (s : CipherState) (i : Fin 16) (v : Word) : CipherState := Vector.set s i v i.isLt

/-- `rotl32(x, n)` of R14, for 0 < n < 32. -/
def rotl32 (x : Word) (n : Nat) : Word := (x <<< n) ||| (x >>> (32 - n))

namespace Machine

/-- The 32 key bytes the KEY registers hold: key byte 4k + b is `KEYk[8b+7:8b]` (R112). -/
def keyBytes (s : State) : Vector Byte 32 :=
  Vector.ofFn fun n : Fin 32 => byteOf (s.key[n.val / 4]'(by omega)) (n.val % 4)

/-- The 12 nonce bytes the NONCE registers hold: nonce byte 4k + b is `NONCEk[8b+7:8b]` (R113). -/
def nonceBytes (s : State) : Vector Byte 12 :=
  Vector.ofFn fun n : Fin 12 => byteOf (s.nonce[n.val / 4]'(by omega)) (n.val % 4)

/-- `validate()` of R400: the key length is checked first, then the nonce length. -/
def validate (s : State) : Option CmdError :=
  if s.keylen ≠ Config.keyBytes then some .invalidKeyLength
  else if s.noncelen ≠ Config.nonceBytes then some .invalidNonceLength
  else none

/-- The number of keystream blocks of an input of `n` bytes (R551). -/
def blockCount (n : Nat) : Nat :=
  n / Config.blockBytes + if n % Config.blockBytes > 0 then 1 else 0

/-- `m` of R550: the bytes of block `j` of an input of `n` bytes, 64 for a full block and the remainder else (R554). -/
def blockLen (n j : Nat) : Nat :=
  if j < n / Config.blockBytes then Config.blockBytes else n % Config.blockBytes

/-- The address of byte `i` of block `j` in a buffer at `base`, modulo 2^32 (R204, R550). -/
def byteAddr (base : Word) (j i : Nat) : Word :=
  base + BitVec.ofNat 32 (Config.blockBytes * j + i)

/-- MEM_ADMIT(kind, addr) of R205: no refused range of the platform holds the access. -/
def memAdmit (p : Platform) (kind : AccessKind) (addr : Word) : Bool :=
  !p.memRefused.any fun r => r.kind == kind && decide (r.first ≤ addr.toNat) && decide (addr.toNat ≤ r.last)

/-- The next thing a running PROCESS does: an event of R555, or the completion of R557. -/
inductive ProcessEvent where
  | read (j i : Nat)
  | write (j i : Nat)
  | finish
deriving DecidableEq, Repr

/-- Where a PROCESS over `n` bytes that has moved `i` bytes of the given half of block `j` goes next: on through
the half, then to the WRITE half, then to the next block, then to completion (R555; log entry 20). -/
def nextProcessEvent (n j i : Nat) (sub : Half) : ProcessEvent :=
  match sub with
  | .read =>
    if i < blockLen n j then .read j i
    else if 0 < blockLen n j then .write j 0
    else .finish
  | .write =>
    if i < blockLen n j then .write j i
    else if j + 1 < blockCount n then .read (j + 1) 0
    else .finish

end Machine
end Sys2Proof
end

