-- ==== Sys2Proof/Machine/Ops.lean ====
section
/-! DEFINITION. The shared operations: one byte of memory, one event of the engine's memory history (R17, R210),
and the command lifecycle (60_exceptions.md R610, R611). `raiseError` is the one way a command reports an error;
the core takes no traps and returns from none (R614, R615). -/

namespace Sys2Proof

namespace Memory

/-- DESIGN CHOICE (unsafe, log entry 3): what a byte nothing has written reads as. The spec leaves the memory's
initial content open (R211). -/
def unlisted : Byte := 0

/-- The canonical form: addresses strictly rising and below 2^32 (R200), no cell equal to an unlisted one. -/
abbrev wf (m : Memory) : Prop :=
  m.Pairwise (fun c d => c.1 < d.1) ∧ ∀ c ∈ m, c.1 < 2 ^ 32 ∧ c.2 ≠ unlisted

/-- The byte at an address. -/
def read : Memory → Nat → Byte
  | [], _ => unlisted
  | c :: m, a => if c.1 = a then c.2 else read m a

/-- The memory without a cell for `a`. -/
def erase (m : Memory) (a : Nat) : Memory := m.filter fun c => c.1 != a

/-- The memory with a cell put in address order. -/
def insert (a : Nat) (v : Byte) : Memory → Memory
  | [] => [(a, v)]
  | c :: m => if a < c.1 then (a, v) :: c :: m else c :: insert a v m

/-- The memory after a write of one byte, in canonical form again. -/
def write (m : Memory) (a : Nat) (v : Byte) : Memory :=
  if v = unlisted then m.erase a else insert a v (m.erase a)

end Memory

namespace Machine

/-- The byte of memory at a 32-bit address (R204). -/
def State.byteAt (s : State) (a : Word) : Byte := Memory.read s.mem a.toNat

/-- `MemRead(a, 1)` of R17: one event of the memory history; the value is `s.byteAt a`. -/
def memRead (a : Word) (s : State) : State :=
  { s with history := s.history ++ [{ kind := .read, addr := a, data := s.byteAt a }] }

/-- `MemWrite(a, 1, v)` of R17: one event of the memory history, and the byte. -/
def memWrite (a : Word) (v : Byte) (s : State) : State :=
  { s with mem := Memory.write s.mem a.toNat v
           history := s.history ++ [{ kind := .write, addr := a, data := v }] }

/-- `STATE[i] <- x[i]` for i in 0..15 (R16, R101). -/
def setCipher (x : CipherState) (s : State) : State := { s with cipher := x }

/-- `KS[i] <- x[i]` for i in 0..15 (R16, R102). -/
def setKs (x : CipherState) (s : State) : State := { s with ks := x }

/-- ACCEPT(w) of R610: one atomic update. The progress of the new command starts at nothing, and its memory history
at no event. -/
def accept (w : Word) (s : State) : State :=
  { s with cmd := w, done := false, errcode := none, engine := Engine.fresh .busy w, history := [] }

/-- COMPLETE(code) of R611, once the command's results are in place: one atomic update. The other hidden items keep what
they hold (log entry 13). -/
def complete (code : Option CmdError) (s : State) : State :=
  { s with errcode := code, done := true, engine := { s.engine with phase := .idle } }

/-- `raise E` of R18: the command completes at once with the error's code and no other effect (R602). -/
def raiseError (e : CmdError) (s : State) : State := complete (some e) s

/-- The commands that use the key and the nonce: `validate()` first, then the rest (R400, R407). -/
def withValidated (s : State) (body : State → Host.Outcome State Fault Refusal) :
    Host.Outcome State Fault Refusal :=
  match validate s with
  | some e => .next (raiseError e s)
  | none   => body s

/-- Reset (R700, D24): every register at its reset value, the engine idle, the hidden state and the running command
discarded. Memory keeps the writes already performed (R701); the platform, the other agents' pending
actions and what they have read are not the core's (log entry 15). -/
def resetCore (s : State) : State :=
  { State.powerOn s.platform with
      mem := s.mem, inputs := s.inputs, lastRead := s.lastRead, lastMemRead := s.lastMemRead }

end Machine
end Sys2Proof
end

