-- ==== Sys2Proof/Machine/QuarterRound.lean ====
section
/-! DEFINITION. The quarter-round and the QROUND command (spec 41_quarter_round.md R450 to R453). -/

namespace Sys2Proof

/-- `s[x] <- s[x] + s[y]`, one statement of R450. -/
def addInto (s : CipherState) (x y : Fin 16) : CipherState := s.put x (s.get x + s.get y)

/-- `s[x] <- rotl32(s[x] ^ s[y], n)`, one statement of R450. -/
def xorRotInto (s : CipherState) (x y : Fin 16) (n : Nat) : CipherState :=
  s.put x (rotl32 (s.get x ^^^ s.get y) n)

/-- `quarter_round(s, a, b, c, d)` of R450: eight statements, each reading what the earlier ones left (R451), so that
equal indices name one word (R452). Irreducible only so that Lean's unifier does not unroll the statements;
`quarterRound_eq` unfolds it. -/
@[irreducible] def quarterRound (s : CipherState) (a b c d : Fin 16) : CipherState :=
  let s := addInto s a b
  let s := xorRotInto s d a 16
  let s := addInto s c d
  let s := xorRotInto s b c 12
  let s := addInto s a b
  let s := xorRotInto s d a 8
  let s := addInto s c d
  xorRotInto s b c 7

namespace Machine

/-- QROUND (R453). Only the words a, b, c, d name can change (R451). -/
def execQround (a b c d : Fin 16) (s : State) : Host.Outcome State Fault Refusal :=
  .next (complete none (setCipher (quarterRound s.cipher a b c d) s))

end Machine
end Sys2Proof
end

