-- ==== Sys2Proof/Machine/StateBuilder.lean ====
section
/-! DEFINITION. The state builder and the BUILD command (spec 40_state_builder.md R401 to R410). -/

namespace Sys2Proof

/-- CONST of R401: the ASCII bytes of "expand 32-byte k", decoded little-endian. -/
def cipherConst : Vector Word 4 :=
  #v[le32 0x65 0x78 0x70 0x61, le32 0x6e 0x64 0x20 0x33, le32 0x32 0x2d 0x62 0x79, le32 0x74 0x65 0x20 0x6b]

/-- `build_state(K, ctr, N)` of R402. Irreducible only so that Lean's unifier does not unroll it; `get_buildState` says
its words. -/
@[irreducible] def buildState (K : Vector Byte 32) (ctr : Word) (N : Vector Byte 12) : CipherState :=
  Vector.ofFn fun i : Fin 16 =>
    if _h : i.val < 4 then cipherConst[i.val]
    else if _h : i.val < 12 then
      le32 K[4 * (i.val - 4)] K[4 * (i.val - 4) + 1] K[4 * (i.val - 4) + 2] K[4 * (i.val - 4) + 3]
    else if _h : i.val = 12 then ctr
    else
      le32 N[4 * (i.val - 13)] N[4 * (i.val - 13) + 1] N[4 * (i.val - 13) + 2] N[4 * (i.val - 13) + 3]

namespace Machine

/-- `regs_state(ctr)` of R406: the state builder on the bytes of the KEY and NONCE registers. -/
def regsState (s : State) (ctr : Word) : CipherState := buildState (keyBytes s) ctr (nonceBytes s)

/-- BUILD (R410). -/
def execBuild (s : State) : Host.Outcome State Fault Refusal :=
  withValidated s fun s => .next (complete none (setCipher (regsState s s.ctr) s))

end Machine
end Sys2Proof
end

