-- ==== Sys2Proof/Machine/Block.lean ====
section
/-! DEFINITION. The rounds, the block function, and the DROUND and BLOCK commands (spec 42_block_function.md R500 to
R511). -/

namespace Sys2Proof

/-- `column_round` of R500. -/
def columnRound (s : CipherState) : CipherState :=
  let s := quarterRound s 0 4 8 12
  let s := quarterRound s 1 5 9 13
  let s := quarterRound s 2 6 10 14
  quarterRound s 3 7 11 15

/-- `diagonal_round` of R501. -/
def diagonalRound (s : CipherState) : CipherState :=
  let s := quarterRound s 0 5 10 15
  let s := quarterRound s 1 6 11 12
  let s := quarterRound s 2 7 8 13
  quarterRound s 3 4 9 14

/-- `double_round` of R502: the column round first. -/
def doubleRound (s : CipherState) : CipherState := diagonalRound (columnRound s)

/-- `repeat n times: w <- double_round(w)` of R505 step 2. -/
def doubleRounds : Nat → CipherState → CipherState
  | 0, w     => w
  | n + 1, w => doubleRounds n (doubleRound w)

/-- The permutation of R505 step 2: 10 double rounds, 80 quarter-rounds (R506). Irreducible only so that Lean's
unifier does not unroll the rounds. -/
@[irreducible] def permute (o : CipherState) : CipherState := doubleRounds Config.doubleRounds o

/-- Feed-forward of R507: word by word, modulo 2^32, no carry between words. Irreducible as `permute` is. -/
@[irreducible] def feedForward (w o : CipherState) : CipherState :=
  Vector.ofFn fun i : Fin 16 => w.get i + o.get i

/-- `serialize` of R15 and R508: keystream byte 4i + b is `x[i][8b+7:8b]`. Irreducible as `permute` is. -/
@[irreducible] def serialize (x : CipherState) : Vector Byte 64 :=
  Vector.ofFn fun n : Fin 64 => byteOf (x.get ⟨n.val / 4, by omega⟩) (n.val % 4)

/-- `chacha_block(K, ctr, N)` of R505. Irreducible for the same reason as `permute`. -/
@[irreducible] def chachaBlock (K : Vector Byte 32) (ctr : Word) (N : Vector Byte 12) : Vector Byte 64 :=
  let o := buildState K ctr N
  serialize (feedForward (permute o) o)

namespace Machine

/-- The block function run in the engine's hidden words: `o` the retained copy, `w` the permuted state (R116, R511). -/
def computeBlock (ctr : Word) (s : State) : State :=
  let o := regsState s ctr
  { s with engine := { s.engine with o := o, w := permute o } }

/-- The feed-forward of the hidden words, before serialisation (R507). -/
def Engine.blockWords (e : Engine) : CipherState := feedForward e.w e.o

/-- DROUND (R504): no feed-forward. -/
def execDround (s : State) : Host.Outcome State Fault Refusal :=
  .next (complete none (setCipher (doubleRound s.cipher) s))

/-- BLOCK (R510): KS takes the 16 words before serialisation; STATE and CTR are untouched. -/
def execBlock (s : State) : Host.Outcome State Fault Refusal :=
  withValidated s fun s =>
    let t := computeBlock s.ctr s
    .next (complete none (setKs t.engine.blockWords t))

end Machine
end Sys2Proof
end

