-- ==== Sys2Proof/Machine/CounterMode.lean ====
section
/-! DEFINITION. The counter-mode loop and the PROCESS command (spec 43_counter_mode.md R550 to R557). One call of
`execProcess` is one engine step: one memory event, or the completion (R555). -/

namespace Sys2Proof
namespace Machine

/-- The counter of block `j`: `(CTR + j) mod 2^32` (R552). -/
def blockCounter (ctr : Word) (j : Nat) : Word := ctr + BitVec.ofNat 32 j

/-- The keystream block `j` of the registers' key, counter and nonce (R505, R552). -/
def keystreamBlock (s : State) (j : Nat) : Vector Byte 64 :=
  chachaBlock (keyBytes s) (blockCounter s.ctr j) (nonceBytes s)

/-- `kb <- chacha_block(K, CTR + j, N)` at the start of block `j` (R550). -/
def startBlock (j : Nat) (s : State) : State :=
  let t := computeBlock (blockCounter s.ctr j) s
  { t with engine := { t.engine with kb := serialize t.engine.blockWords } }

/-- The progress of R116 after the event at byte `i` of the given half of block `j`. -/
def advance (j i : Nat) (sub : Half) (s : State) : State :=
  { s with engine := { s.engine with j := BitVec.ofNat 32 j, i := i + 1, sub := sub } }

/-- A read event: `ib[i] <- MemRead(SRC + 64j + i, 1)`; the first of a block computes the keystream block first (log entry 12). -/
def processRead (j i : Nat) (s : State) : State :=
  let t := if i = 0 then startBlock j s else s
  let a := byteAddr s.src j i
  let t := memRead a t
  advance j i .read { t with engine := { t.engine with ib := t.engine.ib.setIfInBounds i (s.byteAt a) } }

/-- A write event: `MemWrite(DST + 64j + i, 1, ib[i] ^ kb[i])` (R553). `i` is below the block length, so below 64. -/
def processWrite (j i : Nat) (s : State) : State :=
  let v := s.engine.ib.getD i 0 ^^^ s.engine.kb.getD i 0
  advance j i .write (memWrite (byteAddr s.dst j i) v s)

/-- The completion of a successful PROCESS: KS is zeroed (R557). -/
def processFinish (s : State) : State := complete none (setKs (Vector.replicate 16 0) s)

/-- The event or the completion a running PROCESS comes to next. -/
def pendingProcessEvent (s : State) : ProcessEvent :=
  nextProcessEvent s.len.toNat s.engine.j.toNat s.engine.i s.engine.sub

/-- One engine step of a validated PROCESS. Where MEM_ADMIT refuses the access "the engine has no further step": it
stays BUSY, with DONE = 0 and no error code, until reset (R205), so the state stays as it is (log entry 4). -/
def processStep (s : State) : Host.Outcome State Fault Refusal :=
  match pendingProcessEvent s with
  | .read j i =>
    if memAdmit s.platform .read (byteAddr s.src j i) then .next (processRead j i s) else .next s
  | .write j i =>
    if memAdmit s.platform .write (byteAddr s.dst j i) then .next (processWrite j i s) else .next s
  | .finish => .next (processFinish s)

/-- PROCESS (R550): `validate()` before any memory access and for every LEN (R556), then one step of the loop. KEYLEN
and NONCELEN are busy-locked, so checking them at each step is checking them once (log entry 10). -/
def execProcess (s : State) : Host.Outcome State Fault Refusal := withValidated s processStep

end Machine
end Sys2Proof
end

