-- ==== Sys2Proof/Machine/Dispatch.lean ====
section
/-! DEFINITION. One arm per command of spec 30_encoding.md R303. -/

namespace Sys2Proof.Machine

def exec (i : Instr) (s : State) : Host.Outcome State Fault Refusal :=
  match i with
  | .build => Sys2Proof.Machine.execBuild s
  | .qround a b c d => Sys2Proof.Machine.execQround a b c d s
  | .dround => Sys2Proof.Machine.execDround s
  | .block => Sys2Proof.Machine.execBlock s
  | .process => Sys2Proof.Machine.execProcess s

end Sys2Proof.Machine
end

