-- ==== Sys2Proof/WellFormed.lean ====
section
/-! DEFINITION. The checks on what reaches the core. A command needs none beyond its type (R302); the checks with
content are those on an assembler operand (R306) and on a host register access (R201, R620). -/

namespace Sys2Proof

/-- R302: "Every 4-bit value names a valid word, so no index is out of range", and the indices need not be
distinct, so each operand is only asked to be a 4-bit value. `Fin 16` guarantees it. -/
def Instr.wellFormed : Instr → Bool
  | .build          => true
  | .qround a b c d => a.val < 16 && b.val < 16 && c.val < 16 && d.val < 16
  | .dround         => true
  | .block          => true
  | .process        => true

/-- R306: an assembler operand is "a decimal 0..15". -/
def asmIndexOk (n : Nat) : Bool := n ≤ 15

/-- WINDOW_ACCESS of R620: the platform lets this master reach the window. -/
def Access.masterAdmitted (p : Platform) (a : Access) : Bool := !p.deniedMasters.contains a.master

/-- R201: the access is 32 bits wide. -/
def Access.wordWide (a : Access) : Bool := a.width == 4

/-- R201: the address is a multiple of 4. -/
def Access.aligned (a : Access) : Bool := a.addr % 4 == 0

/-- R201: the address is CHACHA_BASE + off with off in 0x000 to 0x0FC (given alignment, below 0x100). -/
def Access.inWindow (p : Platform) (a : Access) : Bool :=
  p.base ≤ a.addr && a.addr < p.base + Config.windowBytes

/-- A host register access that is inside the core's interface (R201, R620). -/
def Access.wellFormed (p : Platform) (a : Access) : Bool :=
  a.masterAdmitted p && a.wordWide && a.aligned && a.inWindow p

end Sys2Proof
end

