-- ==== Sys2Proof/Machine/Window.lean ====
section
/-! DEFINITION. The register window as a host sees it (spec 10_state.md R100 to R115, 20_memory.md R201 to R203):
the offsets, the reads, the writes with the busy lock, and which accesses are inside the interface. -/

namespace Sys2Proof
namespace Machine

/-- The offset of a register (R100). -/
def Reg.offset : Reg → Nat
  | .cmd      => 0x000
  | .status   => 0x004
  | .inten    => 0x008
  | .ctr      => 0x00C
  | .keylen   => 0x010
  | .noncelen => 0x014
  | .src      => 0x018
  | .dst      => 0x01C
  | .len      => 0x020
  | .key k    => 0x040 + 4 * k.val
  | .nonce k  => 0x060 + 4 * k.val
  | .state i  => 0x080 + 4 * i.val
  | .ks i     => 0x0C0 + 4 * i.val

/-- The register at a window offset, none at a reserved offset (R100, R114). -/
def regAt (off : Nat) : Option Reg :=
  if off < 0x024 then
    match off with
    | 0x000 => some .cmd
    | 0x004 => some .status
    | 0x008 => some .inten
    | 0x00C => some .ctr
    | 0x010 => some .keylen
    | 0x014 => some .noncelen
    | 0x018 => some .src
    | 0x01C => some .dst
    | 0x020 => some .len
    | _     => none
  else if off < 0x040 then none
  else if off < 0x060 then some (.key (Fin.ofNat 8 ((off - 0x040) / 4)))
  else if off < 0x06C then some (.nonce (Fin.ofNat 3 ((off - 0x060) / 4)))
  else if off < 0x080 then none
  else if off < 0x0C0 then some (.state (Fin.ofNat 16 ((off - 0x080) / 4)))
  else if off < 0x100 then some (.ks (Fin.ofNat 16 ((off - 0x0C0) / 4)))
  else none

/-- The busy-locked registers (R115). -/
def Reg.busyLocked : Reg → Bool
  | .cmd | .ctr | .keylen | .noncelen | .src | .dst | .len => true
  | .key _ | .nonce _ | .state _ => true
  | .status | .inten | .ks _ => false

/-- The value a host read returns (R101 to R113): KEY reads 0, STATE and KS read 0 while BUSY. -/
def readReg (s : State) : Reg → Word
  | .cmd      => s.cmd
  | .status   => statusWord s
  | .inten    => intenWord s
  | .ctr      => s.ctr
  | .keylen   => s.keylen
  | .noncelen => s.noncelen
  | .src      => s.src
  | .dst      => s.dst
  | .len      => s.len
  | .key _    => 0
  | .nonce k  => s.nonce[k]
  | .state i  => if s.busy then 0 else s.cipher.get i
  | .ks i     => if s.busy then 0 else s.ks.get i

/-- The value at a window offset; a reserved offset reads 0 (R114). -/
def readOffset (s : State) (off : Nat) : Word :=
  match regAt off with
  | some r => readReg s r
  | none   => 0

/-- What a host write does that the busy lock lets through: CMD accepts a command, STATUS is write-1-to-clear, KS is
read-only, and any other register takes the value (R101 to R113). -/
def storeReg (r : Reg) (v : Word) (s : State) : State :=
  match r with
  | .cmd      => accept v s
  | .status   => writeStatus v s
  | .inten    => writeInten v s
  | .ctr      => { s with ctr := v }
  | .keylen   => { s with keylen := v }
  | .noncelen => { s with noncelen := v }
  | .src      => { s with src := v }
  | .dst      => { s with dst := v }
  | .len      => { s with len := v }
  | .key k    => { s with key := s.key.set k v k.isLt }
  | .nonce k  => { s with nonce := s.nonce.set k v k.isLt }
  | .state i  => { s with cipher := s.cipher.put i v }
  | .ks _     => s

/-- A host write of a register, with the busy lock of R115. -/
def writeReg (r : Reg) (v : Word) (s : State) : State :=
  if r.busyLocked && s.busy then { s with ovr := true } else storeReg r v s

/-- A host write at a window offset; a write to a reserved offset is ignored (R114). -/
def writeOffset (off : Nat) (v : Word) (s : State) : State :=
  match regAt off with
  | some r => writeReg r v s
  | none   => s

/-- Why a host access is outside the core's interface, none if it is inside (R201, R620; log entry 11). -/
def accessProblem (p : Platform) (a : Access) : Option Refusal :=
  if !a.masterAdmitted p then some .windowAccessDenied
  else if !a.wordWide then some .accessWidth
  else if !a.aligned then some .accessMisaligned
  else if !a.inWindow p then some .outsideWindow
  else none

/-- One host register read: its value is the result, and nothing else happens (R203). -/
def hostRead (a : Access) (s : State) : Host.Outcome State Fault Refusal :=
  match accessProblem s.platform a with
  | some r => .refused r
  | none   => .next { s with lastRead := some (readOffset s (a.addr - s.platform.base)) }

/-- One host register write. -/
def hostWrite (a : Access) (v : Word) (s : State) : Host.Outcome State Fault Refusal :=
  match accessProblem s.platform a with
  | some r => .refused r
  | none   => .next (writeOffset (a.addr - s.platform.base) v s)

/-- The access by which a master reaches a register. -/
def Reg.access (p : Platform) (master : Nat) (r : Reg) : Access :=
  { master := master, addr := p.base + r.offset, width := 4 }

/-- `wait` of R307, one poll: read STATUS; if DONE reads 1 the wait is over, else the engine has its turn and the
host polls again (DESIGN CHOICE, log entry 18). -/
def hostWait (master : Nat) (s : State) : Host.Outcome State Fault Refusal :=
  match hostRead (Reg.status.access s.platform master) s with
  | .next t =>
    if s.done then .next t
    else .next { t with inputs := .core .engine :: .wait master :: t.inputs }
  | .fault f => .fault f
  | .refused r => .refused r

/-- Another agent reads a byte of memory (R211). -/
def agentMemRead (a : Word) (s : State) : State := { s with lastMemRead := some (s.byteAt a) }

/-- Another agent writes a byte of memory (R211). -/
def agentMemWrite (a : Word) (v : Byte) (s : State) : State :=
  { s with mem := Memory.write s.mem a.toNat v }

end Machine
end Sys2Proof
end

