-- ==== Sys2Proof/Machine/Engine.lean ====
section
/-! DEFINITION. One step of the engine, and what one input does: the pieces that Step.lean puts in order. -/

namespace Sys2Proof
namespace Machine

/-- One step of the engine. While idle it waits for a CMD write (R702); while busy it runs the accepted word, which
is IllegalCommand if it decodes to none (R305, R604: before anything else). -/
def engineStep (s : State) : Host.Outcome State Fault Refusal :=
  match s.engine.phase with
  | .idle => .next s
  | .busy =>
    match decode s.engine.cur with
    | .ok i    => exec i s
    | .error _ => .next (raiseError .illegalCommand s)

/-- One core event (R10, R201). -/
def coreEvent (e : CoreEvent) (s : State) : Host.Outcome State Fault Refusal :=
  match e with
  | .engine    => engineStep s
  | .read a    => hostRead a s
  | .write a v => hostWrite a v s

/-- One input. Reset wins over the event it meets (R605, R700): that event does not happen (log entry 19). -/
def applyInput (x : Input) (s : State) : Host.Outcome State Fault Refusal :=
  match x with
  | .core e       => coreEvent e s
  | .reset _      => .next (resetCore s)
  | .wait master  => hostWait master s
  | .memRead a    => .next (agentMemRead a s)
  | .memWrite a v => .next (agentMemWrite a v s)

end Machine
end Sys2Proof
end

