-- ==== Sys2Proof/Machine/Step.lean ====
section
/-! DEFINITION. One step of the machine: the next thing the outside world does, or one step of the engine. -/

namespace Sys2Proof
namespace Machine

/-- One step: the first pending input, or the engine where none is pending. Every agent's accesses lie in the one
order of the steps (R211), and the engine moves whenever nothing else does (R612; log entry 9). -/
def step (s : State) : Host.Outcome State Fault Refusal :=
  match s.inputs with
  | []        => engineStep s
  | x :: rest => applyInput x { s with inputs := rest }

/-- `s` with the word accepted as a command (R610) and the engine's turn next. The core fetches no instruction (R120):
a CMD write is how a word reaches the engine, and this is the state such a write leaves (log entry 5). -/
def State.withFetchWord (s : State) (nbits w : Nat) : State :=
  { accept (BitVec.ofNat 32 (w % 2 ^ nbits)) s with inputs := .core .engine :: s.inputs }

end Machine
end Sys2Proof
end

