-- ==== Sys2Proof/Machine/Script.lean ====
section
/-! DEFINITION. The notation of spec 30_encoding.md R306 to R308 as abstract syntax: assembler commands, host script
lines, and the pseudo-instructions. Notation only (D28): a script becomes a list of inputs, and every effect is the
window's or the engine's. R306's command lines are read from their letters too; the lines of R307 and R308 stand as
terms only (log entry 8). -/

namespace Sys2Proof
namespace Machine

/-- One assembler command of R306; the operands are the decimals as written. -/
inductive AsmCommand where
  | build
  | qround (a b c d : Nat)
  | dround
  | block
  | process
deriving DecidableEq, Repr

/-- The operands are decimals 0 to 15 (R306). -/
def AsmCommand.wellFormed : AsmCommand → Bool
  | .qround a b c d => asmIndexOk a && asmIndexOk b && asmIndexOk c && asmIndexOk d
  | .build | .dround | .block | .process => true

/-- The word column of R306. -/
def AsmCommand.word : AsmCommand → Word
  | .build          => 0x00000001
  | .qround a b c d =>
    0x2 + (BitVec.ofNat 32 a <<< 8) + (BitVec.ofNat 32 b <<< 12) + (BitVec.ofNat 32 c <<< 16)
      + (BitVec.ofNat 32 d <<< 20)
  | .dround         => 0x00000003
  | .block          => 0x00000004
  | .process        => 0x00000005

/-- Assembling a command; an operand out of range is rejected. -/
def assemble (c : AsmCommand) : Option Word := if c.wellFormed then some c.word else none

/-- The text without the blanks at its two ends. -/
def trimBlanks (cs : List Char) : List Char :=
  ((cs.dropWhile (· == ' ')).reverse.dropWhile (· == ' ')).reverse

/-- The pieces of a text between its commas. -/
def splitCommas : List Char → List (List Char)
  | [] => [[]]
  | c :: cs =>
    if c = ',' then [] :: splitCommas cs
    else match splitCommas cs with
      | []      => [[c]]
      | w :: ws => (c :: w) :: ws

/-- A number written as decimal digits. -/
def decimal (cs : List Char) : Option Nat :=
  if cs.isEmpty || !cs.all Char.isDigit then none
  else some (cs.foldl (fun n c => 10 * n + (c.toNat - '0'.toNat)) 0)

/-- The operands of a `qround` line: four decimals between commas. -/
def qroundOperands (cs : List Char) : Option AsmCommand :=
  match (splitCommas cs).map (fun w => decimal (trimBlanks w)) with
  | [some a, some b, some c, some d] => some (.qround a b c d)
  | _                                => none

/-- The command a line of R306 names: the mnemonic's letters in either case, then its operands. DESIGN CHOICE (log
entry 8): blanks beside a mnemonic, an operand or a comma do not count. -/
def AsmCommand.ofLine (line : List Char) : Option AsmCommand :=
  let line := trimBlanks line
  let mnemonic := (line.takeWhile Char.isAlpha).map Char.toLower
  let rest := trimBlanks (line.dropWhile Char.isAlpha)
  if mnemonic = ['q', 'r', 'o', 'u', 'n', 'd'] then qroundOperands rest
  else if !rest.isEmpty then none
  else if mnemonic = ['b', 'u', 'i', 'l', 'd'] then some .build
  else if mnemonic = ['d', 'r', 'o', 'u', 'n', 'd'] then some .dround
  else if mnemonic = ['b', 'l', 'o', 'c', 'k'] then some .block
  else if mnemonic = ['p', 'r', 'o', 'c', 'e', 's', 's'] then some .process
  else none

/-- The word a line of R306 assembles to. -/
def assembleLine (line : List Char) : Option Word := (AsmCommand.ofLine line).bind assemble

/-- One host action of R307. `issue` is a `wr` to CMD. -/
inductive HostLine where
  | wr (r : Reg) (v : Word)
  | rd (r : Reg)
  | wait
  | mem (first : Word) (bytes : List Byte)
deriving DecidableEq, Repr

/-- `issue <command>` of R307: a write of the command's word to CMD. DESIGN CHOICE (log entry 8): of a command term with
an operand above 15, which R306 gives no word and `assemble` rejects, it writes the unchecked sum of R306's formula. -/
def HostLine.issue (c : AsmCommand) : HostLine := .wr .cmd c.word

/-- The inputs one host action stands for, made by one master on one platform (R307). -/
def HostLine.inputs (p : Platform) (master : Nat) : HostLine → List Input
  | .wr r v       => [.core (.write (r.access p master) v)]
  | .rd r         => [.core (.read (r.access p master))]
  | .wait         => [.wait master]
  | .mem first bs => bs.mapIdx fun k b => .memWrite (first + BitVec.ofNat 32 k) b

/-- The inputs of a whole script, line by line. -/
def scriptInputs (p : Platform) (master : Nat) (lines : List HostLine) : List Input :=
  lines.flatMap (HostLine.inputs p master)

/-- The machine with a script as what the outside world does next. -/
def State.withScript (s : State) (master : Nat) (lines : List HostLine) : State :=
  { s with inputs := s.inputs ++ scriptInputs s.platform master lines }

/-- An `issue` and `wait` pair for each command, the shape of every expansion of R308. -/
def issueEach (cs : List AsmCommand) : List HostLine := cs.flatMap fun c => [.issue c, .wait]

/-- `colround` of R308. -/
def colround : List HostLine :=
  issueEach [.qround 0 4 8 12, .qround 1 5 9 13, .qround 2 6 10 14, .qround 3 7 11 15]

/-- `diaground` of R308. -/
def diaground : List HostLine :=
  issueEach [.qround 0 5 10 15, .qround 1 6 11 12, .qround 2 7 8 13, .qround 3 4 9 14]

/-- `encrypt` of R308. -/
def encrypt : List HostLine := issueEach [.process]

/-- `decrypt` of R308: the same command. -/
def decrypt : List HostLine := issueEach [.process]

end Machine
end Sys2Proof
end

