-- ==== Sys2Proof/Safety.lean ====
section
/-! DEFINITION. The terms in which claims about the machine are made: what commands leave alone, the invariants of
a run, the plan of a PROCESS command and the memory it should leave. Nothing here is part of a step. -/

namespace Sys2Proof
namespace Machine

/-- The operand registers agree: every one is busy-locked, and no command writes one (R106 to R113, R115). -/
structure SameOperands (s t : State) : Prop where
  ctr      : t.ctr = s.ctr
  keylen   : t.keylen = s.keylen
  noncelen : t.noncelen = s.noncelen
  src      : t.src = s.src
  dst      : t.dst = s.dst
  len      : t.len = s.len
  key      : t.key = s.key
  nonce    : t.nonce = s.nonce

/-- What no engine step changes: CMD, OVR, INTEN, the operand registers, and everything outside the core but memory. -/
structure CommandFrame (s t : State) : Prop where
  cmd         : t.cmd = s.cmd
  ovr         : t.ovr = s.ovr
  doneie      : t.doneie = s.doneie
  operands    : SameOperands s t
  platform    : t.platform = s.platform
  inputs      : t.inputs = s.inputs
  lastRead    : t.lastRead = s.lastRead
  lastMemRead : t.lastMemRead = s.lastMemRead

/-- No memory event happened, and every byte of memory reads as before. -/
structure NoMemoryAccess (s t : State) : Prop where
  history : t.history = s.history
  bytes   : ∀ a : Word, t.byteAt a = s.byteAt a

/-- The STATUS and phase that COMPLETE(code) leaves (R611). -/
structure CompletedWith (code : Option CmdError) (t : State) : Prop where
  idle    : t.busy = false
  done    : t.done = true
  errcode : t.errcode = code

/-- The STATUS fields and phase of a command still running: untouched by an event of PROCESS. -/
structure StillRunning (s t : State) : Prop where
  phase   : t.engine.phase = s.engine.phase
  cur     : t.engine.cur = s.engine.cur
  done    : t.done = s.done
  errcode : t.errcode = s.errcode
  cipher  : t.cipher = s.cipher
  ks      : t.ks = s.ks

/-- The invariant of STATUS, CMD and memory: the memory keeps its canonical form; while BUSY, DONE is 0 and ERRCODE is
0 (the legal values of R104), and the running word is the one CMD reads (R103, R116). -/
structure State.Inv (s : State) : Prop where
  memory  : s.mem.wf
  status  : s.busy = true → s.done = false ∧ s.errcode = none
  command : s.busy = true → s.engine.cur = s.cmd

/-- The memory events of block `j` of a PROCESS over `n` bytes: all reads ascending, then all writes ascending
(R555). -/
def plannedBlock (n : Nat) (src dst : Word) (j : Nat) : List (AccessKind × Word) :=
  (List.range (blockLen n j)).map (fun i => (AccessKind.read, byteAddr src j i))
    ++ (List.range (blockLen n j)).map (fun i => (AccessKind.write, byteAddr dst j i))

/-- The memory events of a whole PROCESS over `n` bytes, block by block (R210, R555). -/
def plannedEvents (n : Nat) (src dst : Word) : List (AccessKind × Word) :=
  (List.range (blockCount n)).flatMap (plannedBlock n src dst)

/-- The kinds and addresses of the memory history. -/
def State.accesses (s : State) : List (AccessKind × Word) := s.history.map fun e => (e.kind, e.addr)

/-- How many events of the plan lie behind a progress (j, i, sub); every block before `j` is a full one. -/
def eventsDone (n j i : Nat) : Half → Nat
  | .read  => 2 * Config.blockBytes * j + i
  | .write => 2 * Config.blockBytes * j + blockLen n j + i

/-- The invariant of a running command's progress: the position lies in a block of the input, the memory history is
the part of the plan that the position says, and `kb` is the keystream of the block once it has begun. -/
structure State.OnPlan (s : State) : Prop where
  inBlock   : s.busy = true → s.engine.i ≤ blockLen s.len.toNat s.engine.j.toNat
  ofInput   : s.busy = true → s.engine.j.toNat < blockCount s.len.toNat ∨
                (s.engine.j = 0 ∧ s.engine.i = 0 ∧ s.engine.sub = .read)
  history   : s.busy = true → s.accesses = (plannedEvents s.len.toNat s.src s.dst).take
                (eventsDone s.len.toNat s.engine.j.toNat s.engine.i s.engine.sub)
  keystream : s.busy = true → (0 < s.engine.i ∨ s.engine.sub = .write) →
                s.engine.kb = keystreamBlock s s.engine.j.toNat

/-- Byte `k` of the keystream of the registers: byte k mod 64 of block k div 64 (R207, R553). -/
def keystreamByte (s : State) (k : Nat) : Byte :=
  (keystreamBlock s (k / 64))[k % 64]'(Nat.mod_lt _ (by decide))

/-- Block `j` of R550's loop on a memory: every input byte is read first, then the bytes are written ascending. -/
def processBlock (s : State) (m : Memory) (j : Nat) : Memory :=
  (List.range (blockLen s.len.toNat j)).foldl
    (fun m' i => Memory.write m' (byteAddr s.dst j i).toNat
      (Memory.read m (byteAddr s.src j i).toNat ^^^ keystreamByte s (64 * j + i))) m

/-- The memory R550's loop leaves, written as the loop, not as the engine's steps. -/
def processMemory (s : State) : Memory :=
  (List.range (blockCount s.len.toNat)).foldl (processBlock s) s.mem

/-- Every memory access of the PROCESS that the registers describe is admitted (R205). -/
def AllAdmitted (s : State) : Prop :=
  ∀ k < s.len.toNat,
    memAdmit s.platform .read (s.src + BitVec.ofNat 32 k) = true ∧
    memAdmit s.platform .write (s.dst + BitVec.ofNat 32 k) = true

/-- A PROCESS command just accepted, with legal lengths, and no other agent's action pending. -/
structure ProcessStart (s : State) : Prop where
  busy     : s.busy = true
  cur      : s.engine.cur = 0x00000005
  atStart  : s.engine.j = 0 ∧ s.engine.i = 0 ∧ s.engine.sub = .read
  noEvent  : s.history = []
  valid    : s.keylen = 32 ∧ s.noncelen = 12
  alone    : s.inputs = []

/-- The two buffers are the same one, or share no address (R559). -/
def SameOrDisjoint (src dst : Word) (n : Nat) : Prop :=
  src = dst ∨ ∀ k < n, ∀ k' < n, src + BitVec.ofNat 32 k ≠ dst + BitVec.ofNat 32 k'

/-- Two states that differ at most in the hidden engine items of R116, which are meaningless while idle. -/
structure SameButHidden (s t : State) : Prop where
  visible : { t with engine := s.engine } = s
  phase   : t.engine.phase = s.engine.phase
  running : s.busy = true → t.engine = s.engine

end Machine
end Sys2Proof
end

