-- ==== Sys2Proof/Certificates/Slice0/Obligations.lean ====
section
/-! DEFINITION. The statements for the provers, each from the numbered rules of the spec it names. -/

open Sys2Proof Sys2Proof.Machine

/-! ## The command word -/

/-- R304: the decoder, read off the bits of the word as numbers, and its match and mask table: a legal word matches
exactly one row, an illegal word none. -/
def Obligations.DecoderIsTheRuleOnBits : Prop :=
  ∀ w : Word,
    (decode w).toOption =
      (if w.toNat / 2 ^ 4 % 2 ^ 4 ≠ 0 ∨ w.toNat / 2 ^ 24 ≠ 0 then none
       else if w.toNat % 2 ^ 4 = 2 then
         some (.qround (Fin.ofNat 16 (w.toNat / 2 ^ 8)) (Fin.ofNat 16 (w.toNat / 2 ^ 12))
           (Fin.ofNat 16 (w.toNat / 2 ^ 16)) (Fin.ofNat 16 (w.toNat / 2 ^ 20)))
       else if w.toNat / 2 ^ 8 % 2 ^ 16 ≠ 0 then none
       else if w.toNat % 2 ^ 4 = 1 then some .build
       else if w.toNat % 2 ^ 4 = 3 then some .dround
       else if w.toNat % 2 ^ 4 = 4 then some .block
       else if w.toNat % 2 ^ 4 = 5 then some .process
       else none) ∧
    ((decode w).toOption = some .build ↔ w &&& 0xFFFFFFFF = 0x00000001) ∧
    ((∃ a b c d, (decode w).toOption = some (.qround a b c d)) ↔ w &&& 0xFF0000FF = 0x00000002) ∧
    ((decode w).toOption = some .dround ↔ w &&& 0xFFFFFFFF = 0x00000003) ∧
    ((decode w).toOption = some .block ↔ w &&& 0xFFFFFFFF = 0x00000004) ∧
    ((decode w).toOption = some .process ↔ w &&& 0xFFFFFFFF = 0x00000005) ∧
    ([((0x00000001 : Word), (0xFFFFFFFF : Word)), (0x00000002, 0xFF0000FF), (0x00000003, 0xFFFFFFFF),
      (0x00000004, 0xFFFFFFFF), (0x00000005, 0xFFFFFFFF)].countP (fun r => w &&& r.2 == r.1)
      = if (decode w).toOption.isSome then 1 else 0)

/-- Decode and encode agree, in both directions and through the CMD register's bytes: no bit of an encoding is
dropped, and each legal word has one meaning. -/
def Obligations.DecodeAndEncodeAgree : Prop :=
  (∀ i : Instr, i.wellFormed = true → decode (encode i) = .ok i ∧ decodeBytes (bytesLe (encode i)) = .ok i) ∧
  (∀ (w : Word) (i : Instr), decode w = .ok i → encode i = w)

/-- Words written out from R301 and R306's worked encodings, and the illegal neighbours of R305. -/
def Obligations.WrittenWordsDecode : Prop :=
  decode 0b00000000000000000000000000000001 = .ok .build ∧
  decode 0b00000000001100100001000000000010 = .ok (.qround 0 1 2 3) ∧
  decode 0b00000000110110000111001000000010 = .ok (.qround 2 7 8 13) ∧
  decode 0b00000000111010010100001100000010 = .ok (.qround 3 4 9 14) ∧
  decode 0b00000000000000000000000000000011 = .ok .dround ∧
  decode 0b00000000000000000000000000000100 = .ok .block ∧
  decode 0b00000000000000000000000000000101 = .ok .process ∧
  decode 0b00000000000000000000000000000000 = .error .reservedOpcode ∧
  decode 0b00000000000000000000000000000110 = .error .reservedOpcode ∧
  decode 0b00000000000000000000000000010001 = .error .reservedBits ∧
  decode 0b10000000000000000000000000000010 = .error .reservedBits ∧
  decode 0b00000000000000000000000100000001 = .error .unusedOperand

/-- R306: an assembler command with operands 0 to 15 assembles to the word of the syntax table, which decodes to the
command with those operands; an operand above 15 does not assemble. -/
def Obligations.AssemblerWordsDecode : Prop :=
  (assemble .build).map decode = some (.ok .build) ∧
  (assemble .dround).map decode = some (.ok .dround) ∧
  (assemble .block).map decode = some (.ok .block) ∧
  (assemble .process).map decode = some (.ok .process) ∧
  ∀ a b c d : Nat,
    (∀ (ha : a < 16) (hb : b < 16) (hc : c < 16) (hd : d < 16),
      ∃ w : Word, assemble (.qround a b c d) = some w ∧
        w.toNat = 2 + a * 2 ^ 8 + b * 2 ^ 12 + c * 2 ^ 16 + d * 2 ^ 20 ∧
        decode w = .ok (.qround ⟨a, ha⟩ ⟨b, hb⟩ ⟨c, hc⟩ ⟨d, hd⟩)) ∧
    (16 ≤ a ∨ 16 ≤ b ∨ 16 ≤ c ∨ 16 ≤ d → assemble (.qround a b c d) = none)

/-- R305: which words are illegal, and what such a word does. A write of it to CMD while idle is accepted like any
other; the engine's next step completes it with IllegalCommand, whatever the lengths hold (R604), and nothing but
CMD and STATUS changes: no register, no byte of memory, no memory event. -/
def Obligations.IllegalCommandHasNoOtherEffect : Prop :=
  ∀ w : Word,
    ((∀ i, decode w ≠ .ok i) ↔
      (w.extractLsb' 0 4 = (0 : BitVec 4) ∨ 6 ≤ (w.extractLsb' 0 4).toNat ∨ w.extractLsb' 4 4 ≠ (0 : BitVec 4) ∨
       w.extractLsb' 24 8 ≠ (0 : BitVec 8) ∨
       (w.extractLsb' 0 4 ≠ (2 : BitVec 4) ∧ w.extractLsb' 8 16 ≠ (0 : BitVec 16)))) ∧
    ((∀ i, decode w ≠ .ok i) → ∀ s : State, s.busy = false →
      writeReg .cmd w s = accept w s ∧
      ∃ t, engineStep (accept w s) = .next t ∧ CompletedWith (some .illegalCommand) t ∧
        statusWord t = (if s.ovr then 0x0000003E else 0x00000036) ∧
        t.cmd = w ∧ t.ovr = s.ovr ∧ t.doneie = s.doneie ∧ SameOperands s t ∧ t.cipher = s.cipher ∧ t.ks = s.ks ∧
        t.history = [] ∧ (∀ a : Word, t.byteAt a = s.byteAt a) ∧ t.platform = s.platform)

/-! ## State builder and BUILD -/

/-- R401, R402: the sixteen words of the built state: the four constants, the key, the counter, the nonce. -/
def Obligations.BuildStateLaysOutSixteenWords : Prop :=
  ∀ (K : Vector Byte 32) (ctr : Word) (N : Vector Byte 12),
    (buildState K ctr N).toList =
      [0x61707865, 0x3320646e, 0x79622d32, 0x6b206574,
       le32 K[0] K[1] K[2] K[3], le32 K[4] K[5] K[6] K[7], le32 K[8] K[9] K[10] K[11],
       le32 K[12] K[13] K[14] K[15], le32 K[16] K[17] K[18] K[19], le32 K[20] K[21] K[22] K[23],
       le32 K[24] K[25] K[26] K[27], le32 K[28] K[29] K[30] K[31],
       ctr, le32 N[0] N[1] N[2] N[3], le32 N[4] N[5] N[6] N[7], le32 N[8] N[9] N[10] N[11]]

/-- R403, R405: key and nonce bytes are little-endian in their words, and in register terms word 4 + k is KEYk and
word 13 + k is NONCEk exactly. -/
def Obligations.KeyAndNonceAreLittleEndian : Prop :=
  (∀ (K : Vector Byte 32) (ctr : Word) (N : Vector Byte 12) (b : Fin 4),
    (∀ k : Fin 8, byteOf ((buildState K ctr N).get ⟨4 + k.val, by omega⟩) b.val = K[4 * k.val + b.val]) ∧
    (∀ k : Fin 3, byteOf ((buildState K ctr N).get ⟨13 + k.val, by omega⟩) b.val = N[4 * k.val + b.val])) ∧
  (∀ (s : State) (ctr : Word),
    (∀ k : Fin 8, (regsState s ctr).get ⟨4 + k.val, by omega⟩ = s.key[k]) ∧
    (∀ k : Fin 3, (regsState s ctr).get ⟨13 + k.val, by omega⟩ = s.nonce[k]))

/-- R404: word 12 is the block counter unchanged: CTR for BUILD and for BLOCK's retained copy, and (CTR + j) mod 2^32
for block j of PROCESS. R404 is about the built state; that the copy o still holds it after BLOCK completed, and that it
holds it in the step of a block's first read, are the model's choice and inference (log entries 13 and 12). -/
def Obligations.WordTwelveIsTheCounter : Prop :=
  (∀ (K : Vector Byte 32) (ctr : Word) (N : Vector Byte 12), (buildState K ctr N).get 12 = ctr) ∧
  ∀ s : State, validate s = none →
    (∃ t, exec .build s = .next t ∧ t.cipher.get 12 = s.ctr) ∧
    (∃ t, exec .block s = .next t ∧ t.engine.o.get 12 = s.ctr) ∧
    (∀ j : Nat, pendingProcessEvent s = .read j 0 → memAdmit s.platform .read (byteAddr s.src j 0) = true →
      ∃ t, exec .process s = .next t ∧ (t.engine.o.get 12).toNat = (s.ctr.toNat + j) % 2 ^ 32)

/-- R410: BUILD. With legal lengths it completes and STATE holds the built words of the registers; with a wrong length
it completes with the error's code and STATE unchanged. KS, the operand registers and memory are untouched. -/
def Obligations.BuildWritesTheState : Prop :=
  (∀ w : Word, decode w = .ok .build ↔ w = 0x00000001) ∧
  ∀ s : State, ∃ t, exec .build s = .next t ∧
    CommandFrame s t ∧ NoMemoryAccess s t ∧ t.ks = s.ks ∧
    (s.keylen = 32 ∧ s.noncelen = 12 →
      CompletedWith none t ∧
      t.cipher = (#v[(0x61707865 : Word), 0x3320646e, 0x79622d32, 0x6b206574,
        s.key[0], s.key[1], s.key[2], s.key[3], s.key[4], s.key[5], s.key[6], s.key[7],
        s.ctr, s.nonce[0], s.nonce[1], s.nonce[2]] : CipherState)) ∧
    (s.keylen ≠ 32 → CompletedWith (some .invalidKeyLength) t ∧ t.cipher = s.cipher) ∧
    (s.keylen = 32 ∧ s.noncelen ≠ 12 → CompletedWith (some .invalidNonceLength) t ∧ t.cipher = s.cipher)

/-- R400, R407: the length check of BUILD, BLOCK and PROCESS: the key first, and a command that raises writes no STATE,
no KS and no memory. That PROCESS checks in every step, so also at a position past its start, is the model's inference
(log entry 10). -/
def Obligations.WrongLengthsRaiseBeforeAnyWork : Prop :=
  ∀ i : Instr, i = .build ∨ i = .block ∨ i = .process → ∀ s : State, s.keylen ≠ 32 ∨ s.noncelen ≠ 12 →
    ∃ t, exec i s = .next t ∧ CommandFrame s t ∧ NoMemoryAccess s t ∧ t.cipher = s.cipher ∧ t.ks = s.ks ∧
      CompletedWith (some (if s.keylen ≠ 32 then .invalidKeyLength else .invalidNonceLength)) t

/-! ## Quarter-round and QROUND -/

/-- R450 on distinct indices, with Lean's own rotation: the four new words as the arithmetic gives them. -/
def Obligations.QuarterRoundOnDistinctIndices : Prop :=
  ∀ (s : CipherState) (a b c d : Fin 16), a ≠ b → a ≠ c → a ≠ d → b ≠ c → b ≠ d → c ≠ d →
    let a1 := s.get a + s.get b
    let d1 := (s.get d ^^^ a1).rotateLeft 16
    let c1 := s.get c + d1
    let b1 := (s.get b ^^^ c1).rotateLeft 12
    let a2 := a1 + b1
    let d2 := (d1 ^^^ a2).rotateLeft 8
    let c2 := c1 + d2
    let b2 := (b1 ^^^ c2).rotateLeft 7
    let t := quarterRound s a b c d
    t.get a = a2 ∧ t.get b = b2 ∧ t.get c = c2 ∧ t.get d = d2

/-- R451: "Words other than s[a], s[b], s[c] and s[d] are not read and not written", for every choice of indices. -/
def Obligations.QuarterRoundTouchesOnlyItsWords : Prop :=
  ∀ (a b c d : Fin 16) (s s' : CipherState),
    (∀ i, i ≠ a → i ≠ b → i ≠ c → i ≠ d → (quarterRound s a b c d).get i = s.get i) ∧
    ((∀ i, i = a ∨ i = b ∨ i = c ∨ i = d → s.get i = s'.get i) →
      ∀ i, i = a ∨ i = b ∨ i = c ∨ i = d → (quarterRound s a b c d).get i = (quarterRound s' a b c d).get i)

/-- R450, R451, R452: the eight statements in order, on a map from indices to words, for every four indices, equal ones
too: equal indices name one word, which each statement reads and overwrites. So with all four equal the word ends at
0 whatever it held; with a = b, and c and d apart from it, the first statement doubles the word. -/
def Obligations.EqualIndicesNameOneWord : Prop :=
  (∀ (s : CipherState) (a b c d : Fin 16),
    let add := fun (f : Fin 16 → Word) (x y : Fin 16) => Function.update f x (f x + f y)
    let mix := fun (f : Fin 16 → Word) (x y : Fin 16) (n : Nat) =>
      Function.update f x ((f x ^^^ f y).rotateLeft n)
    let f0 : Fin 16 → Word := fun i => s.get i
    let f1 := mix (add f0 a b) d a 16
    let f2 := mix (add f1 c d) b c 12
    let f3 := mix (add f2 a b) d a 8
    let f4 := mix (add f3 c d) b c 7
    ∀ i, (quarterRound s a b c d).get i = f4 i) ∧
  (∀ (s : CipherState) (a i : Fin 16),
    (quarterRound s a a a a).get i = if i = a then 0 else s.get i) ∧
  (∀ (s : CipherState) (a c d : Fin 16), a ≠ c → a ≠ d → c ≠ d →
    let a1 := s.get a + s.get a
    let d1 := (s.get d ^^^ a1).rotateLeft 16
    let c1 := s.get c + d1
    let a2 := (a1 ^^^ c1).rotateLeft 12
    let a3 := a2 + a2
    let d2 := (d1 ^^^ a3).rotateLeft 8
    let c2 := c1 + d2
    let t := quarterRound s a a c d
    t.get a = (a3 ^^^ c2).rotateLeft 7 ∧ t.get c = c2 ∧ t.get d = d2)

/-- R503: quarter-rounds on disjoint index sets commute, so the order inside a round does not change the result; the
order of the column round and the diagonal round does. -/
def Obligations.OrderInsideARoundDoesNotMatter : Prop :=
  (∀ (s : CipherState) (a b c d a' b' c' d' : Fin 16),
    (∀ x ∈ [a, b, c, d], ∀ y ∈ [a', b', c', d'], x ≠ y) →
    quarterRound (quarterRound s a b c d) a' b' c' d' = quarterRound (quarterRound s a' b' c' d') a b c d) ∧
  (∀ x ∈ [[(0 : Fin 16), 4, 8, 12], [1, 5, 9, 13], [2, 6, 10, 14], [3, 7, 11, 15]],
    ∀ y ∈ [[(0 : Fin 16), 4, 8, 12], [1, 5, 9, 13], [2, 6, 10, 14], [3, 7, 11, 15]],
      x ≠ y → ∀ i ∈ x, i ∉ y) ∧
  (∀ x ∈ [[(0 : Fin 16), 5, 10, 15], [1, 6, 11, 12], [2, 7, 8, 13], [3, 4, 9, 14]],
    ∀ y ∈ [[(0 : Fin 16), 5, 10, 15], [1, 6, 11, 12], [2, 7, 8, 13], [3, 4, 9, 14]],
      x ≠ y → ∀ i ∈ x, i ∉ y) ∧
  (∀ l : List (Fin 16 × Fin 16 × Fin 16 × Fin 16),
    l.Perm [(0, 4, 8, 12), (1, 5, 9, 13), (2, 6, 10, 14), (3, 7, 11, 15)] →
    ∀ s : CipherState, l.foldl (fun s q => quarterRound s q.1 q.2.1 q.2.2.1 q.2.2.2) s = columnRound s) ∧
  (∀ l : List (Fin 16 × Fin 16 × Fin 16 × Fin 16),
    l.Perm [(0, 5, 10, 15), (1, 6, 11, 12), (2, 7, 8, 13), (3, 4, 9, 14)] →
    ∀ s : CipherState, l.foldl (fun s q => quarterRound s q.1 q.2.1 q.2.2.1 q.2.2.2) s = diagonalRound s) ∧
  (∃ s : CipherState, columnRound (diagonalRound s) ≠ diagonalRound (columnRound s))

/-- Without feed-forward the mixing loses nothing: a quarter-round on distinct indices, a double round and the whole
permutation are bijections of the cipher state. This is why step 3 of the block function is there (R19, R507). -/
def Obligations.PermutationIsBijective : Prop :=
  (∀ a b c d : Fin 16, a ≠ b → a ≠ c → a ≠ d → b ≠ c → b ≠ d → c ≠ d →
    Function.Bijective fun s : CipherState => quarterRound s a b c d) ∧
  Function.Bijective doubleRound ∧ Function.Bijective permute

/-- R453: QROUND. It completes for every four indices and whatever the lengths hold; STATE is the quarter-round of
STATE, the words its indices do not name keep their value, an all-zero STATE stays so, and nothing else changes. -/
def Obligations.QroundMixesTheState : Prop :=
  (∀ w : Word, w &&& 0xFF0000FF = 0x00000002 ↔
    decode w = .ok (.qround (w.extractLsb' 8 4).toFin (w.extractLsb' 12 4).toFin
      (w.extractLsb' 16 4).toFin (w.extractLsb' 20 4).toFin)) ∧
  ∀ (a b c d : Fin 16) (s : State), ∃ t, exec (.qround a b c d) s = .next t ∧
    CompletedWith none t ∧ CommandFrame s t ∧ NoMemoryAccess s t ∧ t.ks = s.ks ∧
    t.cipher = quarterRound s.cipher a b c d ∧
    (∀ i, i ∉ [a, b, c, d] → t.cipher.get i = s.cipher.get i) ∧
    (s.cipher = Vector.replicate 16 0 → t.cipher = Vector.replicate 16 0)

/-! ## Rounds, block function, DROUND and BLOCK -/

/-- R504: DROUND. It completes always; STATE is the double round of STATE, column round first, with no feed-forward;
an all-zero STATE stays so, and nothing else changes. -/
def Obligations.DroundMixesTheState : Prop :=
  (∀ w : Word, decode w = .ok .dround ↔ w = 0x00000003) ∧
  ∀ s : State, ∃ t, exec .dround s = .next t ∧
    CompletedWith none t ∧ CommandFrame s t ∧ NoMemoryAccess s t ∧ t.ks = s.ks ∧
    t.cipher = diagonalRound (columnRound s.cipher) ∧
    (s.cipher = Vector.replicate 16 0 → t.cipher = Vector.replicate 16 0)

/-- The eight index quadruples of a double round, columns then diagonals (R500, R501, R502). -/
def doubleRoundIndices : List (Fin 16 × Fin 16 × Fin 16 × Fin 16) :=
  [(0, 4, 8, 12), (1, 5, 9, 13), (2, 6, 10, 14), (3, 7, 11, 15),
   (0, 5, 10, 15), (1, 6, 11, 12), (2, 7, 8, 13), (3, 4, 9, 14)]

/-- R505, R506: the block function, byte by byte: 80 quarter-round applications to the built state, 10 times the eight
of a double round, then word by word the built state added modulo 2^32, then the words little-endian in order. -/
def Obligations.BlockFunctionIsEightyQuarterRounds : Prop :=
  ((List.replicate 10 doubleRoundIndices).flatten.length = 80) ∧
  ∀ (K : Vector Byte 32) (ctr : Word) (N : Vector Byte 12),
    let o := buildState K ctr N
    let w := (List.replicate 10 doubleRoundIndices).flatten.foldl
      (fun s q => quarterRound s q.1 q.2.1 q.2.2.1 q.2.2.2) o
    permute o = w ∧
    ∀ (i : Fin 16) (b : Fin 4),
      (chachaBlock K ctr N)[4 * i.val + b.val] = (w.get i + o.get i).extractLsb' (8 * b.val) 8

/-- R508: keystream byte 4i + b is byte b of word i, and the 64 bytes give the 16 words back. -/
def Obligations.SerialisationIsLittleEndianInWordOrder : Prop :=
  (∀ (x : CipherState) (i : Fin 16) (b : Fin 4),
    (serialize x)[4 * i.val + b.val] = (x.get i).extractLsb' (8 * b.val) 8) ∧
  (∀ (x : CipherState) (i : Fin 16),
    le32 (serialize x)[4 * i.val] (serialize x)[4 * i.val + 1] (serialize x)[4 * i.val + 2]
      (serialize x)[4 * i.val + 3] = x.get i)

/-- R510: BLOCK. With legal lengths it completes and KS holds, word by word, the permuted state plus the built state
modulo 2^32, so that serialising KS gives `chacha_block(K, CTR, N)`; with a wrong length KS is unchanged. STATE, CTR
and memory are untouched, and KS reads 0 from the acceptance on. -/
def Obligations.BlockWritesTheKeystream : Prop :=
  (∀ w : Word, decode w = .ok .block ↔ w = 0x00000004) ∧
  ∀ s : State, ∃ t, exec .block s = .next t ∧
    CommandFrame s t ∧ NoMemoryAccess s t ∧ t.cipher = s.cipher ∧
    (∀ i, readReg (accept 0x00000004 s) (.ks i) = 0) ∧
    (s.keylen = 32 ∧ s.noncelen = 12 →
      CompletedWith none t ∧
      (∀ i : Fin 16, (t.ks.get i).toNat =
        (((doubleRounds 10 (regsState s s.ctr)).get i).toNat + ((regsState s s.ctr).get i).toNat) % 2 ^ 32) ∧
      serialize t.ks = chachaBlock (keyBytes s) s.ctr (nonceBytes s)) ∧
    (s.keylen ≠ 32 → CompletedWith (some .invalidKeyLength) t ∧ t.ks = s.ks) ∧
    (s.keylen = 32 ∧ s.noncelen ≠ 12 → CompletedWith (some .invalidNonceLength) t ∧ t.ks = s.ks)

/-- R509: two BLOCK commands with identical key, counter and nonce leave the same keystream, whatever else the two
machines hold. -/
def Obligations.EqualOperandsGiveEqualKeystream : Prop :=
  ∀ s s' t t' : State, validate s = none → validate s' = none →
    s'.key = s.key → s'.ctr = s.ctr → s'.nonce = s.nonce →
    exec .block s = .next t → exec .block s' = .next t' →
    t'.ks = t.ks ∧ ∀ n : Fin 64, (serialize t'.ks)[n] = (serialize t.ks)[n]

/-! ## The register window -/

/-- R100, R114: the offsets of the layout table; every register sits at its own 4-byte-aligned offset of the 256-byte
window, and the offsets with no register are exactly the two reserved ranges. -/
def Obligations.WindowLayout : Prop :=
  (regAt 0x000 = some .cmd ∧ regAt 0x004 = some .status ∧ regAt 0x008 = some .inten ∧ regAt 0x00C = some .ctr ∧
   regAt 0x010 = some .keylen ∧ regAt 0x014 = some .noncelen ∧ regAt 0x018 = some .src ∧ regAt 0x01C = some .dst ∧
   regAt 0x020 = some .len ∧ (∀ k : Fin 8, regAt (0x040 + 4 * k.val) = some (.key k)) ∧
   (∀ k : Fin 3, regAt (0x060 + 4 * k.val) = some (.nonce k)) ∧
   (∀ i : Fin 16, regAt (0x080 + 4 * i.val) = some (.state i) ∧ regAt (0x0C0 + 4 * i.val) = some (.ks i))) ∧
  (∀ r : Reg, regAt r.offset = some r ∧ r.offset % 4 = 0 ∧ r.offset < 0x100) ∧
  (∀ r r' : Reg, r.offset = r'.offset → r = r') ∧
  (∀ off : Nat, off % 4 = 0 → off < 0x100 →
    (regAt off = none ↔ (0x024 ≤ off ∧ off ≤ 0x03C) ∨ (0x06C ≤ off ∧ off ≤ 0x07C)) ∧
    ∀ r, regAt off = some r → r.offset = off)

/-- R115: the busy lock, for every register and every value. A busy-locked write while BUSY changes OVR alone; while idle
the register takes the value, and a CMD write accepts a command. Any write while idle but one of CMD or STATUS
changes the register it names and nothing else. -/
def Obligations.BusyLock : Prop :=
  ∀ (r : Reg) (v : Word) (s : State),
    (r.busyLocked = true ↔
      r = .cmd ∨ r = .ctr ∨ r = .keylen ∨ r = .noncelen ∨ r = .src ∨ r = .dst ∨ r = .len ∨
      (∃ k, r = .key k) ∨ (∃ k, r = .nonce k) ∨ (∃ i, r = .state i)) ∧
    (r.busyLocked = true → s.busy = true → writeReg r v s = { s with ovr := true }) ∧
    (r.busyLocked = true → s.busy = false → r ≠ .cmd →
      (∀ k, r ≠ .key k) → readReg (writeReg r v s) r = v) ∧
    (∀ k, r = .key k → s.busy = false → (writeReg r v s).key[k] = v) ∧
    (r = .cmd → s.busy = false → writeReg r v s = accept v s ∧ readReg (writeReg r v s) .cmd = v) ∧
    (s.busy = false → r ≠ .cmd → r ≠ .status →
      (∀ r', r' ≠ r → readReg (writeReg r v s) r' = readReg s r') ∧
      (∀ k, r ≠ .key k → (writeReg r v s).key[k] = s.key[k]) ∧
      (writeReg r v s).engine = s.engine ∧ (writeReg r v s).mem = s.mem ∧ (writeReg r v s).history = s.history)

/-- R115, R117: no step of the whole machine changes an operand register but a host write made while idle, or
reset. So a command's operands cannot change between its acceptance and its completion. And who may change the
rest (R101, R102, R104, R615): STATE, reset, a host write of a STATE register while idle, or the completion without
error of a BUILD, QROUND or DROUND; KS, reset, or the completion without error of a BLOCK or PROCESS; ERRCODE, reset,
the acceptance of a command, which clears it, or a completion. -/
def Obligations.OperandsChangeOnlyByIdleHostWrite : Prop :=
  ∀ s t : State, step s = .next t →
    let isReset := ∃ met rest, s.inputs = .reset met :: rest
    let completes := (s.inputs = [] ∨ ∃ rest, s.inputs = .core .engine :: rest) ∧ s.busy = true ∧ t.busy = false
    (SameOperands s t ∨ isReset ∨
      (s.busy = false ∧ ∃ a v rest, s.inputs = .core (.write a v) :: rest)) ∧
    (t.cipher = s.cipher ∨ isReset ∨
      (s.busy = false ∧ ∃ a v rest i, s.inputs = .core (.write a v) :: rest ∧
        regAt (a.addr - s.platform.base) = some (.state i)) ∨
      (completes ∧ t.errcode = none ∧ ∃ i, decode s.engine.cur = .ok i ∧
        (i = .build ∨ (∃ a b c d, i = .qround a b c d) ∨ i = .dround))) ∧
    (t.ks = s.ks ∨ isReset ∨
      (completes ∧ t.errcode = none ∧ (decode s.engine.cur = .ok .block ∨ decode s.engine.cur = .ok .process))) ∧
    (t.errcode = s.errcode ∨ isReset ∨
      (s.busy = false ∧ t.errcode = none ∧ ∃ a v rest, s.inputs = .core (.write a v) :: rest ∧
        regAt (a.addr - s.platform.base) = some .cmd) ∨
      (completes ∧ t.done = true))

/-- R103, R216: a command word reaches the engine only by a CMD write while idle. CMD changes, and BUSY rises, in no
other step of the whole machine but reset. -/
def Obligations.CommandsArriveOnlyByCmdWrite : Prop :=
  ∀ s t : State, step s = .next t → (t.cmd ≠ s.cmd ∨ (s.busy = false ∧ t.busy = true)) →
    (∃ met rest, s.inputs = .reset met :: rest) ∨
    (s.busy = false ∧ ∃ a v rest, s.inputs = .core (.write a v) :: rest ∧ a.wellFormed s.platform = true ∧
      regAt (a.addr - s.platform.base) = some .cmd ∧ t = accept v { s with inputs := rest })

/-- R104: STATUS. The fields as the host reads them, and a host write of it, busy or not: bit 1 clears DONE, bit 3 clears
OVR, every other bit is ignored, and no other register changes. -/
def Obligations.StatusFieldsAndWrites : Prop :=
  ∀ s : State,
    ((statusWord s).getLsbD 0 = s.busy ∧ (statusWord s).getLsbD 1 = s.done ∧
     (statusWord s).getLsbD 2 = ((statusWord s).extractLsb' 4 4 != (0 : BitVec 4)) ∧
     (statusWord s).getLsbD 3 = s.ovr ∧
     (statusWord s).extractLsb' 4 4 = (match s.errcode with
       | none => (0 : BitVec 4)
       | some .invalidKeyLength => 1
       | some .invalidNonceLength => 2
       | some .illegalCommand => 3) ∧
     (statusWord s).extractLsb' 8 24 = (0 : BitVec 24)) ∧
    (∀ v : Word,
      statusWord (writeReg .status v s) =
        statusWord s &&& ~~~((if v.getLsbD 1 then 0x2 else 0) ||| (if v.getLsbD 3 then 0x8 else 0)) ∧
      (∀ r, r ≠ .status → readReg (writeReg .status v s) r = readReg s r) ∧
      (writeReg .status v s).key = s.key ∧ (writeReg .status v s).cipher = s.cipher ∧
      (writeReg .status v s).ks = s.ks ∧ (writeReg .status v s).engine = s.engine ∧
      (writeReg .status v s).mem = s.mem ∧ (writeReg .status v s).history = s.history)

/-- R104: OVR rises only where a busy-locked write is dropped, and falls only by a host write of STATUS with bit 3 = 1
or by reset, over every step of the whole machine. -/
def Obligations.OvrRisesAndFallsOnlyAsStated : Prop :=
  ∀ s t : State, step s = .next t →
    (s.ovr = false → t.ovr = true →
      s.busy = true ∧ ∃ a v rest r, s.inputs = .core (.write a v) :: rest ∧
        regAt (a.addr - s.platform.base) = some r ∧ r.busyLocked = true) ∧
    (s.ovr = true → t.ovr = false →
      (∃ met rest, s.inputs = .reset met :: rest) ∨
      ∃ a v rest, s.inputs = .core (.write a v) :: rest ∧
        regAt (a.addr - s.platform.base) = some .status ∧ v.getLsbD 3 = true)

/-- R104: DONE rises only where a command completes, and falls only at the next acceptance, by a host write of STATUS
with bit 1 = 1, or by reset, over every step of the whole machine. -/
def Obligations.DoneRisesAndFallsOnlyAsStated : Prop :=
  ∀ s t : State, step s = .next t →
    (s.done = false → t.done = true → s.busy = true ∧ t.busy = false) ∧
    (s.done = true → t.done = false →
      (∃ met rest, s.inputs = .reset met :: rest) ∨
      ∃ a v rest, s.inputs = .core (.write a v) :: rest ∧
        ((regAt (a.addr - s.platform.base) = some .status ∧ v.getLsbD 1 = true) ∨
         (regAt (a.addr - s.platform.base) = some .cmd ∧ s.busy = false ∧ t.busy = true)))

/-- R105, R613: INTEN holds DONEIE alone, and irq is DONE and DONEIE: it rises at every completion while enabled,
failed ones included, and falls by a host write of STATUS with bit 1 = 1, by acceptance, and by reset. A host write of
INTEN takes effect while BUSY too and changes nothing but DONEIE. -/
def Obligations.InterruptIsDoneAndEnabled : Prop :=
  ∀ s : State,
    (irq s = ((statusWord s).getLsbD 1 && (intenWord s).getLsbD 0)) ∧
    (∀ v : Word, readReg (writeReg .inten v s) .inten = v &&& 1 ∧
      writeReg .inten v s = { s with doneie := v.getLsbD 0 }) ∧
    (∀ code, irq (complete code s) = s.doneie) ∧
    (∀ v : Word, v.getLsbD 1 = true → irq (writeReg .status v s) = false) ∧
    (∀ w, irq (accept w s) = false) ∧ irq (resetCore s) = false

/-- R101, R102, R112, R114: STATE and KS read 0 while BUSY, KEY reads 0 at any time, a reserved offset reads 0, and
writes to KS and to reserved offsets are ignored and never set OVR. -/
def Obligations.ReadsThatDiscloseNothing : Prop :=
  ∀ s : State,
    (s.busy = true → ∀ i, readReg s (.state i) = 0 ∧ readReg s (.ks i) = 0) ∧
    (s.busy = false → ∀ i, readReg s (.state i) = s.cipher.get i ∧ readReg s (.ks i) = s.ks.get i) ∧
    (∀ k, readReg s (.key k) = 0) ∧
    (∀ off, (0x024 ≤ off ∧ off ≤ 0x03C) ∨ (0x06C ≤ off ∧ off ≤ 0x07C) →
      readOffset s off = 0 ∧ ∀ v, writeOffset off v s = s) ∧
    (∀ i v, writeReg (.ks i) v s = s)

/-- R112, R715: what a host reads does not depend on the key: two machines that differ in the key alone answer every
read of the window alike. -/
def Obligations.ReadsDoNotDependOnTheKey : Prop :=
  ∀ (s : State) (key : Vector Word 8) (a : Access),
    match hostRead a s, hostRead a { s with key := key } with
    | .next t, .next t' => t'.lastRead = t.lastRead
    | .refused r, .refused r' => r = r'
    | _, _ => False

/-- R201: a host access runs exactly when it is 32 bits wide, aligned and in the window, and its master is let in;
every other access is refused under its own name, and no step is taken. R620 leaves the master to the platform: that a
master kept out is refused, reads and writes alike, under a name of its own is the model's choice (log entry 11), and
so is that addresses and masters are unbounded numbers (log entry 21). -/
def Obligations.OnlyInterfaceAccessesRun : Prop :=
  ∀ (a : Access) (v : Word) (s : State),
    (a.wellFormed s.platform = true ↔
      a.width = 4 ∧ (∃ off, off % 4 = 0 ∧ off ≤ 0x0FC ∧ a.addr = 256 * s.platform.basePage + off) ∧
      a.master ∉ s.platform.deniedMasters) ∧
    (a.wellFormed s.platform = true →
      hostRead a s = .next { s with lastRead := some (readOffset s (a.addr - s.platform.base)) } ∧
      hostWrite a v s = .next (writeOffset (a.addr - s.platform.base) v s)) ∧
    (a.wellFormed s.platform = false →
      ∃ r, hostRead a s = .refused r ∧ hostWrite a v s = .refused r ∧
        r ∈ [Refusal.windowAccessDenied, .accessWidth, .accessMisaligned, .outsideWindow])

/-- No step stops but a host access outside the interface: every command, every input and every state goes on. Model's
choices in it: a PROCESS whose access MEM_ADMIT refuses has no further step by R205, and here a turn that changes
nothing (log entry 4); a master kept out is refused (log entry 11), its polls by wait too (log entry 18). -/
def Obligations.OnlyForeignAccessesStop : Prop :=
  ∀ s : State,
    (∀ i, ∃ t, exec i s = .next t) ∧
    (∀ f, step s ≠ .fault f) ∧
    (∀ r, step s = .refused r →
      (∃ a rest, s.inputs = .core (.read a) :: rest ∧ a.wellFormed s.platform = false) ∨
      (∃ a v rest, s.inputs = .core (.write a v) :: rest ∧ a.wellFormed s.platform = false) ∨
      (∃ m rest, s.inputs = .wait m :: rest ∧ m ∈ s.platform.deniedMasters))

/-- R203: a register read changes nothing but the value the host gets; writing a register twice is writing it once,
except at CMD, where each write while idle issues a command. -/
def Obligations.ReadsAndRepeatedWritesAreIdempotent : Prop :=
  (∀ (a : Access) (s t : State), hostRead a s = .next t →
    { t with lastRead := s.lastRead } = s ∧ hostRead a t = .next t) ∧
  (∀ (r : Reg) (v : Word) (s : State), r ≠ .cmd → writeReg r v (writeReg r v s) = writeReg r v s) ∧
  (∀ (v : Word) (s : State), s.busy = false → (writeReg .cmd v s).busy = true ∧ (writeReg .cmd v s).done = false)

/-! ## Command lifecycle -/

/-- R610: a host write of any word to CMD while idle is one step that accepts it: CMD takes the word, BUSY rises, DONE
and ERRCODE fall, and OVR, INTEN, the operands, STATE, KS and memory are as they were. While BUSY the write is not
accepted: it sets OVR and changes nothing else. -/
def Obligations.CmdWriteWhileIdleIsAcceptance : Prop :=
  ∀ (m : Nat) (w : Word) (s : State) (rest : List Input), m ∉ s.platform.deniedMasters →
    s.inputs = .core (.write (Reg.cmd.access s.platform m) w) :: rest →
    (s.busy = false →
      ∃ t, step s = .next t ∧ t.inputs = rest ∧
        t.cmd = w ∧ t.busy = true ∧ t.done = false ∧ t.errcode = none ∧
        t.engine.phase = .busy ∧ t.engine.cur = w ∧
        t.engine.j = 0 ∧ t.engine.i = 0 ∧ t.engine.sub = .read ∧ t.history = [] ∧
        t.ovr = s.ovr ∧ t.doneie = s.doneie ∧ SameOperands s t ∧ t.cipher = s.cipher ∧ t.ks = s.ks ∧
        (∀ a : Word, t.byteAt a = s.byteAt a) ∧ t.platform = s.platform) ∧
    (s.busy = true → step s = .next { s with inputs := rest, ovr := true })

/-- A step runs the decoded command: when it is the engine's turn, no input pending or the engine's turn the first of
them, and the accepted word decodes to i, the step is exec of i at that state, the turn taken off the pending inputs;
a word that decodes to none raises IllegalCommand; an idle engine waits. Model's choices in it: that waiting is a step
that changes nothing (log entry 4); that withFetchWord stands for the CMD write, on a BUSY state too, where R610
accepts nothing (log entry 5). -/
def Obligations.StepRunsTheDecodedCommand : Prop :=
  ∀ s : State,
    (∀ i, s.inputs = [] → s.busy = true → decode s.engine.cur = .ok i → step s = exec i s) ∧
    (∀ i rest, s.inputs = .core .engine :: rest → s.busy = true → decode s.engine.cur = .ok i →
      step s = exec i { s with inputs := rest }) ∧
    (∀ e, s.inputs = [] → s.busy = true → decode s.engine.cur = .error e →
      step s = .next (raiseError .illegalCommand s)) ∧
    (∀ e rest, s.inputs = .core .engine :: rest → s.busy = true → decode s.engine.cur = .error e →
      step s = .next (raiseError .illegalCommand { s with inputs := rest })) ∧
    (s.inputs = [] → s.busy = false → step s = .next s) ∧
    (∀ rest, s.inputs = .core .engine :: rest → s.busy = false → step s = .next { s with inputs := rest }) ∧
    (∀ i, step (s.withFetchWord 32 (encode i).toNat) = exec i (accept (encode i) s))

/-- R611, R612: every command without memory events consists of an acceptance and a completion: one engine step
after it was accepted the engine is idle with DONE = 1. That is every word but PROCESS with legal lengths and a
nonempty input. -/
def Obligations.CommandsWithoutMemoryEventsTakeOneStep : Prop :=
  ∀ (w : Word) (s : State), s.inputs = [] →
    (decode w = .ok .process → s.len = 0 ∨ s.keylen ≠ 32 ∨ s.noncelen ≠ 12) →
    ∃ t, step (accept w s) = .next t ∧ t.busy = false ∧ t.done = true ∧ t.history = [] ∧
      (∀ a : Word, t.byteAt a = s.byteAt a) ∧ CommandFrame (accept w s) t

/-- R700, R118, D24: reset, asserted at any time and together with any event, is one step: every register takes its
reset value, the engine is idle and moves no further, irq is low, the met event does not happen, and memory is as it
was. That the met event does not happen, an engine write too, is the model's inference (log entry 19); that the
pending inputs and the platform survive is its choice (log entry 15). -/
def Obligations.ResetWinsAndClearsEverything : Prop :=
  ∀ (s : State) (met : Option CoreEvent) (rest : List Input), s.inputs = .reset met :: rest →
    ∃ t, step s = .next t ∧
      (∀ r, readReg t r = 0) ∧ (∀ k : Fin 8, t.key[k] = 0) ∧ (∀ i, t.cipher.get i = 0) ∧ (∀ i, t.ks.get i = 0) ∧
      t.busy = false ∧ t.done = false ∧ t.errcode = none ∧ irq t = false ∧ engineStep t = .next t ∧
      (∀ a : Word, t.byteAt a = s.byteAt a) ∧ t.inputs = rest ∧ t.platform = s.platform

/-- R118, R702: what State.reset leaves, on any platform: every register 0, idle, the interrupt masked and not
pending, and an engine that waits. That State.reset is on the baseline platform is the model's choice (log entry 1). -/
def Obligations.ResetValues : Prop :=
  ∀ p : Platform,
    (∀ r, readReg (State.powerOn p) r = 0) ∧ (∀ k : Fin 8, (State.powerOn p).key[k] = 0) ∧
    (State.powerOn p).busy = false ∧ (State.powerOn p).doneie = false ∧ (State.powerOn p).done = false ∧
    irq (State.powerOn p) = false ∧ step (State.powerOn p) = .next (State.powerOn p) ∧
    State.reset = State.powerOn Platform.baseline

/-- R703: after reset BUILD, BLOCK and PROCESS complete with InvalidKeyLength, and once KEYLEN = 32 with
InvalidNonceLength until NONCELEN = 12; QROUND and DROUND run and leave the all-zero STATE all-zero. -/
def Obligations.CommandsAfterReset : Prop :=
  ∀ p : Platform,
    (∀ i : Instr, i = .build ∨ i = .block ∨ i = .process →
      (∃ t, exec i (accept (encode i) (State.powerOn p)) = .next t ∧ CompletedWith (some .invalidKeyLength) t) ∧
      (∃ t, exec i (accept (encode i) (writeReg .keylen 32 (State.powerOn p))) = .next t ∧
        CompletedWith (some .invalidNonceLength) t)) ∧
    (∀ i : Instr, i = .dround ∨ (∃ a b c d, i = .qround a b c d) →
      ∃ t, exec i (accept (encode i) (State.powerOn p)) = .next t ∧ CompletedWith none t ∧
        t.cipher = Vector.replicate 16 0)

/-! ## PROCESS -/

/-- R553, R555: a read event of PROCESS. The engine reads the byte at SRC + 64j + i modulo 2^32 into ib[i], as one event
of the memory history; the first read of a block finds kb = chacha_block(K, CTR + j, N). No byte of memory changes,
and the command runs on. -/
def Obligations.ProcessReadsOneInputByte : Prop :=
  ∀ (s : State) (j i : Nat), s.keylen = 32 → s.noncelen = 12 →
    pendingProcessEvent s = .read j i →
    memAdmit s.platform .read (s.src + BitVec.ofNat 32 (64 * j + i)) = true →
    ∃ t, exec .process s = .next t ∧
      t.history = s.history ++ [{ kind := .read, addr := s.src + BitVec.ofNat 32 (64 * j + i),
                                  data := s.byteAt (s.src + BitVec.ofNat 32 (64 * j + i)) }] ∧
      (∀ a : Word, t.byteAt a = s.byteAt a) ∧
      t.engine.j.toNat = j ∧ t.engine.i = i + 1 ∧ t.engine.sub = .read ∧
      t.engine.ib[i]? = some (s.byteAt (s.src + BitVec.ofNat 32 (64 * j + i))) ∧
      (∀ k, k ≠ i → t.engine.ib[k]? = s.engine.ib[k]?) ∧
      t.engine.kb = (if i = 0 then chachaBlock (keyBytes s) (s.ctr + BitVec.ofNat 32 j) (nonceBytes s)
                     else s.engine.kb) ∧
      StillRunning s t ∧ CommandFrame s t

/-- R553, R555: a write event of PROCESS. The engine writes ib[i] ^ kb[i] to the byte at DST + 64j + i modulo 2^32, as
one event of the memory history; every other byte of memory reads as before, and the command runs on. -/
def Obligations.ProcessWritesOneOutputByte : Prop :=
  ∀ (s : State) (j i : Nat) (hi : i < 64), s.keylen = 32 → s.noncelen = 12 →
    pendingProcessEvent s = .write j i →
    memAdmit s.platform .write (s.dst + BitVec.ofNat 32 (64 * j + i)) = true →
    ∃ t, exec .process s = .next t ∧
      t.history = s.history ++ [{ kind := .write, addr := s.dst + BitVec.ofNat 32 (64 * j + i),
                                  data := s.engine.ib[i] ^^^ s.engine.kb[i] }] ∧
      t.byteAt (s.dst + BitVec.ofNat 32 (64 * j + i)) = s.engine.ib[i] ^^^ s.engine.kb[i] ∧
      (∀ a : Word, a ≠ s.dst + BitVec.ofNat 32 (64 * j + i) → t.byteAt a = s.byteAt a) ∧
      t.engine.j.toNat = j ∧ t.engine.i = i + 1 ∧ t.engine.sub = .write ∧
      t.engine.ib = s.engine.ib ∧ t.engine.kb = s.engine.kb ∧ StillRunning s t ∧ CommandFrame s t

/-- R557: the completion of a successful PROCESS writes KS to 0 and changes no other register: STATE, CTR, KEY, NONCE,
KEYLEN, NONCELEN, SRC, DST and LEN keep their values, and memory keeps its. -/
def Obligations.ProcessCompletionZeroesKs : Prop :=
  ∀ s : State, s.keylen = 32 → s.noncelen = 12 → pendingProcessEvent s = .finish →
    ∃ t, exec .process s = .next t ∧ CompletedWith none t ∧ (∀ i, t.ks.get i = 0) ∧
      t.cipher = s.cipher ∧ CommandFrame s t ∧ NoMemoryAccess s t

/-- R205: where MEM_ADMIT refuses the access PROCESS comes to, the engine has no further step: however many turns it
gets, the machine stays as it is, BUSY with DONE = 0 and no error code, and only reset ends it. That such a turn is a
step that changes nothing is the model's choice (log entry 4). -/
def Obligations.RefusedAccessLeavesTheEngineStuck : Prop :=
  ∀ (s : State) (j i : Nat), s.inputs = [] → s.busy = true → s.done = false → s.errcode = none →
    decode s.engine.cur = .ok .process → s.keylen = 32 → s.noncelen = 12 →
    (pendingProcessEvent s = .read j i ∧ memAdmit s.platform .read (byteAddr s.src j i) = false) ∨
    (pendingProcessEvent s = .write j i ∧ memAdmit s.platform .write (byteAddr s.dst j i) = false) →
    (∀ n, core.run n s = .next s) ∧
    (∀ n xs t, (∀ x ∈ xs, ∀ met, x ≠ .reset met) → core.run n { s with inputs := xs } = .next t →
      t.busy = true ∧ t.done = false ∧ t.errcode = none)

/-- R556: PROCESS with LEN = 0. It still validates first; with legal lengths it makes no memory access and computes no
keystream, completes in its first engine step, and zeroes KS. That the hidden kb and w are still as before once the
engine is idle rests on the model's choice to leave them (log entry 13). -/
def Obligations.EmptyInputCompletesAtOnce : Prop :=
  ∀ s : State, s.len = 0 → s.engine.j = 0 → s.engine.i = 0 → s.engine.sub = .read →
    ∃ t, exec .process s = .next t ∧ NoMemoryAccess s t ∧ CommandFrame s t ∧ t.cipher = s.cipher ∧
      t.engine.kb = s.engine.kb ∧ t.engine.w = s.engine.w ∧
      (s.keylen ≠ 32 → CompletedWith (some .invalidKeyLength) t ∧ t.ks = s.ks) ∧
      (s.keylen = 32 → s.noncelen ≠ 12 → CompletedWith (some .invalidNonceLength) t ∧ t.ks = s.ks) ∧
      (s.keylen = 32 → s.noncelen = 12 → CompletedWith none t ∧ t.ks = Vector.replicate 16 0)

/-- R551, R554: the split of an input of n bytes into blocks: ceil(n/64) blocks, all of 64 bytes but a last one of the
remainder where there is one, n bytes in all; 64 bytes are one block, 65 are two with one byte in the second. -/
def Obligations.InputSplitsIntoBlocks : Prop :=
  (∀ n : Nat,
    blockCount n = (n + 63) / 64 ∧
    (∀ j < blockCount n, 0 < blockLen n j ∧ blockLen n j = min 64 (n - 64 * j)) ∧
    ((List.range (blockCount n)).map (blockLen n)).sum = n) ∧
  blockCount 64 = 1 ∧ blockLen 64 0 = 64 ∧ blockCount 65 = 2 ∧ blockLen 65 0 = 64 ∧ blockLen 65 1 = 1

/-- R561: CTR = 0xFFFFFFFF wraps to 0 at block 1 without an error, a command has at most 2^26 blocks, and no two of
them share a counter value. -/
def Obligations.CounterWrapsWithoutRepeating : Prop :=
  (∀ j : Nat, (blockCounter 0xFFFFFFFF (j + 1)).toNat = j % 2 ^ 32) ∧
  ∀ (ctr len : Word),
    blockCount len.toNat ≤ 2 ^ 26 ∧
    ∀ j < blockCount len.toNat, ∀ j' < blockCount len.toNat, blockCounter ctr j = blockCounter ctr j' → j = j'

/-- R206: a PROCESS that completes, under whatever interleaving with the other agents, has read each input address once
and written each output address once, and has made no other memory access: LEN reads and LEN writes in all. -/
def Obligations.ProcessTouchesEachByteOnce : Prop :=
  ∀ s t : State, s.OnPlan → s.busy = true → decode s.engine.cur = .ok .process → s.keylen = 32 → s.noncelen = 12 →
    (∀ met rest, s.inputs ≠ .reset met :: rest) → step s = .next t → t.busy = false →
    t.errcode = none ∧ t.accesses.length = 2 * s.len.toNat ∧
    (t.accesses.filter (fun e => e.1 == .read)).length = s.len.toNat ∧
    (∀ k < s.len.toNat,
      t.accesses.count (.read, s.src + BitVec.ofNat 32 k) = 1 ∧
      t.accesses.count (.write, s.dst + BitVec.ofNat 32 k) = 1) ∧
    (∀ e ∈ t.accesses, ∃ k < s.len.toNat,
      e = (.read, s.src + BitVec.ofNat 32 k) ∨ e = (.write, s.dst + BitVec.ofNat 32 k))

/-- R213: another agent's access to a running command's buffers counts by its place in the order. A write to an input
byte before the engine's read of it is what the engine reads, one after it is not; a read of an output byte before the
engine's write of it returns the old content, one after it the engine's. -/
def Obligations.OtherAgentsMeetTheEngineInOrder : Prop :=
  (∀ (s : State) (j i : Nat) (v : Byte), s.keylen = 32 → s.noncelen = 12 → pendingProcessEvent s = .read j i →
    memAdmit s.platform .read (s.src + BitVec.ofNat 32 (64 * j + i)) = true →
    (∃ t, exec .process (agentMemWrite (s.src + BitVec.ofNat 32 (64 * j + i)) v s) = .next t ∧
      t.engine.ib[i]? = some v) ∧
    (∃ t, exec .process s = .next t ∧
      (agentMemWrite (s.src + BitVec.ofNat 32 (64 * j + i)) v t).engine.ib[i]? =
        some (s.byteAt (s.src + BitVec.ofNat 32 (64 * j + i))))) ∧
  (∀ (s : State) (j i : Nat) (hi : i < 64), s.keylen = 32 → s.noncelen = 12 → pendingProcessEvent s = .write j i →
    memAdmit s.platform .write (s.dst + BitVec.ofNat 32 (64 * j + i)) = true →
    (agentMemRead (s.dst + BitVec.ofNat 32 (64 * j + i)) s).lastMemRead =
      some (s.byteAt (s.dst + BitVec.ofNat 32 (64 * j + i))) ∧
    (∃ t, exec .process s = .next t ∧
      (agentMemRead (s.dst + BitVec.ofNat 32 (64 * j + i)) t).lastMemRead =
        some (s.engine.ib[i] ^^^ s.engine.kb[i])))

/-- R210, R555: every step keeps a running command on its plan: the memory history is exactly the part of the planned
events that the position says, in order, and the keystream block in use is that of the block the position is in. -/
def Obligations.EveryStepKeepsTheCommandOnPlan : Prop :=
  ∀ s t : State, s.OnPlan → step s = .next t → t.OnPlan

/-- R550, R555, R612: a validated PROCESS whose accesses the platform admits, left alone, is BUSY for 2 * LEN engine
steps and completes with the next one. It leaves the memory of R550's loop, KS = 0 and the planned events as its
history, and changes nothing else. -/
def Obligations.ProcessRunsTheCounterModeLoop : Prop :=
  ∀ s : State, ProcessStart s → AllAdmitted s →
    (∀ n ≤ 2 * s.len.toNat, ∃ u, core.run n s = .next u ∧ u.busy = true ∧ u.done = s.done) ∧
    ∃ t, core.run (2 * s.len.toNat + 1) s = .next t ∧ CompletedWith none t ∧
      t.mem = processMemory s ∧ t.accesses = plannedEvents s.len.toNat s.src s.dst ∧
      t.ks = Vector.replicate 16 0 ∧ t.cipher = s.cipher ∧ CommandFrame s t

/-- R553, R560: where the output does not start inside the input above it, or the input is one block, every output byte
is the original input byte XOR its keystream byte; and a byte is read after the same command wrote it exactly
when 1 <= d < LEN and LEN > 64, for d = DST - SRC modulo 2^32. First of R550's loop as a function; then of a started
PROCESS left alone (log entry 9): its memory, and its memory events, where a read that follows a write of its
address returns what that write wrote, and elsewhere every read returns the original byte. -/
def Obligations.OutputIsInputXorKeystream : Prop :=
  ∀ s : State,
    let apart := s.dst - s.src = 0 ∨ s.len.toNat ≤ (s.dst - s.src).toNat ∨ s.len.toNat ≤ 64
    let inside := 1 ≤ (s.dst - s.src).toNat ∧ (s.dst - s.src).toNat < s.len.toNat ∧ 64 < s.len.toNat
    (apart →
      ∀ k < s.len.toNat,
        Memory.read (processMemory s) (s.dst + BitVec.ofNat 32 k).toNat =
          s.byteAt (s.src + BitVec.ofNat 32 k) ^^^ keystreamByte s k) ∧
    ((∃ k < s.len.toNat, ∃ k' < s.len.toNat,
        k' / 64 < k / 64 ∧ s.dst + BitVec.ofNat 32 k' = s.src + BitVec.ofNat 32 k) ↔ inside) ∧
    (ProcessStart s → AllAdmitted s →
      ∃ t, core.run (2 * s.len.toNat + 1) s = .next t ∧ CompletedWith none t ∧
        (apart → ∀ k < s.len.toNat,
          t.byteAt (s.dst + BitVec.ofNat 32 k) = s.byteAt (s.src + BitVec.ofNat 32 k) ^^^ keystreamByte s k) ∧
        (apart → ∀ e ∈ t.history, e.kind = .read → e.data = s.byteAt e.addr) ∧
        (∀ h e h' e' h'', t.history = h ++ e :: h' ++ e' :: h'' → e.kind = .write → e'.kind = .read →
          e'.addr = e.addr → e'.data = e.data) ∧
        ((∃ h e h' e' h'', t.history = h ++ e :: h' ++ e' :: h'' ∧ e.kind = .write ∧ e'.kind = .read ∧
          e'.addr = e.addr) ↔ inside))

/-- R558: a successful PROCESS writes exactly LEN bytes, at DST to DST + LEN - 1: every byte outside them reads as
before, and of its memory events exactly LEN are writes. -/
def Obligations.OutputHasTheLengthOfTheInput : Prop :=
  ∀ s t : State, ProcessStart s → AllAdmitted s → core.run (2 * s.len.toNat + 1) s = .next t →
    (t.accesses.filter (fun e => e.1 == .write)).length = s.len.toNat ∧
    ∀ a : Word, (∀ k < s.len.toNat, a ≠ s.dst + BitVec.ofNat 32 k) → t.byteAt a = s.byteAt a

/-- R559: encryption and decryption are the same operation. A PROCESS, then a second one by which the host has the
engine read what the first wrote, each with one buffer or disjoint ones and both left alone, give back the bytes
before the first. -/
def Obligations.ProcessTwiceGivesTheInputBack : Prop :=
  ∀ (s t t' : State) (dst' : Word), ProcessStart s → AllAdmitted s →
    SameOrDisjoint s.src s.dst s.len.toNat → SameOrDisjoint s.dst dst' s.len.toNat →
    core.run (2 * s.len.toNat + 1) s = .next t →
    AllAdmitted (writeReg .cmd 0x00000005 (writeReg .dst dst' (writeReg .src t.dst t))) →
    core.run (2 * s.len.toNat + 1) (writeReg .cmd 0x00000005 (writeReg .dst dst' (writeReg .src t.dst t))) = .next t' →
    CompletedWith none t' ∧
    ∀ k < s.len.toNat, t'.byteAt (dst' + BitVec.ofNat 32 k) = s.byteAt (s.src + BitVec.ofNat 32 k)

/-- R716: one keystream continues across commands where the earlier LEN is a multiple of 64 and CTR is moved on by
LEN / 64: byte k of the second command's keystream is byte LEN + k of the first's. And of the machine: a PROCESS over
the first n bytes of a buffer, then the host's writes of CTR, SRC, DST and LEN and a PROCESS over the rest, each left
alone (log entry 9), leave the memory and STATE of one PROCESS over the whole buffer. -/
def Obligations.KeystreamContinuesAcrossCommands : Prop :=
  (∀ (s : State) (n k : Nat), n % 64 = 0 →
    keystreamByte { s with ctr := s.ctr + BitVec.ofNat 32 (n / 64) } k = keystreamByte s (n + k)) ∧
  (∀ (s : State) (n : Nat), ProcessStart s → AllAdmitted s → n ≤ s.len.toNat → n % 64 = 0 →
    ∃ whole first second,
      core.run (2 * s.len.toNat + 1) s = .next whole ∧ CompletedWith none whole ∧
      core.run (2 * n + 1) { s with len := BitVec.ofNat 32 n } = .next first ∧ CompletedWith none first ∧
      core.run (2 * (s.len.toNat - n) + 1)
        (writeReg .cmd 0x00000005 (writeReg .len (s.len - BitVec.ofNat 32 n)
          (writeReg .dst (first.dst + BitVec.ofNat 32 n) (writeReg .src (first.src + BitVec.ofNat 32 n)
            (writeReg .ctr (first.ctr + BitVec.ofNat 32 (n / 64)) first))))) = .next second ∧
      CompletedWith none second ∧
      (∀ a : Word, second.byteAt a = whole.byteAt a) ∧ second.cipher = whole.cipher)

/-! ## Invariants and whole-machine rules -/

/-- The memory keeps its canonical form, STATUS its legal values (R104), and the running word is what CMD reads, after
every step from every state that has them. The canonical form is the model's own (log entry 3). -/
def Obligations.EveryStepKeepsTheInvariant : Prop :=
  ∀ s t : State, s.Inv → step s = .next t → t.Inv

/-- The reset state has both invariants. That its memory lists nothing, in the canonical form, is the model's choice (log
entry 3), and so is the baseline platform State.reset carries (log entry 1), on which neither invariant depends. -/
def Obligations.ResetHasTheInvariants : Prop := State.reset.Inv ∧ State.reset.OnPlan

/-- R116, R117: no rule reads the hidden engine state across commands. Two machines that differ only in it, and in
nothing while BUSY, take the same steps and differ only in it again. -/
def Obligations.HiddenStateIsNeverObserved : Prop :=
  ∀ s s' : State, SameButHidden s s' →
    (∀ t, step s = .next t → ∃ t', step s' = .next t' ∧ SameButHidden t t') ∧
    (∀ r, step s = .refused r → step s' = .refused r)

/-- R211, of one write: a byte reads as the write just before it left it, whoever made it, and a write changes no other
byte, so the memory is one for every agent. The clauses on the canonical form are about the model's own form of memory
(log entry 3). -/
def Obligations.ByteReadsBackWhatWasWritten : Prop :=
  ∀ (s : State) (a b : Word) (v : Byte),
    (agentMemRead a (agentMemWrite a v s)).lastMemRead = some v ∧
    (agentMemWrite a v s).byteAt a = v ∧ (memWrite a v s).byteAt a = v ∧
    (b ≠ a → (agentMemWrite a v s).byteAt b = s.byteAt b ∧ (memWrite a v s).byteAt b = s.byteAt b) ∧
    (s.mem.wf → (agentMemWrite a v s).mem.wf ∧ (agentMemWrite a (s.byteAt a) s).mem = s.mem)

/-- R308: `colround` followed by `diaground`, eight issue and wait pairs, leaves STATE as one `dround` leaves it, from
every idle state whose host the platform lets in. The scripts are terms (log entry 8), no other agent acts between
(log entry 9), and that each wait ends rests on the model's poll with one engine turn (log entry 18). -/
def Obligations.ColroundThenDiagroundIsDround : Prop :=
  ∀ (s : State) (m : Nat), s.busy = false → s.inputs = [] → m ∉ s.platform.deniedMasters →
    ∃ n n' t t',
      core.run n (s.withScript m (colround ++ diaground)) = .next t ∧ t.inputs = [] ∧ t.busy = false ∧
      core.run n' (s.withScript m (issueEach [.dround])) = .next t' ∧ t'.inputs = [] ∧ t'.busy = false ∧
      t.cipher = t'.cipher ∧ t'.cipher = doubleRound s.cipher
end

