-- ==== Sys2Proof/Laws/Cipher.lean ====
section
/-! SUPPORT. The laws of the cipher state and its mixing: get and put, rotation, and what each statement of the
quarter-round leaves alone. -/

namespace Sys2Proof

namespace CipherState

theorem get_eq (s : CipherState) (i : Fin 16) : s.get i = s[i.val] := rfl

theorem ext_get {s t : CipherState} (h : ∀ i, s.get i = t.get i) : s = t :=
  Vector.ext fun i hi => h ⟨i, hi⟩

@[simp] theorem get_put_same (s : CipherState) (i : Fin 16) (v : Word) : (s.put i v).get i = v := by
  simp [get_eq, put]

theorem get_put_other {i j : Fin 16} (h : j ≠ i) (s : CipherState) (v : Word) : (s.put i v).get j = s.get j := by
  have : i.val ≠ j.val := fun e => h (Fin.ext e.symm)
  simp [get_eq, put, this]

theorem get_put (s : CipherState) (i j : Fin 16) (v : Word) :
    (s.put i v).get j = if j = i then v else s.get j := by
  by_cases h : j = i
  · subst h; simp
  · simp [h, get_put_other h]

@[simp] theorem get_zero (i : Fin 16) : CipherState.get (Vector.replicate 16 0#32) i = 0#32 := by simp [get_eq]

end CipherState

open CipherState

/-- `rotl32` of R14 is Lean's rotation for the amounts the core uses. -/
theorem rotl32_eq_rotateLeft (x : Word) {n : Nat} (h : n < 32) : rotl32 x n = x.rotateLeft n := by
  simp [rotl32, BitVec.rotateLeft, BitVec.rotateLeftAux, Nat.mod_eq_of_lt h]

@[simp] theorem rotl32_zero (n : Nat) : rotl32 0#32 n = 0#32 := by simp [rotl32]

theorem get_addInto (s : CipherState) (x y i : Fin 16) :
    (addInto s x y).get i = if i = x then s.get x + s.get y else s.get i := get_put s x i _

theorem get_xorRotInto (s : CipherState) (x y i : Fin 16) (n : Nat) :
    (xorRotInto s x y n).get i = if i = x then rotl32 (s.get x ^^^ s.get y) n else s.get i := get_put s x i _

/-- The quarter-round as its eight statements, without the local names. -/
theorem quarterRound_eq (s : CipherState) (a b c d : Fin 16) :
    quarterRound s a b c d =
      xorRotInto (addInto (xorRotInto (addInto (xorRotInto (addInto (xorRotInto (addInto s
        a b) d a 16) c d) b c 12) a b) d a 8) c d) b c 7 := by
  unfold quarterRound; rfl

theorem permute_eq (o : CipherState) : permute o = doubleRounds 10 o := by unfold permute; rfl

theorem chachaBlock_eq (K : Vector Byte 32) (ctr : Word) (N : Vector Byte 12) :
    chachaBlock K ctr N = serialize (feedForward (permute (buildState K ctr N)) (buildState K ctr N)) := by
  unfold chachaBlock; rfl

theorem get_feedForward (w o : CipherState) (i : Fin 16) : (feedForward w o).get i = w.get i + o.get i := by
  simp [feedForward, CipherState.get_eq]

theorem getElem_serialize (x : CipherState) (n : Nat) (h : n < 64) :
    (serialize x)[n] = byteOf (x.get ⟨n / 4, by omega⟩) (n % 4) := by
  simp [serialize]

/-- The four bytes of a word give the word back (R15, R202). -/
theorem le32_bytes (w : Word) : le32 (byteOf w 0) (byteOf w 1) (byteOf w 2) (byteOf w 3) = w := by
  apply BitVec.eq_of_getLsbD_eq
  intro i hi
  simp only [le32, byteOf, BitVec.getLsbD_or, BitVec.getLsbD_shiftLeft, BitVec.getLsbD_setWidth,
    BitVec.getLsbD_extractLsb']
  interval_cases i <;> simp

/-- Word `i` of the built state, by its place in the layout (R402). -/
theorem get_buildState (K : Vector Byte 32) (ctr : Word) (N : Vector Byte 12) (i : Fin 16) :
    (buildState K ctr N).get i =
      if _h : i.val < 4 then cipherConst[i.val]
      else if _h : i.val < 12 then
        le32 K[4 * (i.val - 4)] K[4 * (i.val - 4) + 1] K[4 * (i.val - 4) + 2] K[4 * (i.val - 4) + 3]
      else if _h : i.val = 12 then ctr
      else le32 N[4 * (i.val - 13)] N[4 * (i.val - 13) + 1] N[4 * (i.val - 13) + 2] N[4 * (i.val - 13) + 3] := by
  simp [buildState, CipherState.get_eq]

/-- The bytes of a word put together from bytes (R15). -/
theorem byteOf_le32 (b0 b1 b2 b3 : Byte) :
    byteOf (le32 b0 b1 b2 b3) 0 = b0 ∧ byteOf (le32 b0 b1 b2 b3) 1 = b1 ∧
    byteOf (le32 b0 b1 b2 b3) 2 = b2 ∧ byteOf (le32 b0 b1 b2 b3) 3 = b3 := by
  refine ⟨?_, ?_, ?_, ?_⟩ <;>
  · apply BitVec.eq_of_getLsbD_eq
    intro i hi
    simp only [byteOf, le32, BitVec.getLsbD_extractLsb', BitVec.getLsbD_or, BitVec.getLsbD_shiftLeft,
      BitVec.getLsbD_setWidth]
    interval_cases i <;> simp

namespace Machine

/-- Byte `n` of the key that the KEY registers hold (R112). -/
theorem getElem_keyBytes (s : State) (n : Nat) (h : n < 32) :
    (keyBytes s)[n] = byteOf (s.key[n / 4]'(by omega)) (n % 4) := by
  simp [keyBytes]

/-- Byte `n` of the nonce that the NONCE registers hold (R113). -/
theorem getElem_nonceBytes (s : State) (n : Nat) (h : n < 12) :
    (nonceBytes s)[n] = byteOf (s.nonce[n / 4]'(by omega)) (n % 4) := by
  simp [nonceBytes]

/-- The engine's keystream block is the block function on the registers' bytes (R505, R552). -/
theorem startBlock_kb (j : Nat) (s : State) : (startBlock j s).engine.kb = keystreamBlock s j := by
  rw [keystreamBlock, chachaBlock_eq]; rfl

theorem blockWords_computeBlock (c : Word) (s : State) :
    (computeBlock c s).engine.blockWords = feedForward (permute (regsState s c)) (regsState s c) := rfl

end Machine
end Sys2Proof
end

