-- ==== Sys2Proof/Laws/Decode.lean ====
section
/-! SUPPORT. The laws of the command word: the fields of an assembled word, and a word by its 4-bit fields. -/

namespace Sys2Proof
namespace Cmd32

/-- The fields of a word put together from fields (R301). -/
theorem fields_ofFields (op : BitVec 4) (a b c d : Fin 16) :
    Cmd32.op (ofFields op a b c d) = op ∧ rsv0 (ofFields op a b c d) = 0 ∧ rsv1 (ofFields op a b c d) = 0 ∧
    Cmd32.a (ofFields op a b c d) = a ∧ Cmd32.b (ofFields op a b c d) = b ∧ Cmd32.c (ofFields op a b c d) = c ∧
    Cmd32.d (ofFields op a b c d) = d := by
  have hfin : ∀ (x : BitVec 4) (a : Fin 16), x = BitVec.ofFin a → x.toFin = a := by
    intro x a h; subst h; rfl
  refine ⟨?_, ?_, ?_, hfin _ _ ?_, hfin _ _ ?_, hfin _ _ ?_, hfin _ _ ?_⟩ <;>
  · apply BitVec.eq_of_getLsbD_eq
    intro i hi
    simp only [Cmd32.op, rsv0, rsv1, ofFields, BitVec.getLsbD_extractLsb', BitVec.getLsbD_append]
    interval_cases i <;> simp

/-- A field as a number: bits [k+n-1:k] of the word's value (R13). -/
theorem extractLsb'_toNat (w : Word) (k n : Nat) : (w.extractLsb' k n).toNat = w.toNat / 2 ^ k % 2 ^ n := by
  simp [Nat.shiftRight_eq_div_pow]

end Cmd32

/-- Two words with the same eight 4-bit fields are one word. -/
theorem word_eq_of_fields {w w' : Word}
    (h : ∀ k, k % 4 = 0 → k < 32 → w.extractLsb' k 4 = w'.extractLsb' k 4) : w = w' := by
  apply BitVec.eq_of_getLsbD_eq
  intro i hi
  have hf := congrArg (·.getLsbD (i % 4)) (h (i / 4 * 4) (by omega) (by omega))
  simp only [BitVec.getLsbD_extractLsb'] at hf
  have h4 : i % 4 < 4 := by omega
  have e : i / 4 * 4 + i % 4 = i := by omega
  simpa [h4, e] using hf

end Sys2Proof
end

