-- ==== Sys2Proof/Laws/State.lean ====
section
/-! SUPPORT. One lemma per field per shared update of State, so that no proof unfolds a record update. -/

namespace Sys2Proof
namespace Machine

/-! ### accept -/

@[simp] theorem accept_cmd (w : Word) (s : State) : (accept w s).cmd = w := rfl
@[simp] theorem accept_done (w : Word) (s : State) : (accept w s).done = false := rfl
@[simp] theorem accept_ovr (w : Word) (s : State) : (accept w s).ovr = s.ovr := rfl
@[simp] theorem accept_errcode (w : Word) (s : State) : (accept w s).errcode = none := rfl
@[simp] theorem accept_doneie (w : Word) (s : State) : (accept w s).doneie = s.doneie := rfl
@[simp] theorem accept_ctr (w : Word) (s : State) : (accept w s).ctr = s.ctr := rfl
@[simp] theorem accept_keylen (w : Word) (s : State) : (accept w s).keylen = s.keylen := rfl
@[simp] theorem accept_noncelen (w : Word) (s : State) : (accept w s).noncelen = s.noncelen := rfl
@[simp] theorem accept_src (w : Word) (s : State) : (accept w s).src = s.src := rfl
@[simp] theorem accept_dst (w : Word) (s : State) : (accept w s).dst = s.dst := rfl
@[simp] theorem accept_len (w : Word) (s : State) : (accept w s).len = s.len := rfl
@[simp] theorem accept_key (w : Word) (s : State) : (accept w s).key = s.key := rfl
@[simp] theorem accept_nonce (w : Word) (s : State) : (accept w s).nonce = s.nonce := rfl
@[simp] theorem accept_cipher (w : Word) (s : State) : (accept w s).cipher = s.cipher := rfl
@[simp] theorem accept_ks (w : Word) (s : State) : (accept w s).ks = s.ks := rfl
@[simp] theorem accept_engine (w : Word) (s : State) : (accept w s).engine = Engine.fresh .busy w := rfl
@[simp] theorem accept_mem (w : Word) (s : State) : (accept w s).mem = s.mem := rfl
@[simp] theorem accept_history (w : Word) (s : State) : (accept w s).history = [] := rfl
@[simp] theorem accept_platform (w : Word) (s : State) : (accept w s).platform = s.platform := rfl
@[simp] theorem accept_inputs (w : Word) (s : State) : (accept w s).inputs = s.inputs := rfl
@[simp] theorem accept_lastRead (w : Word) (s : State) : (accept w s).lastRead = s.lastRead := rfl
@[simp] theorem accept_lastMemRead (w : Word) (s : State) : (accept w s).lastMemRead = s.lastMemRead := rfl

/-! ### complete -/

@[simp] theorem complete_cmd (c : Option CmdError) (s : State) : (complete c s).cmd = s.cmd := rfl
@[simp] theorem complete_done (c : Option CmdError) (s : State) : (complete c s).done = true := rfl
@[simp] theorem complete_ovr (c : Option CmdError) (s : State) : (complete c s).ovr = s.ovr := rfl
@[simp] theorem complete_errcode (c : Option CmdError) (s : State) : (complete c s).errcode = c := rfl
@[simp] theorem complete_doneie (c : Option CmdError) (s : State) : (complete c s).doneie = s.doneie := rfl
@[simp] theorem complete_ctr (c : Option CmdError) (s : State) : (complete c s).ctr = s.ctr := rfl
@[simp] theorem complete_keylen (c : Option CmdError) (s : State) : (complete c s).keylen = s.keylen := rfl
@[simp] theorem complete_noncelen (c : Option CmdError) (s : State) : (complete c s).noncelen = s.noncelen := rfl
@[simp] theorem complete_src (c : Option CmdError) (s : State) : (complete c s).src = s.src := rfl
@[simp] theorem complete_dst (c : Option CmdError) (s : State) : (complete c s).dst = s.dst := rfl
@[simp] theorem complete_len (c : Option CmdError) (s : State) : (complete c s).len = s.len := rfl
@[simp] theorem complete_key (c : Option CmdError) (s : State) : (complete c s).key = s.key := rfl
@[simp] theorem complete_nonce (c : Option CmdError) (s : State) : (complete c s).nonce = s.nonce := rfl
@[simp] theorem complete_cipher (c : Option CmdError) (s : State) : (complete c s).cipher = s.cipher := rfl
@[simp] theorem complete_ks (c : Option CmdError) (s : State) : (complete c s).ks = s.ks := rfl
@[simp] theorem complete_engine (c : Option CmdError) (s : State) : (complete c s).engine = { s.engine with phase := .idle } := rfl
@[simp] theorem complete_mem (c : Option CmdError) (s : State) : (complete c s).mem = s.mem := rfl
@[simp] theorem complete_history (c : Option CmdError) (s : State) : (complete c s).history = s.history := rfl
@[simp] theorem complete_platform (c : Option CmdError) (s : State) : (complete c s).platform = s.platform := rfl
@[simp] theorem complete_inputs (c : Option CmdError) (s : State) : (complete c s).inputs = s.inputs := rfl
@[simp] theorem complete_lastRead (c : Option CmdError) (s : State) : (complete c s).lastRead = s.lastRead := rfl
@[simp] theorem complete_lastMemRead (c : Option CmdError) (s : State) : (complete c s).lastMemRead = s.lastMemRead := rfl

/-! ### memRead -/

@[simp] theorem memRead_cmd (a : Word) (s : State) : (memRead a s).cmd = s.cmd := rfl
@[simp] theorem memRead_done (a : Word) (s : State) : (memRead a s).done = s.done := rfl
@[simp] theorem memRead_ovr (a : Word) (s : State) : (memRead a s).ovr = s.ovr := rfl
@[simp] theorem memRead_errcode (a : Word) (s : State) : (memRead a s).errcode = s.errcode := rfl
@[simp] theorem memRead_doneie (a : Word) (s : State) : (memRead a s).doneie = s.doneie := rfl
@[simp] theorem memRead_ctr (a : Word) (s : State) : (memRead a s).ctr = s.ctr := rfl
@[simp] theorem memRead_keylen (a : Word) (s : State) : (memRead a s).keylen = s.keylen := rfl
@[simp] theorem memRead_noncelen (a : Word) (s : State) : (memRead a s).noncelen = s.noncelen := rfl
@[simp] theorem memRead_src (a : Word) (s : State) : (memRead a s).src = s.src := rfl
@[simp] theorem memRead_dst (a : Word) (s : State) : (memRead a s).dst = s.dst := rfl
@[simp] theorem memRead_len (a : Word) (s : State) : (memRead a s).len = s.len := rfl
@[simp] theorem memRead_key (a : Word) (s : State) : (memRead a s).key = s.key := rfl
@[simp] theorem memRead_nonce (a : Word) (s : State) : (memRead a s).nonce = s.nonce := rfl
@[simp] theorem memRead_cipher (a : Word) (s : State) : (memRead a s).cipher = s.cipher := rfl
@[simp] theorem memRead_ks (a : Word) (s : State) : (memRead a s).ks = s.ks := rfl
@[simp] theorem memRead_engine (a : Word) (s : State) : (memRead a s).engine = s.engine := rfl
@[simp] theorem memRead_mem (a : Word) (s : State) : (memRead a s).mem = s.mem := rfl
@[simp] theorem memRead_history (a : Word) (s : State) : (memRead a s).history = s.history ++ [{ kind := .read, addr := a, data := s.byteAt a }] := rfl
@[simp] theorem memRead_platform (a : Word) (s : State) : (memRead a s).platform = s.platform := rfl
@[simp] theorem memRead_inputs (a : Word) (s : State) : (memRead a s).inputs = s.inputs := rfl
@[simp] theorem memRead_lastRead (a : Word) (s : State) : (memRead a s).lastRead = s.lastRead := rfl
@[simp] theorem memRead_lastMemRead (a : Word) (s : State) : (memRead a s).lastMemRead = s.lastMemRead := rfl

/-! ### memWrite -/

@[simp] theorem memWrite_cmd (a : Word) (v : Byte) (s : State) : (memWrite a v s).cmd = s.cmd := rfl
@[simp] theorem memWrite_done (a : Word) (v : Byte) (s : State) : (memWrite a v s).done = s.done := rfl
@[simp] theorem memWrite_ovr (a : Word) (v : Byte) (s : State) : (memWrite a v s).ovr = s.ovr := rfl
@[simp] theorem memWrite_errcode (a : Word) (v : Byte) (s : State) : (memWrite a v s).errcode = s.errcode := rfl
@[simp] theorem memWrite_doneie (a : Word) (v : Byte) (s : State) : (memWrite a v s).doneie = s.doneie := rfl
@[simp] theorem memWrite_ctr (a : Word) (v : Byte) (s : State) : (memWrite a v s).ctr = s.ctr := rfl
@[simp] theorem memWrite_keylen (a : Word) (v : Byte) (s : State) : (memWrite a v s).keylen = s.keylen := rfl
@[simp] theorem memWrite_noncelen (a : Word) (v : Byte) (s : State) : (memWrite a v s).noncelen = s.noncelen := rfl
@[simp] theorem memWrite_src (a : Word) (v : Byte) (s : State) : (memWrite a v s).src = s.src := rfl
@[simp] theorem memWrite_dst (a : Word) (v : Byte) (s : State) : (memWrite a v s).dst = s.dst := rfl
@[simp] theorem memWrite_len (a : Word) (v : Byte) (s : State) : (memWrite a v s).len = s.len := rfl
@[simp] theorem memWrite_key (a : Word) (v : Byte) (s : State) : (memWrite a v s).key = s.key := rfl
@[simp] theorem memWrite_nonce (a : Word) (v : Byte) (s : State) : (memWrite a v s).nonce = s.nonce := rfl
@[simp] theorem memWrite_cipher (a : Word) (v : Byte) (s : State) : (memWrite a v s).cipher = s.cipher := rfl
@[simp] theorem memWrite_ks (a : Word) (v : Byte) (s : State) : (memWrite a v s).ks = s.ks := rfl
@[simp] theorem memWrite_engine (a : Word) (v : Byte) (s : State) : (memWrite a v s).engine = s.engine := rfl
@[simp] theorem memWrite_mem (a : Word) (v : Byte) (s : State) : (memWrite a v s).mem = Memory.write s.mem a.toNat v := rfl
@[simp] theorem memWrite_history (a : Word) (v : Byte) (s : State) : (memWrite a v s).history = s.history ++ [{ kind := .write, addr := a, data := v }] := rfl
@[simp] theorem memWrite_platform (a : Word) (v : Byte) (s : State) : (memWrite a v s).platform = s.platform := rfl
@[simp] theorem memWrite_inputs (a : Word) (v : Byte) (s : State) : (memWrite a v s).inputs = s.inputs := rfl
@[simp] theorem memWrite_lastRead (a : Word) (v : Byte) (s : State) : (memWrite a v s).lastRead = s.lastRead := rfl
@[simp] theorem memWrite_lastMemRead (a : Word) (v : Byte) (s : State) : (memWrite a v s).lastMemRead = s.lastMemRead := rfl

/-! ### computeBlock -/

@[simp] theorem computeBlock_cmd (c : Word) (s : State) : (computeBlock c s).cmd = s.cmd := rfl
@[simp] theorem computeBlock_done (c : Word) (s : State) : (computeBlock c s).done = s.done := rfl
@[simp] theorem computeBlock_ovr (c : Word) (s : State) : (computeBlock c s).ovr = s.ovr := rfl
@[simp] theorem computeBlock_errcode (c : Word) (s : State) : (computeBlock c s).errcode = s.errcode := rfl
@[simp] theorem computeBlock_doneie (c : Word) (s : State) : (computeBlock c s).doneie = s.doneie := rfl
@[simp] theorem computeBlock_ctr (c : Word) (s : State) : (computeBlock c s).ctr = s.ctr := rfl
@[simp] theorem computeBlock_keylen (c : Word) (s : State) : (computeBlock c s).keylen = s.keylen := rfl
@[simp] theorem computeBlock_noncelen (c : Word) (s : State) : (computeBlock c s).noncelen = s.noncelen := rfl
@[simp] theorem computeBlock_src (c : Word) (s : State) : (computeBlock c s).src = s.src := rfl
@[simp] theorem computeBlock_dst (c : Word) (s : State) : (computeBlock c s).dst = s.dst := rfl
@[simp] theorem computeBlock_len (c : Word) (s : State) : (computeBlock c s).len = s.len := rfl
@[simp] theorem computeBlock_key (c : Word) (s : State) : (computeBlock c s).key = s.key := rfl
@[simp] theorem computeBlock_nonce (c : Word) (s : State) : (computeBlock c s).nonce = s.nonce := rfl
@[simp] theorem computeBlock_cipher (c : Word) (s : State) : (computeBlock c s).cipher = s.cipher := rfl
@[simp] theorem computeBlock_ks (c : Word) (s : State) : (computeBlock c s).ks = s.ks := rfl
@[simp] theorem computeBlock_engine (c : Word) (s : State) : (computeBlock c s).engine = { s.engine with o := regsState s c, w := permute (regsState s c) } := rfl
@[simp] theorem computeBlock_mem (c : Word) (s : State) : (computeBlock c s).mem = s.mem := rfl
@[simp] theorem computeBlock_history (c : Word) (s : State) : (computeBlock c s).history = s.history := rfl
@[simp] theorem computeBlock_platform (c : Word) (s : State) : (computeBlock c s).platform = s.platform := rfl
@[simp] theorem computeBlock_inputs (c : Word) (s : State) : (computeBlock c s).inputs = s.inputs := rfl
@[simp] theorem computeBlock_lastRead (c : Word) (s : State) : (computeBlock c s).lastRead = s.lastRead := rfl
@[simp] theorem computeBlock_lastMemRead (c : Word) (s : State) : (computeBlock c s).lastMemRead = s.lastMemRead := rfl

/-! ### advance -/

@[simp] theorem advance_cmd (j i : Nat) (h : Half) (s : State) : (advance j i h s).cmd = s.cmd := rfl
@[simp] theorem advance_done (j i : Nat) (h : Half) (s : State) : (advance j i h s).done = s.done := rfl
@[simp] theorem advance_ovr (j i : Nat) (h : Half) (s : State) : (advance j i h s).ovr = s.ovr := rfl
@[simp] theorem advance_errcode (j i : Nat) (h : Half) (s : State) : (advance j i h s).errcode = s.errcode := rfl
@[simp] theorem advance_doneie (j i : Nat) (h : Half) (s : State) : (advance j i h s).doneie = s.doneie := rfl
@[simp] theorem advance_ctr (j i : Nat) (h : Half) (s : State) : (advance j i h s).ctr = s.ctr := rfl
@[simp] theorem advance_keylen (j i : Nat) (h : Half) (s : State) : (advance j i h s).keylen = s.keylen := rfl
@[simp] theorem advance_noncelen (j i : Nat) (h : Half) (s : State) : (advance j i h s).noncelen = s.noncelen := rfl
@[simp] theorem advance_src (j i : Nat) (h : Half) (s : State) : (advance j i h s).src = s.src := rfl
@[simp] theorem advance_dst (j i : Nat) (h : Half) (s : State) : (advance j i h s).dst = s.dst := rfl
@[simp] theorem advance_len (j i : Nat) (h : Half) (s : State) : (advance j i h s).len = s.len := rfl
@[simp] theorem advance_key (j i : Nat) (h : Half) (s : State) : (advance j i h s).key = s.key := rfl
@[simp] theorem advance_nonce (j i : Nat) (h : Half) (s : State) : (advance j i h s).nonce = s.nonce := rfl
@[simp] theorem advance_cipher (j i : Nat) (h : Half) (s : State) : (advance j i h s).cipher = s.cipher := rfl
@[simp] theorem advance_ks (j i : Nat) (h : Half) (s : State) : (advance j i h s).ks = s.ks := rfl
@[simp] theorem advance_engine (j i : Nat) (h : Half) (s : State) : (advance j i h s).engine = { s.engine with j := BitVec.ofNat 32 j, i := i + 1, sub := h } := rfl
@[simp] theorem advance_mem (j i : Nat) (h : Half) (s : State) : (advance j i h s).mem = s.mem := rfl
@[simp] theorem advance_history (j i : Nat) (h : Half) (s : State) : (advance j i h s).history = s.history := rfl
@[simp] theorem advance_platform (j i : Nat) (h : Half) (s : State) : (advance j i h s).platform = s.platform := rfl
@[simp] theorem advance_inputs (j i : Nat) (h : Half) (s : State) : (advance j i h s).inputs = s.inputs := rfl
@[simp] theorem advance_lastRead (j i : Nat) (h : Half) (s : State) : (advance j i h s).lastRead = s.lastRead := rfl
@[simp] theorem advance_lastMemRead (j i : Nat) (h : Half) (s : State) : (advance j i h s).lastMemRead = s.lastMemRead := rfl

/-! ### writeStatus -/

@[simp] theorem writeStatus_cmd (v : Word) (s : State) : (writeStatus v s).cmd = s.cmd := rfl
@[simp] theorem writeStatus_done (v : Word) (s : State) : (writeStatus v s).done = (s.done && !v.getLsbD 1) := rfl
@[simp] theorem writeStatus_ovr (v : Word) (s : State) : (writeStatus v s).ovr = (s.ovr && !v.getLsbD 3) := rfl
@[simp] theorem writeStatus_errcode (v : Word) (s : State) : (writeStatus v s).errcode = s.errcode := rfl
@[simp] theorem writeStatus_doneie (v : Word) (s : State) : (writeStatus v s).doneie = s.doneie := rfl
@[simp] theorem writeStatus_ctr (v : Word) (s : State) : (writeStatus v s).ctr = s.ctr := rfl
@[simp] theorem writeStatus_keylen (v : Word) (s : State) : (writeStatus v s).keylen = s.keylen := rfl
@[simp] theorem writeStatus_noncelen (v : Word) (s : State) : (writeStatus v s).noncelen = s.noncelen := rfl
@[simp] theorem writeStatus_src (v : Word) (s : State) : (writeStatus v s).src = s.src := rfl
@[simp] theorem writeStatus_dst (v : Word) (s : State) : (writeStatus v s).dst = s.dst := rfl
@[simp] theorem writeStatus_len (v : Word) (s : State) : (writeStatus v s).len = s.len := rfl
@[simp] theorem writeStatus_key (v : Word) (s : State) : (writeStatus v s).key = s.key := rfl
@[simp] theorem writeStatus_nonce (v : Word) (s : State) : (writeStatus v s).nonce = s.nonce := rfl
@[simp] theorem writeStatus_cipher (v : Word) (s : State) : (writeStatus v s).cipher = s.cipher := rfl
@[simp] theorem writeStatus_ks (v : Word) (s : State) : (writeStatus v s).ks = s.ks := rfl
@[simp] theorem writeStatus_engine (v : Word) (s : State) : (writeStatus v s).engine = s.engine := rfl
@[simp] theorem writeStatus_mem (v : Word) (s : State) : (writeStatus v s).mem = s.mem := rfl
@[simp] theorem writeStatus_history (v : Word) (s : State) : (writeStatus v s).history = s.history := rfl
@[simp] theorem writeStatus_platform (v : Word) (s : State) : (writeStatus v s).platform = s.platform := rfl
@[simp] theorem writeStatus_inputs (v : Word) (s : State) : (writeStatus v s).inputs = s.inputs := rfl
@[simp] theorem writeStatus_lastRead (v : Word) (s : State) : (writeStatus v s).lastRead = s.lastRead := rfl
@[simp] theorem writeStatus_lastMemRead (v : Word) (s : State) : (writeStatus v s).lastMemRead = s.lastMemRead := rfl

/-! ### writeInten -/

@[simp] theorem writeInten_cmd (v : Word) (s : State) : (writeInten v s).cmd = s.cmd := rfl
@[simp] theorem writeInten_done (v : Word) (s : State) : (writeInten v s).done = s.done := rfl
@[simp] theorem writeInten_ovr (v : Word) (s : State) : (writeInten v s).ovr = s.ovr := rfl
@[simp] theorem writeInten_errcode (v : Word) (s : State) : (writeInten v s).errcode = s.errcode := rfl
@[simp] theorem writeInten_doneie (v : Word) (s : State) : (writeInten v s).doneie = v.getLsbD 0 := rfl
@[simp] theorem writeInten_ctr (v : Word) (s : State) : (writeInten v s).ctr = s.ctr := rfl
@[simp] theorem writeInten_keylen (v : Word) (s : State) : (writeInten v s).keylen = s.keylen := rfl
@[simp] theorem writeInten_noncelen (v : Word) (s : State) : (writeInten v s).noncelen = s.noncelen := rfl
@[simp] theorem writeInten_src (v : Word) (s : State) : (writeInten v s).src = s.src := rfl
@[simp] theorem writeInten_dst (v : Word) (s : State) : (writeInten v s).dst = s.dst := rfl
@[simp] theorem writeInten_len (v : Word) (s : State) : (writeInten v s).len = s.len := rfl
@[simp] theorem writeInten_key (v : Word) (s : State) : (writeInten v s).key = s.key := rfl
@[simp] theorem writeInten_nonce (v : Word) (s : State) : (writeInten v s).nonce = s.nonce := rfl
@[simp] theorem writeInten_cipher (v : Word) (s : State) : (writeInten v s).cipher = s.cipher := rfl
@[simp] theorem writeInten_ks (v : Word) (s : State) : (writeInten v s).ks = s.ks := rfl
@[simp] theorem writeInten_engine (v : Word) (s : State) : (writeInten v s).engine = s.engine := rfl
@[simp] theorem writeInten_mem (v : Word) (s : State) : (writeInten v s).mem = s.mem := rfl
@[simp] theorem writeInten_history (v : Word) (s : State) : (writeInten v s).history = s.history := rfl
@[simp] theorem writeInten_platform (v : Word) (s : State) : (writeInten v s).platform = s.platform := rfl
@[simp] theorem writeInten_inputs (v : Word) (s : State) : (writeInten v s).inputs = s.inputs := rfl
@[simp] theorem writeInten_lastRead (v : Word) (s : State) : (writeInten v s).lastRead = s.lastRead := rfl
@[simp] theorem writeInten_lastMemRead (v : Word) (s : State) : (writeInten v s).lastMemRead = s.lastMemRead := rfl

/-! ### agentMemRead -/

@[simp] theorem agentMemRead_cmd (a : Word) (s : State) : (agentMemRead a s).cmd = s.cmd := rfl
@[simp] theorem agentMemRead_done (a : Word) (s : State) : (agentMemRead a s).done = s.done := rfl
@[simp] theorem agentMemRead_ovr (a : Word) (s : State) : (agentMemRead a s).ovr = s.ovr := rfl
@[simp] theorem agentMemRead_errcode (a : Word) (s : State) : (agentMemRead a s).errcode = s.errcode := rfl
@[simp] theorem agentMemRead_doneie (a : Word) (s : State) : (agentMemRead a s).doneie = s.doneie := rfl
@[simp] theorem agentMemRead_ctr (a : Word) (s : State) : (agentMemRead a s).ctr = s.ctr := rfl
@[simp] theorem agentMemRead_keylen (a : Word) (s : State) : (agentMemRead a s).keylen = s.keylen := rfl
@[simp] theorem agentMemRead_noncelen (a : Word) (s : State) : (agentMemRead a s).noncelen = s.noncelen := rfl
@[simp] theorem agentMemRead_src (a : Word) (s : State) : (agentMemRead a s).src = s.src := rfl
@[simp] theorem agentMemRead_dst (a : Word) (s : State) : (agentMemRead a s).dst = s.dst := rfl
@[simp] theorem agentMemRead_len (a : Word) (s : State) : (agentMemRead a s).len = s.len := rfl
@[simp] theorem agentMemRead_key (a : Word) (s : State) : (agentMemRead a s).key = s.key := rfl
@[simp] theorem agentMemRead_nonce (a : Word) (s : State) : (agentMemRead a s).nonce = s.nonce := rfl
@[simp] theorem agentMemRead_cipher (a : Word) (s : State) : (agentMemRead a s).cipher = s.cipher := rfl
@[simp] theorem agentMemRead_ks (a : Word) (s : State) : (agentMemRead a s).ks = s.ks := rfl
@[simp] theorem agentMemRead_engine (a : Word) (s : State) : (agentMemRead a s).engine = s.engine := rfl
@[simp] theorem agentMemRead_mem (a : Word) (s : State) : (agentMemRead a s).mem = s.mem := rfl
@[simp] theorem agentMemRead_history (a : Word) (s : State) : (agentMemRead a s).history = s.history := rfl
@[simp] theorem agentMemRead_platform (a : Word) (s : State) : (agentMemRead a s).platform = s.platform := rfl
@[simp] theorem agentMemRead_inputs (a : Word) (s : State) : (agentMemRead a s).inputs = s.inputs := rfl
@[simp] theorem agentMemRead_lastRead (a : Word) (s : State) : (agentMemRead a s).lastRead = s.lastRead := rfl
@[simp] theorem agentMemRead_lastMemRead (a : Word) (s : State) : (agentMemRead a s).lastMemRead = some (s.byteAt a) := rfl

/-! ### agentMemWrite -/

@[simp] theorem agentMemWrite_cmd (a : Word) (v : Byte) (s : State) : (agentMemWrite a v s).cmd = s.cmd := rfl
@[simp] theorem agentMemWrite_done (a : Word) (v : Byte) (s : State) : (agentMemWrite a v s).done = s.done := rfl
@[simp] theorem agentMemWrite_ovr (a : Word) (v : Byte) (s : State) : (agentMemWrite a v s).ovr = s.ovr := rfl
@[simp] theorem agentMemWrite_errcode (a : Word) (v : Byte) (s : State) : (agentMemWrite a v s).errcode = s.errcode := rfl
@[simp] theorem agentMemWrite_doneie (a : Word) (v : Byte) (s : State) : (agentMemWrite a v s).doneie = s.doneie := rfl
@[simp] theorem agentMemWrite_ctr (a : Word) (v : Byte) (s : State) : (agentMemWrite a v s).ctr = s.ctr := rfl
@[simp] theorem agentMemWrite_keylen (a : Word) (v : Byte) (s : State) : (agentMemWrite a v s).keylen = s.keylen := rfl
@[simp] theorem agentMemWrite_noncelen (a : Word) (v : Byte) (s : State) : (agentMemWrite a v s).noncelen = s.noncelen := rfl
@[simp] theorem agentMemWrite_src (a : Word) (v : Byte) (s : State) : (agentMemWrite a v s).src = s.src := rfl
@[simp] theorem agentMemWrite_dst (a : Word) (v : Byte) (s : State) : (agentMemWrite a v s).dst = s.dst := rfl
@[simp] theorem agentMemWrite_len (a : Word) (v : Byte) (s : State) : (agentMemWrite a v s).len = s.len := rfl
@[simp] theorem agentMemWrite_key (a : Word) (v : Byte) (s : State) : (agentMemWrite a v s).key = s.key := rfl
@[simp] theorem agentMemWrite_nonce (a : Word) (v : Byte) (s : State) : (agentMemWrite a v s).nonce = s.nonce := rfl
@[simp] theorem agentMemWrite_cipher (a : Word) (v : Byte) (s : State) : (agentMemWrite a v s).cipher = s.cipher := rfl
@[simp] theorem agentMemWrite_ks (a : Word) (v : Byte) (s : State) : (agentMemWrite a v s).ks = s.ks := rfl
@[simp] theorem agentMemWrite_engine (a : Word) (v : Byte) (s : State) : (agentMemWrite a v s).engine = s.engine := rfl
@[simp] theorem agentMemWrite_mem (a : Word) (v : Byte) (s : State) : (agentMemWrite a v s).mem = Memory.write s.mem a.toNat v := rfl
@[simp] theorem agentMemWrite_history (a : Word) (v : Byte) (s : State) : (agentMemWrite a v s).history = s.history := rfl
@[simp] theorem agentMemWrite_platform (a : Word) (v : Byte) (s : State) : (agentMemWrite a v s).platform = s.platform := rfl
@[simp] theorem agentMemWrite_inputs (a : Word) (v : Byte) (s : State) : (agentMemWrite a v s).inputs = s.inputs := rfl
@[simp] theorem agentMemWrite_lastRead (a : Word) (v : Byte) (s : State) : (agentMemWrite a v s).lastRead = s.lastRead := rfl
@[simp] theorem agentMemWrite_lastMemRead (a : Word) (v : Byte) (s : State) : (agentMemWrite a v s).lastMemRead = s.lastMemRead := rfl

/-! ### setCipher -/

@[simp] theorem setCipher_cmd (x : CipherState) (s : State) : (setCipher x s).cmd = s.cmd := rfl
@[simp] theorem setCipher_done (x : CipherState) (s : State) : (setCipher x s).done = s.done := rfl
@[simp] theorem setCipher_ovr (x : CipherState) (s : State) : (setCipher x s).ovr = s.ovr := rfl
@[simp] theorem setCipher_errcode (x : CipherState) (s : State) : (setCipher x s).errcode = s.errcode := rfl
@[simp] theorem setCipher_doneie (x : CipherState) (s : State) : (setCipher x s).doneie = s.doneie := rfl
@[simp] theorem setCipher_ctr (x : CipherState) (s : State) : (setCipher x s).ctr = s.ctr := rfl
@[simp] theorem setCipher_keylen (x : CipherState) (s : State) : (setCipher x s).keylen = s.keylen := rfl
@[simp] theorem setCipher_noncelen (x : CipherState) (s : State) : (setCipher x s).noncelen = s.noncelen := rfl
@[simp] theorem setCipher_src (x : CipherState) (s : State) : (setCipher x s).src = s.src := rfl
@[simp] theorem setCipher_dst (x : CipherState) (s : State) : (setCipher x s).dst = s.dst := rfl
@[simp] theorem setCipher_len (x : CipherState) (s : State) : (setCipher x s).len = s.len := rfl
@[simp] theorem setCipher_key (x : CipherState) (s : State) : (setCipher x s).key = s.key := rfl
@[simp] theorem setCipher_nonce (x : CipherState) (s : State) : (setCipher x s).nonce = s.nonce := rfl
@[simp] theorem setCipher_cipher (x : CipherState) (s : State) : (setCipher x s).cipher = x := rfl
@[simp] theorem setCipher_ks (x : CipherState) (s : State) : (setCipher x s).ks = s.ks := rfl
@[simp] theorem setCipher_engine (x : CipherState) (s : State) : (setCipher x s).engine = s.engine := rfl
@[simp] theorem setCipher_mem (x : CipherState) (s : State) : (setCipher x s).mem = s.mem := rfl
@[simp] theorem setCipher_history (x : CipherState) (s : State) : (setCipher x s).history = s.history := rfl
@[simp] theorem setCipher_platform (x : CipherState) (s : State) : (setCipher x s).platform = s.platform := rfl
@[simp] theorem setCipher_inputs (x : CipherState) (s : State) : (setCipher x s).inputs = s.inputs := rfl
@[simp] theorem setCipher_lastRead (x : CipherState) (s : State) : (setCipher x s).lastRead = s.lastRead := rfl
@[simp] theorem setCipher_lastMemRead (x : CipherState) (s : State) : (setCipher x s).lastMemRead = s.lastMemRead := rfl

/-! ### setKs -/

@[simp] theorem setKs_cmd (x : CipherState) (s : State) : (setKs x s).cmd = s.cmd := rfl
@[simp] theorem setKs_done (x : CipherState) (s : State) : (setKs x s).done = s.done := rfl
@[simp] theorem setKs_ovr (x : CipherState) (s : State) : (setKs x s).ovr = s.ovr := rfl
@[simp] theorem setKs_errcode (x : CipherState) (s : State) : (setKs x s).errcode = s.errcode := rfl
@[simp] theorem setKs_doneie (x : CipherState) (s : State) : (setKs x s).doneie = s.doneie := rfl
@[simp] theorem setKs_ctr (x : CipherState) (s : State) : (setKs x s).ctr = s.ctr := rfl
@[simp] theorem setKs_keylen (x : CipherState) (s : State) : (setKs x s).keylen = s.keylen := rfl
@[simp] theorem setKs_noncelen (x : CipherState) (s : State) : (setKs x s).noncelen = s.noncelen := rfl
@[simp] theorem setKs_src (x : CipherState) (s : State) : (setKs x s).src = s.src := rfl
@[simp] theorem setKs_dst (x : CipherState) (s : State) : (setKs x s).dst = s.dst := rfl
@[simp] theorem setKs_len (x : CipherState) (s : State) : (setKs x s).len = s.len := rfl
@[simp] theorem setKs_key (x : CipherState) (s : State) : (setKs x s).key = s.key := rfl
@[simp] theorem setKs_nonce (x : CipherState) (s : State) : (setKs x s).nonce = s.nonce := rfl
@[simp] theorem setKs_cipher (x : CipherState) (s : State) : (setKs x s).cipher = s.cipher := rfl
@[simp] theorem setKs_ks (x : CipherState) (s : State) : (setKs x s).ks = x := rfl
@[simp] theorem setKs_engine (x : CipherState) (s : State) : (setKs x s).engine = s.engine := rfl
@[simp] theorem setKs_mem (x : CipherState) (s : State) : (setKs x s).mem = s.mem := rfl
@[simp] theorem setKs_history (x : CipherState) (s : State) : (setKs x s).history = s.history := rfl
@[simp] theorem setKs_platform (x : CipherState) (s : State) : (setKs x s).platform = s.platform := rfl
@[simp] theorem setKs_inputs (x : CipherState) (s : State) : (setKs x s).inputs = s.inputs := rfl
@[simp] theorem setKs_lastRead (x : CipherState) (s : State) : (setKs x s).lastRead = s.lastRead := rfl
@[simp] theorem setKs_lastMemRead (x : CipherState) (s : State) : (setKs x s).lastMemRead = s.lastMemRead := rfl

/-! ### resetCore -/

@[simp] theorem resetCore_cmd (s : State) : (resetCore s).cmd = (State.powerOn s.platform).cmd := rfl
@[simp] theorem resetCore_done (s : State) : (resetCore s).done = (State.powerOn s.platform).done := rfl
@[simp] theorem resetCore_ovr (s : State) : (resetCore s).ovr = (State.powerOn s.platform).ovr := rfl
@[simp] theorem resetCore_errcode (s : State) : (resetCore s).errcode = (State.powerOn s.platform).errcode := rfl
@[simp] theorem resetCore_doneie (s : State) : (resetCore s).doneie = (State.powerOn s.platform).doneie := rfl
@[simp] theorem resetCore_ctr (s : State) : (resetCore s).ctr = (State.powerOn s.platform).ctr := rfl
@[simp] theorem resetCore_keylen (s : State) : (resetCore s).keylen = (State.powerOn s.platform).keylen := rfl
@[simp] theorem resetCore_noncelen (s : State) : (resetCore s).noncelen = (State.powerOn s.platform).noncelen := rfl
@[simp] theorem resetCore_src (s : State) : (resetCore s).src = (State.powerOn s.platform).src := rfl
@[simp] theorem resetCore_dst (s : State) : (resetCore s).dst = (State.powerOn s.platform).dst := rfl
@[simp] theorem resetCore_len (s : State) : (resetCore s).len = (State.powerOn s.platform).len := rfl
@[simp] theorem resetCore_key (s : State) : (resetCore s).key = (State.powerOn s.platform).key := rfl
@[simp] theorem resetCore_nonce (s : State) : (resetCore s).nonce = (State.powerOn s.platform).nonce := rfl
@[simp] theorem resetCore_cipher (s : State) : (resetCore s).cipher = (State.powerOn s.platform).cipher := rfl
@[simp] theorem resetCore_ks (s : State) : (resetCore s).ks = (State.powerOn s.platform).ks := rfl
@[simp] theorem resetCore_engine (s : State) : (resetCore s).engine = (State.powerOn s.platform).engine := rfl
@[simp] theorem resetCore_mem (s : State) : (resetCore s).mem = s.mem := rfl
@[simp] theorem resetCore_history (s : State) : (resetCore s).history = (State.powerOn s.platform).history := rfl
@[simp] theorem resetCore_platform (s : State) : (resetCore s).platform = (State.powerOn s.platform).platform := rfl
@[simp] theorem resetCore_inputs (s : State) : (resetCore s).inputs = s.inputs := rfl
@[simp] theorem resetCore_lastRead (s : State) : (resetCore s).lastRead = s.lastRead := rfl
@[simp] theorem resetCore_lastMemRead (s : State) : (resetCore s).lastMemRead = s.lastMemRead := rfl

/-! ### BUSY, and the hidden state of a fresh engine -/

theorem busy_iff (s : State) : s.busy = true ↔ s.engine.phase = .busy := by simp [State.busy]
theorem not_busy_iff (s : State) : s.busy = false ↔ s.engine.phase = .idle := by
  cases h : s.engine.phase <;> simp [State.busy, h]
@[simp] theorem accept_busy (w : Word) (s : State) : (accept w s).busy = true := rfl
@[simp] theorem complete_busy (c : Option CmdError) (s : State) : (complete c s).busy = false := rfl
@[simp] theorem resetCore_busy (s : State) : (resetCore s).busy = false := rfl
@[simp] theorem fresh_phase (p : Phase) (w : Word) : (Engine.fresh p w).phase = p := rfl
@[simp] theorem fresh_cur (p : Phase) (w : Word) : (Engine.fresh p w).cur = w := rfl
@[simp] theorem fresh_j (p : Phase) (w : Word) : (Engine.fresh p w).j = 0 := rfl
@[simp] theorem fresh_i (p : Phase) (w : Word) : (Engine.fresh p w).i = 0 := rfl
@[simp] theorem fresh_sub (p : Phase) (w : Word) : (Engine.fresh p w).sub = .read := rfl

end Machine
end Sys2Proof
end

