-- ==== Sys2Proof/Laws/Memory.lean ====
section
/-! SUPPORT. The laws of memory: read after write, a write leaves every other address alone, and every operation
keeps the canonical form. -/

namespace Sys2Proof
namespace Memory

@[simp] theorem read_nil (a : Nat) : read [] a = unlisted := rfl

theorem read_cons (c : Host.Cell) (m : Memory) (a : Nat) :
    read (c :: m) a = if c.1 = a then c.2 else read m a := rfl

theorem read_erase_same (m : Memory) (a : Nat) : read (m.erase a) a = unlisted := by
  induction m with
  | nil => rfl
  | cons c m ih =>
    by_cases h : c.1 = a
    · simpa [erase, h] using ih
    · simpa [erase, h, read_cons] using ih

theorem read_erase_other {a b : Nat} (h : b ≠ a) (m : Memory) : read (m.erase a) b = read m b := by
  induction m with
  | nil => rfl
  | cons c m ih =>
    by_cases hc : c.1 = a
    · have hb : ¬ a = b := fun e => h e.symm
      simpa [erase, hc, read_cons, hb] using ih
    · by_cases hb : c.1 = b
      · subst hb; simp [erase, hc, read_cons]
      · simpa [erase, hc, read_cons, hb] using ih

theorem read_insert_other {a b : Nat} (h : b ≠ a) (v : Byte) (m : Memory) : read (insert a v m) b = read m b := by
  have hb : ¬ a = b := fun e => h e.symm
  induction m with
  | nil => simp [insert, read_cons, hb]
  | cons c m ih =>
    by_cases hlt : a < c.1
    · simp [insert, hlt, read_cons, hb]
    · simp [insert, hlt, read_cons, ih]

theorem read_insert_same (a : Nat) (v : Byte) (m : Memory) (h : ∀ c ∈ m, c.1 ≠ a) :
    read (insert a v m) a = v := by
  induction m with
  | nil => simp [insert, read_cons]
  | cons c m ih =>
    by_cases hlt : a < c.1
    · simp [insert, hlt, read_cons]
    · have hc : c.1 ≠ a := h c (by simp)
      simp [insert, hlt, read_cons, hc, ih fun d hd => h d (by simp [hd])]

theorem erase_keys (m : Memory) (a : Nat) : ∀ c ∈ m.erase a, c.1 ≠ a := by
  intro c hc; simpa [erase] using (List.mem_filter.mp hc).2

/-- Read after write to the same address, on every memory, canonical or not. -/
@[simp] theorem read_write_same (m : Memory) (a : Nat) (v : Byte) : read (m.write a v) a = v := by
  by_cases h : v = unlisted
  · simp [write, h, read_erase_same]
  · simp [write, h, read_insert_same a v _ (erase_keys m a)]

/-- A write leaves every other address alone, on every memory, canonical or not. -/
theorem read_write_other {a b : Nat} (h : b ≠ a) (m : Memory) (v : Byte) : read (m.write a v) b = read m b := by
  by_cases hv : v = unlisted
  · simp [write, hv, read_erase_other h]
  · simp [write, hv, read_insert_other h, read_erase_other h]

theorem read_write (m : Memory) (a b : Nat) (v : Byte) :
    read (m.write a v) b = if b = a then v else read m b := by
  by_cases h : b = a
  · subst h; simp
  · simp [h, read_write_other h]

theorem wf_nil : wf [] := by simp [wf]

theorem wf_erase {m : Memory} (h : wf m) (a : Nat) : wf (m.erase a) :=
  ⟨h.1.filter _, fun c hc => h.2 c (List.mem_filter.mp hc).1⟩

theorem mem_insert (a : Nat) (v : Byte) (m : Memory) (c : Host.Cell) :
    c ∈ insert a v m ↔ c = (a, v) ∨ c ∈ m := by
  induction m with
  | nil => simp [insert]
  | cons d m ih =>
    by_cases hlt : a < d.1
    · simp [insert, hlt]
    · simp [insert, hlt, ih]; tauto

theorem pairwise_insert {m : Memory} (a : Nat) (v : Byte) (h : m.Pairwise fun c d => c.1 < d.1)
    (hk : ∀ c ∈ m, c.1 ≠ a) : (insert a v m).Pairwise fun c d => c.1 < d.1 := by
  induction m with
  | nil => simp [insert]
  | cons d m ih =>
    have hd := List.pairwise_cons.mp h
    by_cases hlt : a < d.1
    · simp only [insert, hlt, if_true]
      refine List.pairwise_cons.mpr ⟨fun e he => ?_, h⟩
      rcases List.mem_cons.mp he with rfl | he
      · exact hlt
      · exact lt_trans hlt (hd.1 e he)
    · simp only [insert, hlt, if_false]
      refine List.pairwise_cons.mpr ⟨fun e he => ?_, ih hd.2 fun c hc => hk c (by simp [hc])⟩
      rcases (mem_insert a v m e).mp he with rfl | he
      · exact lt_of_le_of_ne (not_lt.mp hlt) (hk d (by simp))
      · exact hd.1 e he

/-- Every write to an address of memory-port space keeps the canonical form. -/
theorem wf_write {m : Memory} (h : wf m) {a : Nat} (ha : a < 2 ^ 32) (v : Byte) : wf (m.write a v) := by
  by_cases hv : v = unlisted
  · simpa [write, hv] using wf_erase h a
  · have he := wf_erase h a
    rw [write, if_neg hv]
    refine ⟨pairwise_insert a v he.1 (erase_keys m a), fun c hc => ?_⟩
    rcases (mem_insert a v _ c).mp hc with rfl | hc
    · exact ⟨ha, hv⟩
    · exact he.2 c hc

/-- In canonical form a memory is what it reads as: two that read alike at every address are equal. -/
theorem ext_of_read {m m' : Memory} (h : wf m) (h' : wf m') (hr : ∀ a, read m a = read m' a) : m = m' := by
  have key : ∀ (m : Memory) (c : Host.Cell), (∀ d ∈ m, c.1 < d.1) → ∀ a ≤ c.1, read m a = unlisted := by
    intro m
    induction m with
    | nil => simp
    | cons d m ih =>
      intro c hc a ha
      have hd : c.1 < d.1 := hc d (by simp)
      have : d.1 ≠ a := by omega
      simp [read_cons, this, ih c (fun e he => hc e (by simp [he])) a ha]
  induction m generalizing m' with
  | nil =>
    cases m' with
    | nil => rfl
    | cons c m' =>
      have := hr c.1
      simp [read_cons] at this
      exact absurd this.symm (h'.2 c (by simp)).2
  | cons c m ih =>
    cases m' with
    | nil =>
      have := hr c.1
      simp [read_cons] at this
      exact absurd this (h.2 c (by simp)).2
    | cons c' m' =>
      have hp := List.pairwise_cons.mp h.1
      have hp' := List.pairwise_cons.mp h'.1
      have hcv := (h.2 c (by simp)).2
      have hcv' := (h'.2 c' (by simp)).2
      have hk : c.1 = c'.1 := by
        rcases lt_trichotomy c.1 c'.1 with hlt | heq | hlt
        · have h1 := hr c.1
          have : c'.1 ≠ c.1 := by omega
          rw [read_cons, read_cons, if_pos rfl, if_neg this,
            key m' c' hp'.1 c.1 hlt.le] at h1
          exact absurd h1 hcv
        · exact heq
        · have h1 := hr c'.1
          have : c.1 ≠ c'.1 := by omega
          rw [read_cons, read_cons, if_pos rfl, if_neg this,
            key m c hp.1 c'.1 hlt.le] at h1
          exact absurd h1.symm hcv'
      have hv : c.2 = c'.2 := by
        have h1 := hr c.1
        simpa [read_cons, hk] using h1
      have hc : c = c' := Prod.ext hk hv
      subst hc
      have hrest : m = m' := by
        refine ih ⟨hp.2, fun d hd => h.2 d (by simp [hd])⟩ ⟨hp'.2, fun d hd => h'.2 d (by simp [hd])⟩ fun a => ?_
        by_cases ha : c.1 = a
        · subst ha
          rw [key m c hp.1 c.1 le_rfl, key m' c hp'.1 c.1 le_rfl]
        · simpa [read_cons, ha] using hr a
      rw [hrest]

end Memory

namespace Machine

@[simp] theorem memRead_byteAt (a b : Word) (s : State) : (memRead a s).byteAt b = s.byteAt b := rfl

theorem memWrite_byteAt (a b : Word) (v : Byte) (s : State) :
    (memWrite a v s).byteAt b = if b = a then v else s.byteAt b := by
  by_cases h : b = a
  · subst h; simp [State.byteAt]
  · simp [State.byteAt, h, Memory.read_write_other (fun e => h (BitVec.eq_of_toNat_eq e))]

theorem agentMemWrite_byteAt (a b : Word) (v : Byte) (s : State) :
    (agentMemWrite a v s).byteAt b = if b = a then v else s.byteAt b := memWrite_byteAt a b v s

end Machine
end Sys2Proof
end

