-- ==== Sys2Proof/Laws/Exec.lean ====
section
/-! SUPPORT. What each shared operation and each engine step can do, said once: inversion lemmas for the meanings
and for `step`, and the frame every engine step keeps. -/

namespace Sys2Proof
namespace Machine

/-! ### Frames of the shared operations -/

theorem SameOperands.rfl' (s : State) : SameOperands s s := ⟨rfl, rfl, rfl, rfl, rfl, rfl, rfl, rfl⟩

theorem CommandFrame.rfl' (s : State) : CommandFrame s s :=
  ⟨rfl, rfl, rfl, SameOperands.rfl' s, rfl, rfl, rfl, rfl⟩

theorem SameOperands.trans' {s t u : State} (h : SameOperands s t) (h' : SameOperands t u) : SameOperands s u :=
  ⟨h'.1.trans h.1, h'.2.trans h.2, h'.3.trans h.3, h'.4.trans h.4, h'.5.trans h.5, h'.6.trans h.6,
    h'.7.trans h.7, h'.8.trans h.8⟩

theorem CommandFrame.trans' {s t u : State} (h : CommandFrame s t) (h' : CommandFrame t u) : CommandFrame s u :=
  ⟨h'.1.trans h.1, h'.2.trans h.2, h'.3.trans h.3, h.4.trans' h'.4, h'.5.trans h.5, h'.6.trans h.6,
    h'.7.trans h.7, h'.8.trans h.8⟩

theorem NoMemoryAccess.of_eq {s t : State} (hh : t.history = s.history) (hm : t.mem = s.mem) : NoMemoryAccess s t :=
  ⟨hh, fun a => by simp only [State.byteAt, hm]⟩

theorem complete_frame (c : Option CmdError) (s : State) : CommandFrame s (complete c s) :=
  ⟨rfl, rfl, rfl, ⟨rfl, rfl, rfl, rfl, rfl, rfl, rfl, rfl⟩, rfl, rfl, rfl, rfl⟩

theorem raiseError_frame (e : CmdError) (s : State) : CommandFrame s (raiseError e s) := complete_frame _ s

/-- Completing after the command's results are in place keeps what putting them in place kept. -/
theorem complete_frame_of {s u : State} (h : CommandFrame s u) (c : Option CmdError) :
    CommandFrame s (complete c u) := h.trans' (complete_frame c u)

theorem setCipher_frame (s : State) (x : CipherState) : CommandFrame s (setCipher x s) := by
  constructor <;> first | rfl | (constructor <;> rfl)

theorem setKs_frame (s : State) (x : CipherState) : CommandFrame s (setKs x s) := by
  constructor <;> first | rfl | (constructor <;> rfl)

theorem setEngine_frame (s : State) (e : Engine) : CommandFrame s { s with engine := e } := by
  constructor <;> first | rfl | (constructor <;> rfl)

theorem computeBlock_frame (c : Word) (s : State) : CommandFrame s (computeBlock c s) := setEngine_frame s _

theorem startBlock_frame (j : Nat) (s : State) : CommandFrame s (startBlock j s) :=
  (computeBlock_frame _ s).trans' (setEngine_frame _ _)

theorem advance_frame (j i : Nat) (h : Half) (s : State) : CommandFrame s (advance j i h s) := setEngine_frame s _

theorem memRead_frame (a : Word) (s : State) : CommandFrame s (memRead a s) := by
  constructor <;> first | rfl | (constructor <;> rfl)

theorem memWrite_frame (a : Word) (v : Byte) (s : State) : CommandFrame s (memWrite a v s) := by
  constructor <;> first | rfl | (constructor <;> rfl)

theorem complete_completed (c : Option CmdError) (s : State) : CompletedWith c (complete c s) := ⟨rfl, rfl, rfl⟩

/-! ### validate -/

theorem validate_none_iff (s : State) : validate s = none ↔ s.keylen = 32 ∧ s.noncelen = 12 := by
  unfold validate Config.keyBytes Config.nonceBytes
  split_ifs with h1 h2 <;> simp_all

theorem validate_some_iff (s : State) (e : CmdError) :
    validate s = some e ↔
      (s.keylen ≠ 32 ∧ e = .invalidKeyLength) ∨ (s.keylen = 32 ∧ s.noncelen ≠ 12 ∧ e = .invalidNonceLength) := by
  unfold validate Config.keyBytes Config.nonceBytes
  split_ifs with h1 h2 <;> simp_all [eq_comm]

theorem withValidated_none {s : State} (h : validate s = none) (body : State → Host.Outcome State Fault Refusal) :
    withValidated s body = body s := by simp [withValidated, h]

theorem withValidated_some {s : State} {e : CmdError} (h : validate s = some e)
    (body : State → Host.Outcome State Fault Refusal) : withValidated s body = .next (raiseError e s) := by
  simp [withValidated, h]

/-! ### The engine's steps -/

/-- One step of a validated PROCESS is one of these, and it is decided by the pending event and MEM_ADMIT. -/
theorem processStep_cases (s : State) :
    (∃ j i, pendingProcessEvent s = .read j i ∧ memAdmit s.platform .read (byteAddr s.src j i) = true ∧
      processStep s = .next (processRead j i s)) ∨
    (∃ j i, pendingProcessEvent s = .write j i ∧ memAdmit s.platform .write (byteAddr s.dst j i) = true ∧
      processStep s = .next (processWrite j i s)) ∨
    (pendingProcessEvent s = .finish ∧ processStep s = .next (processFinish s)) ∨
    (processStep s = .next s ∧
      ((∃ j i, pendingProcessEvent s = .read j i ∧ memAdmit s.platform .read (byteAddr s.src j i) = false) ∨
       (∃ j i, pendingProcessEvent s = .write j i ∧ memAdmit s.platform .write (byteAddr s.dst j i) = false))) := by
  unfold processStep
  cases h : pendingProcessEvent s with
  | read j i =>
    cases ha : memAdmit s.platform .read (byteAddr s.src j i) with
    | true => exact .inl ⟨j, i, rfl, ha, by simp [ha]⟩
    | false => exact .inr (.inr (.inr ⟨by simp [ha], .inl ⟨j, i, rfl, ha⟩⟩))
  | write j i =>
    cases ha : memAdmit s.platform .write (byteAddr s.dst j i) with
    | true => exact .inr (.inl ⟨j, i, rfl, ha, by simp [ha]⟩)
    | false => exact .inr (.inr (.inr ⟨by simp [ha], .inr ⟨j, i, rfl, ha⟩⟩))
  | finish => exact .inr (.inr (.inl ⟨rfl, rfl⟩))

/-- Starting a block touches the hidden words `w`, `o`, `kb` and nothing else. -/
theorem startBlock_spec (j : Nat) (s : State) :
    startBlock j s = { s with engine := { s.engine with
      o := regsState s (blockCounter s.ctr j), w := permute (regsState s (blockCounter s.ctr j)),
      kb := keystreamBlock s j } } := by
  unfold startBlock computeBlock keystreamBlock chachaBlock Engine.blockWords regsState
  rfl

/-- The state after a read event, field by field. -/
theorem processRead_spec (j i : Nat) (s : State) :
    CommandFrame s (processRead j i s) ∧ StillRunning s (processRead j i s) ∧
    (processRead j i s).mem = s.mem ∧
    (processRead j i s).history = s.history ++ [⟨.read, byteAddr s.src j i, s.byteAt (byteAddr s.src j i)⟩] ∧
    (processRead j i s).engine.j = BitVec.ofNat 32 j ∧ (processRead j i s).engine.i = i + 1 ∧
    (processRead j i s).engine.sub = .read ∧
    (processRead j i s).engine.ib = s.engine.ib.setIfInBounds i (s.byteAt (byteAddr s.src j i)) ∧
    (processRead j i s).engine.kb = if i = 0 then keystreamBlock s j else s.engine.kb := by
  by_cases h : i = 0
  · subst h
    simp only [processRead, startBlock_spec, if_true]
    exact ⟨((setEngine_frame s _).trans' (memRead_frame _ _)).trans'
        ((setEngine_frame _ _).trans' (advance_frame _ _ _ _)),
      ⟨rfl, rfl, rfl, rfl, rfl, rfl⟩, rfl, rfl, rfl, rfl, rfl, rfl, rfl⟩
  · simp only [processRead, if_neg h]
    exact ⟨(memRead_frame _ _).trans' ((setEngine_frame _ _).trans' (advance_frame _ _ _ _)),
      ⟨rfl, rfl, rfl, rfl, rfl, rfl⟩, rfl, rfl, rfl, rfl, rfl, rfl, rfl⟩

/-- The byte a write event stores: `ib[i] ^ kb[i]` (R553). -/
def outputByte (s : State) (i : Nat) : Byte := s.engine.ib.getD i 0 ^^^ s.engine.kb.getD i 0

/-- The state after a write event, field by field. -/
theorem processWrite_spec (j i : Nat) (s : State) :
    CommandFrame s (processWrite j i s) ∧ StillRunning s (processWrite j i s) ∧
    (processWrite j i s).mem = Memory.write s.mem (byteAddr s.dst j i).toNat (outputByte s i) ∧
    (processWrite j i s).history = s.history ++ [⟨.write, byteAddr s.dst j i, outputByte s i⟩] ∧
    (processWrite j i s).engine.j = BitVec.ofNat 32 j ∧ (processWrite j i s).engine.i = i + 1 ∧
    (processWrite j i s).engine.sub = .write ∧
    (processWrite j i s).engine.ib = s.engine.ib ∧ (processWrite j i s).engine.kb = s.engine.kb := by
  simp only [processWrite]
  exact ⟨(memWrite_frame _ _ _).trans' (advance_frame _ _ _ _), ⟨rfl, rfl, rfl, rfl, rfl, rfl⟩,
    rfl, rfl, rfl, rfl, rfl, rfl, rfl⟩

theorem processFinish_frame (s : State) : CommandFrame s (processFinish s) :=
  complete_frame_of (setKs_frame s _) none

/-! ### The four register-only commands with legal lengths -/

theorem execBuild_valid {s : State} (h : validate s = none) :
    exec .build s = .next (complete none (setCipher (regsState s s.ctr) s)) := by
  simp only [exec, execBuild, withValidated_none h]

theorem exec_qround (a b c d : Fin 16) (s : State) :
    exec (.qround a b c d) s = .next (complete none (setCipher (quarterRound s.cipher a b c d) s)) := by
  simp only [exec, execQround]

theorem exec_dround (s : State) :
    exec .dround s = .next (complete none (setCipher (doubleRound s.cipher) s)) := by
  simp only [exec, execDround]

/-- The state BLOCK completes from: the hidden words computed and KS written. -/
def blockResult (s : State) : State :=
  setKs (feedForward (permute (regsState s s.ctr)) (regsState s s.ctr)) (computeBlock s.ctr s)

theorem execBlock_valid {s : State} (h : validate s = none) :
    exec .block s = .next (complete none (blockResult s)) := by
  simp only [exec, execBlock, withValidated_none h, blockResult, blockWords_computeBlock]

theorem blockResult_frame (s : State) : CommandFrame s (blockResult s) :=
  (computeBlock_frame s.ctr s).trans' (setKs_frame _ _)

theorem execProcess_valid {s : State} (h : validate s = none) : exec .process s = processStep s := by
  simp only [exec, execProcess, withValidated_none h]

/-- BUILD, BLOCK and PROCESS with a wrong length raise, and do nothing else. -/
theorem exec_invalid {s : State} {e : CmdError} (h : validate s = some e) {i : Instr}
    (hi : i = .build ∨ i = .block ∨ i = .process) : exec i s = .next (raiseError e s) := by
  rcases hi with rfl | rfl | rfl <;> simp only [exec, execBuild, execBlock, execProcess, withValidated_some h]

/-- Every command answers a next state, and that state keeps the frame every engine step keeps. -/
theorem exec_frame (i : Instr) (s : State) : ∃ t, exec i s = .next t ∧ CommandFrame s t := by
  cases hv : validate s with
  | some e =>
    cases i with
    | qround a b c d => exact ⟨_, exec_qround a b c d s, complete_frame_of (setCipher_frame s _) none⟩
    | dround => exact ⟨_, exec_dround s, complete_frame_of (setCipher_frame s _) none⟩
    | build => exact ⟨_, exec_invalid hv (by simp), raiseError_frame e s⟩
    | block => exact ⟨_, exec_invalid hv (by simp), raiseError_frame e s⟩
    | process => exact ⟨_, exec_invalid hv (by simp), raiseError_frame e s⟩
  | none =>
    cases i with
    | qround a b c d => exact ⟨_, exec_qround a b c d s, complete_frame_of (setCipher_frame s _) none⟩
    | dround => exact ⟨_, exec_dround s, complete_frame_of (setCipher_frame s _) none⟩
    | build => exact ⟨_, execBuild_valid hv, complete_frame_of (setCipher_frame s _) none⟩
    | block => exact ⟨_, execBlock_valid hv, complete_frame_of (blockResult_frame s) none⟩
    | process =>
      rw [execProcess_valid hv]
      rcases processStep_cases s with ⟨j, i, -, -, h⟩ | ⟨j, i, -, -, h⟩ | ⟨-, h⟩ | ⟨h, -⟩
      · exact ⟨_, h, (processRead_spec j i s).1⟩
      · exact ⟨_, h, (processWrite_spec j i s).1⟩
      · exact ⟨_, h, processFinish_frame s⟩
      · exact ⟨_, h, CommandFrame.rfl' s⟩

/-- The engine runs the decoded command. -/
theorem engineStep_ok {s : State} {i : Instr} (hb : s.busy = true) (hd : decode s.engine.cur = .ok i) :
    engineStep s = exec i s := by
  simp only [engineStep, (busy_iff s).mp hb, hd]

/-- The engine completes a word that decodes to none with IllegalCommand. -/
theorem engineStep_error {s : State} {e : IllegalWord} (hb : s.busy = true)
    (hd : decode s.engine.cur = .error e) : engineStep s = .next (raiseError .illegalCommand s) := by
  simp only [engineStep, (busy_iff s).mp hb, hd]

/-- An idle engine waits. -/
theorem engineStep_idle {s : State} (hb : s.busy = false) : engineStep s = .next s := by
  simp only [engineStep, (not_busy_iff s).mp hb]

/-- A step that ends the command: the engine is idle and DONE after it, memory and its history are as before. -/
structure EndsCommand (s t : State) : Prop where
  frame   : CommandFrame s t
  idle    : t.busy = false
  done    : t.done = true
  mem     : t.mem = s.mem
  history : t.history = s.history

theorem complete_ends {s u : State} (hf : CommandFrame s u) (hm : u.mem = s.mem) (hh : u.history = s.history)
    (c : Option CmdError) : EndsCommand s (complete c u) :=
  ⟨complete_frame_of hf c, rfl, rfl, hm, hh⟩

theorem setCipher_ends (x : CipherState) (c : Option CmdError) (s : State) :
    EndsCommand s (complete c (setCipher x s)) := complete_ends (u := setCipher x s) (setCipher_frame s x) rfl rfl c

theorem processFinish_ends (s : State) : EndsCommand s (processFinish s) :=
  complete_ends (setKs_frame s (Vector.replicate 16 0)) rfl rfl none

theorem blockResult_ends (s : State) : EndsCommand s (complete none (blockResult s)) :=
  complete_ends (blockResult_frame s) rfl rfl none

theorem raiseError_ends (e : CmdError) (s : State) : EndsCommand s (raiseError e s) :=
  complete_ends (CommandFrame.rfl' s) rfl rfl _

/-- What an engine step can do: wait while idle, make one memory event of PROCESS, stay stuck, or complete. -/
theorem engineStep_cases (s : State) :
    (s.busy = false ∧ engineStep s = .next s) ∨
    (s.busy = true ∧ decode s.engine.cur = .ok .process ∧ validate s = none ∧
      ((∃ j i, pendingProcessEvent s = .read j i ∧ memAdmit s.platform .read (byteAddr s.src j i) = true ∧
          engineStep s = .next (processRead j i s)) ∨
       (∃ j i, pendingProcessEvent s = .write j i ∧ memAdmit s.platform .write (byteAddr s.dst j i) = true ∧
          engineStep s = .next (processWrite j i s)) ∨
       engineStep s = .next s)) ∨
    (s.busy = true ∧ ∃ t, engineStep s = .next t ∧ EndsCommand s t) := by
  cases hb : s.busy with
  | false => exact .inl ⟨rfl, engineStep_idle hb⟩
  | true =>
    cases hd : decode s.engine.cur with
    | error e => exact .inr (.inr ⟨rfl, _, engineStep_error hb hd, raiseError_ends _ s⟩)
    | ok i =>
      rw [engineStep_ok hb hd]
      by_cases hq : i = .build ∨ i = .block ∨ i = .process
      · cases hv : validate s with
        | some e => exact .inr (.inr ⟨rfl, _, exec_invalid hv hq, raiseError_ends e s⟩)
        | none =>
          rcases hq with rfl | rfl | rfl
          · exact .inr (.inr ⟨rfl, _, execBuild_valid hv, setCipher_ends _ none s⟩)
          · exact .inr (.inr ⟨rfl, _, execBlock_valid hv, blockResult_ends s⟩)
          · rw [execProcess_valid hv]
            rcases processStep_cases s with ⟨j, i, h1, h2, h⟩ | ⟨j, i, h1, h2, h⟩ | ⟨-, h⟩ | ⟨h, -⟩
            · exact .inr (.inl ⟨rfl, rfl, rfl, .inl ⟨j, i, h1, h2, h⟩⟩)
            · exact .inr (.inl ⟨rfl, rfl, rfl, .inr (.inl ⟨j, i, h1, h2, h⟩)⟩)
            · exact .inr (.inr ⟨rfl, _, h, processFinish_ends s⟩)
            · exact .inr (.inl ⟨rfl, rfl, rfl, .inr (.inr h)⟩)
      · cases i with
        | build => simp at hq
        | block => simp at hq
        | process => simp at hq
        | qround a b c d =>
          exact .inr (.inr ⟨rfl, _, exec_qround a b c d s, setCipher_ends _ none s⟩)
        | dround =>
          exact .inr (.inr ⟨rfl, _, exec_dround s, setCipher_ends _ none s⟩)

/-- What an engine step can do to STATE, KS and ERRCODE: nothing, or, at a completion, STATE by BUILD, QROUND and DROUND,
KS by BLOCK and PROCESS, ERRCODE by each. -/
theorem engineStep_writers {s t : State} (h : engineStep s = .next t) :
    (t.cipher = s.cipher ∨ (s.busy = true ∧ t.busy = false ∧ t.errcode = none ∧ ∃ i, decode s.engine.cur = .ok i ∧
      (i = .build ∨ (∃ a b c d, i = .qround a b c d) ∨ i = .dround))) ∧
    (t.ks = s.ks ∨ (s.busy = true ∧ t.busy = false ∧ t.errcode = none ∧
      (decode s.engine.cur = .ok .block ∨ decode s.engine.cur = .ok .process))) ∧
    (t.errcode = s.errcode ∨ (s.busy = true ∧ t.busy = false ∧ t.done = true)) := by
  cases hb : s.busy with
  | false =>
    rw [engineStep_idle hb] at h; cases h
    exact ⟨.inl rfl, .inl rfl, .inl rfl⟩
  | true =>
    cases hd : decode s.engine.cur with
    | error e =>
      rw [engineStep_error hb hd] at h; cases h
      exact ⟨.inl rfl, .inl rfl, .inr ⟨rfl, rfl, rfl⟩⟩
    | ok i =>
      rw [engineStep_ok hb hd] at h
      by_cases hq : i = .build ∨ i = .block ∨ i = .process
      · cases hv : validate s with
        | some e =>
          rw [exec_invalid hv hq] at h; cases h
          exact ⟨.inl rfl, .inl rfl, .inr ⟨rfl, rfl, rfl⟩⟩
        | none =>
          rcases hq with rfl | rfl | rfl
          · rw [execBuild_valid hv] at h; cases h
            exact ⟨.inr ⟨rfl, rfl, rfl, _, rfl, .inl rfl⟩, .inl rfl, .inr ⟨rfl, rfl, rfl⟩⟩
          · rw [execBlock_valid hv] at h; cases h
            exact ⟨.inl rfl, .inr ⟨rfl, rfl, rfl, .inl rfl⟩, .inr ⟨rfl, rfl, rfl⟩⟩
          · rw [execProcess_valid hv] at h
            rcases processStep_cases s with ⟨j, i, -, -, h'⟩ | ⟨j, i, -, -, h'⟩ | ⟨-, h'⟩ | ⟨h', -⟩ <;>
              rw [h'] at h <;> cases h
            · have r := (processRead_spec j i s).2.1
              exact ⟨.inl r.cipher, .inl r.ks, .inl r.errcode⟩
            · have r := (processWrite_spec j i s).2.1
              exact ⟨.inl r.cipher, .inl r.ks, .inl r.errcode⟩
            · exact ⟨.inl rfl, .inr ⟨rfl, rfl, rfl, .inr rfl⟩, .inr ⟨rfl, rfl, rfl⟩⟩
            · exact ⟨.inl rfl, .inl rfl, .inl rfl⟩
      · cases i with
        | build => simp at hq
        | block => simp at hq
        | process => simp at hq
        | qround a b c d =>
          rw [exec_qround] at h; cases h
          exact ⟨.inr ⟨rfl, rfl, rfl, _, rfl, .inr (.inl ⟨a, b, c, d, rfl⟩)⟩, .inl rfl, .inr ⟨rfl, rfl, rfl⟩⟩
        | dround =>
          rw [exec_dround] at h; cases h
          exact ⟨.inr ⟨rfl, rfl, rfl, _, rfl, .inr (.inr rfl)⟩, .inl rfl, .inr ⟨rfl, rfl, rfl⟩⟩

/-- Every engine step answers a next state and keeps the command frame. -/
theorem engineStep_frame (s : State) : ∃ t, engineStep s = .next t ∧ CommandFrame s t := by
  rcases engineStep_cases s with ⟨-, h⟩ | ⟨-, -, -, ⟨j, i, -, -, h⟩ | ⟨j, i, -, -, h⟩ | h⟩ | ⟨-, t, h, he⟩
  · exact ⟨_, h, CommandFrame.rfl' s⟩
  · exact ⟨_, h, (processRead_spec j i s).1⟩
  · exact ⟨_, h, (processWrite_spec j i s).1⟩
  · exact ⟨_, h, CommandFrame.rfl' s⟩
  · exact ⟨t, h, he.frame⟩

/-! ### Host accesses -/

/-- A host access has no problem exactly when it is well-formed (R201, R620). -/
theorem accessProblem_none_iff (p : Platform) (a : Access) :
    accessProblem p a = none ↔ a.wellFormed p = true := by
  unfold accessProblem Access.wellFormed
  cases a.masterAdmitted p <;> cases a.wordWide <;> cases a.aligned <;> cases a.inWindow p <;> simp

theorem hostRead_wf {a : Access} {s : State} (h : a.wellFormed s.platform = true) :
    hostRead a s = .next { s with lastRead := some (readOffset s (a.addr - s.platform.base)) } := by
  simp [hostRead, (accessProblem_none_iff _ _).mpr h]

theorem hostWrite_wf {a : Access} {v : Word} {s : State} (h : a.wellFormed s.platform = true) :
    hostWrite a v s = .next (writeOffset (a.addr - s.platform.base) v s) := by
  simp [hostWrite, (accessProblem_none_iff _ _).mpr h]

/-- A host read that takes a step was well-formed and only records the value. -/
theorem hostRead_next {a : Access} {s t : State} (h : hostRead a s = .next t) :
    a.wellFormed s.platform = true ∧ t = { s with lastRead := some (readOffset s (a.addr - s.platform.base)) } := by
  unfold hostRead at h
  cases hp : accessProblem s.platform a with
  | some r => simp [hp] at h
  | none =>
    rw [hp] at h
    exact ⟨(accessProblem_none_iff _ _).mp hp, (Host.Outcome.next.inj h).symm⟩

/-- A host write that takes a step was well-formed. -/
theorem hostWrite_next {a : Access} {v : Word} {s t : State} (h : hostWrite a v s = .next t) :
    a.wellFormed s.platform = true ∧ t = writeOffset (a.addr - s.platform.base) v s := by
  unfold hostWrite at h
  cases hp : accessProblem s.platform a with
  | some r => simp [hp] at h
  | none =>
    rw [hp] at h
    exact ⟨(accessProblem_none_iff _ _).mp hp, (Host.Outcome.next.inj h).symm⟩

/-- The access by which an admitted master reaches a register is well-formed. -/
theorem access_wellFormed {p : Platform} {m : Nat} (h : m ∉ p.deniedMasters) (r : Reg) :
    (r.access p m).wellFormed p = true := by
  have ho : r.offset % 4 = 0 ∧ r.offset < 256 := by
    cases r <;> simp only [Reg.offset] <;> first | decide | omega
  simp [Access.wellFormed, Access.masterAdmitted, Access.wordWide, Access.aligned, Access.inWindow, Reg.access,
    Platform.base, Config.windowBytes, h]
  omega

/-- What a host write can do: nothing, drop a busy-locked write, accept a command, clear STATUS bits, set INTEN, or,
while idle, change one operand register or one word of STATE. -/
theorem writeOffset_cases (off : Nat) (v : Word) (s : State) :
    writeOffset off v s = s ∨
    (s.busy = true ∧ (∃ r, regAt off = some r ∧ r.busyLocked = true) ∧ writeOffset off v s = { s with ovr := true }) ∨
    (s.busy = false ∧ regAt off = some .cmd ∧ writeOffset off v s = accept v s) ∨
    (regAt off = some .status ∧ writeOffset off v s = writeStatus v s) ∨
    (regAt off = some .inten ∧ writeOffset off v s = writeInten v s) ∨
    (s.busy = false ∧ ∃ r, regAt off = some r ∧ r ≠ .cmd ∧ r.busyLocked = true ∧ writeOffset off v s = storeReg r v s) := by
  unfold writeOffset
  cases hr : regAt off with
  | none => exact .inl rfl
  | some r =>
    by_cases hk : r.busyLocked = true
    · cases hb : s.busy with
      | true => exact .inr (.inl ⟨rfl, ⟨r, rfl, hk⟩, by simp [writeReg, hk, hb]⟩)
      | false =>
        by_cases hc : r = .cmd
        · subst hc
          exact .inr (.inr (.inl ⟨rfl, rfl, by simp [writeReg, hb, storeReg]⟩))
        · exact .inr (.inr (.inr (.inr (.inr ⟨rfl, r, rfl, hc, hk, by simp [writeReg, hb]⟩))))
    · cases r <;> simp_all [Reg.busyLocked, writeReg, storeReg]

/-- A write of an operand register or of STATE leaves everything but those registers alone. -/
theorem storeReg_operand {r : Reg} (hc : r ≠ .cmd) (hk : r.busyLocked = true) (v : Word) (s : State) :
    (storeReg r v s).cmd = s.cmd ∧ (storeReg r v s).done = s.done ∧ (storeReg r v s).ovr = s.ovr ∧
    (storeReg r v s).errcode = s.errcode ∧ (storeReg r v s).doneie = s.doneie ∧ (storeReg r v s).ks = s.ks ∧
    (storeReg r v s).engine = s.engine ∧ (storeReg r v s).mem = s.mem ∧ (storeReg r v s).history = s.history ∧
    (storeReg r v s).platform = s.platform ∧ (storeReg r v s).inputs = s.inputs := by
  cases r <;> first | exact absurd rfl hc | exact absurd hk (by decide) | simp [storeReg]

/-- STATE takes a host write only through its own registers. -/
theorem storeReg_cipher {r : Reg} (h : ∀ i, r ≠ .state i) (v : Word) (s : State) :
    (storeReg r v s).cipher = s.cipher := by
  cases r <;> first | rfl | exact absurd rfl (h _)

/-! ### The whole step -/

/-- What a step can do, agent by agent: the engine's turn, a host read or write, a poll, reset, another agent's read
or write of memory. -/
theorem step_cases {s t : State} (h : step s = .next t) :
    (s.inputs = [] ∧ engineStep s = .next t) ∨
    (∃ rest, s.inputs = .core .engine :: rest ∧ engineStep { s with inputs := rest } = .next t) ∨
    (∃ a rest, s.inputs = .core (.read a) :: rest ∧ a.wellFormed s.platform = true ∧
      t = { s with inputs := rest, lastRead := some (readOffset s (a.addr - s.platform.base)) }) ∨
    (∃ a v rest, s.inputs = .core (.write a v) :: rest ∧ a.wellFormed s.platform = true ∧
      t = writeOffset (a.addr - s.platform.base) v { s with inputs := rest }) ∨
    (∃ m rest, s.inputs = .wait m :: rest ∧ m ∉ s.platform.deniedMasters ∧
      t = { s with lastRead := some (statusWord s)
                   inputs := if s.done then rest else .core .engine :: .wait m :: rest }) ∨
    (∃ met rest, s.inputs = .reset met :: rest ∧ t = resetCore { s with inputs := rest }) ∨
    (∃ a rest, s.inputs = .memRead a :: rest ∧ t = agentMemRead a { s with inputs := rest }) ∨
    (∃ a v rest, s.inputs = .memWrite a v :: rest ∧ t = agentMemWrite a v { s with inputs := rest }) := by
  unfold step at h
  cases hi : s.inputs with
  | nil => rw [hi] at h; exact .inl ⟨rfl, h⟩
  | cons x rest =>
    rw [hi] at h
    refine .inr ?_
    cases x with
    | core e =>
      cases e with
      | engine => exact .inl ⟨rest, rfl, h⟩
      | read a =>
        obtain ⟨hw, ht⟩ := hostRead_next h
        exact .inr (.inl ⟨a, rest, rfl, hw, ht⟩)
      | write a v =>
        obtain ⟨hw, ht⟩ := hostWrite_next h
        exact .inr (.inr (.inl ⟨a, v, rest, rfl, hw, ht⟩))
    | reset met => exact .inr (.inr (.inr (.inr (.inl ⟨met, rest, rfl, (Host.Outcome.next.inj h).symm⟩))))
    | wait m =>
      refine .inr (.inr (.inr (.inl ⟨m, rest, rfl, ?_⟩)))
      simp only [applyInput, hostWait] at h
      cases hr : hostRead (Reg.status.access s.platform m) { s with inputs := rest } with
      | next u =>
        rw [hr] at h
        obtain ⟨hw, rfl⟩ := hostRead_next hr
        have hm : m ∉ s.platform.deniedMasters := by
          intro hm
          simp [Access.wellFormed, Access.masterAdmitted, Reg.access, hm] at hw
        have ho : (Reg.status.access s.platform m).addr - s.platform.base = 4 := by simp [Reg.access, Reg.offset]
        have hv : ∀ rest', readOffset { s with inputs := rest' } 4 = statusWord s := fun _ => rfl
        refine ⟨hm, ?_⟩
        simp only [ho, hv] at h
        cases hd : s.done with
        | true => rw [hd] at h; rw [← Host.Outcome.next.inj h]; rfl
        | false => rw [hd] at h; rw [← Host.Outcome.next.inj h]; rfl
      | fault f => rw [hr] at h; exact absurd h (by simp)
      | refused r => rw [hr] at h; exact absurd h (by simp)
    | memRead a => exact .inr (.inr (.inr (.inr (.inr (.inl ⟨a, rest, rfl, (Host.Outcome.next.inj h).symm⟩)))))
    | memWrite a v =>
      exact .inr (.inr (.inr (.inr (.inr (.inr ⟨a, v, rest, rfl, (Host.Outcome.next.inj h).symm⟩)))))

/-! ### The step forward, by the first input -/

theorem step_alone {s : State} (hi : s.inputs = []) : step s = engineStep s := by
  rw [step, hi]

theorem step_engine {s : State} {rest : List Input} (hi : s.inputs = .core .engine :: rest) :
    step s = engineStep { s with inputs := rest } := by
  rw [step, hi]; rfl

theorem step_read {s : State} {a : Access} {rest : List Input} (hi : s.inputs = .core (.read a) :: rest) :
    step s = hostRead a { s with inputs := rest } := by
  rw [step, hi]; rfl

theorem step_write {s : State} {a : Access} {v : Word} {rest : List Input}
    (hi : s.inputs = .core (.write a v) :: rest) : step s = hostWrite a v { s with inputs := rest } := by
  rw [step, hi]; rfl

/-- A poll of an admitted master: STATUS is read, and the wait is over or polls again after the engine's turn. -/
theorem step_wait {s : State} {m : Nat} {rest : List Input} (hi : s.inputs = .wait m :: rest)
    (hm : m ∉ s.platform.deniedMasters) :
    step s = .next { s with lastRead := some (statusWord s)
                            inputs := if s.done then rest else .core .engine :: .wait m :: rest } := by
  have hr := hostRead_wf (s := { s with inputs := rest }) (access_wellFormed hm .status)
  have ho : (Reg.status.access s.platform m).addr - s.platform.base = 4 := by simp [Reg.access, Reg.offset]
  have hv : readOffset { s with inputs := rest } 4 = statusWord s := rfl
  rw [step, hi]
  simp only [applyInput, hostWait]
  rw [hr]
  simp only [ho, hv]
  cases s.done <;> rfl

/-- A write of an admitted master to a register is the register's write. -/
theorem step_write_reg {s : State} {m : Nat} {r : Reg} {v : Word} {rest : List Input}
    (hi : s.inputs = .core (.write (r.access s.platform m) v) :: rest) (hr : regAt r.offset = some r)
    (hm : m ∉ s.platform.deniedMasters) : step s = .next (writeReg r v { s with inputs := rest }) := by
  have ho : (r.access s.platform m).addr - s.platform.base = r.offset := by simp [Reg.access]
  rw [step_write hi, hostWrite_wf (s := { s with inputs := rest }) (access_wellFormed hm r)]
  simp only [ho, writeOffset, hr]

/-! ### Runs -/

theorem run_zero (s : State) : core.run 0 s = .next s := rfl

/-- The first step of a run. -/
theorem run_cons {s t : State} (h : step s = .next t) (n : Nat) : core.run (n + 1) s = core.run n t := by
  have h' : core.step s = .next t := h
  simp only [Host.Core.run, h']

/-- A run that goes on, split at its first step. -/
theorem run_succ_next {n : Nat} {s u : State} (h : core.run (n + 1) s = .next u) :
    ∃ t, step s = .next t ∧ core.run n t = .next u := by
  cases hs : step s with
  | next t => exact ⟨t, rfl, by rw [← run_cons hs]; exact h⟩
  | fault f => exact nomatch f
  | refused r =>
    have h' : core.step s = .refused r := hs
    simp [Host.Core.run, h'] at h

/-- The last step of a run. -/
theorem run_snoc {n : Nat} {s u v : State} (h : core.run n s = .next u) (hs : step u = .next v) :
    core.run (n + 1) s = .next v := by
  induction n generalizing s with
  | zero =>
    obtain rfl : s = u := Host.Outcome.next.inj h
    rw [run_cons hs]; rfl
  | succ n ih =>
    obtain ⟨t, ht, hr⟩ := run_succ_next h
    rw [run_cons ht]; exact ih hr

/-- Two runs, one after the other. -/
theorem run_add {n m : Nat} {s u v : State} (h : core.run n s = .next u) (h' : core.run m u = .next v) :
    core.run (n + m) s = .next v := by
  induction n generalizing s with
  | zero =>
    obtain rfl : s = u := Host.Outcome.next.inj h
    simpa using h'
  | succ n ih =>
    obtain ⟨t, ht, hr⟩ := run_succ_next h
    rw [Nat.add_right_comm, run_cons ht]; exact ih hr

end Machine
end Sys2Proof
end

