-- ==== Sys2Proof/Tests/Slice0.lean ====
section
/-! SUPPORT. The model's own tests: the smoke test of the checks, words written out from R301 and R306, one-step tests
with the values of 95_test_vectors.md (derived there from the rules, outside this model), and for every statement with
hypotheses a named state that meets them. -/

open Sys2Proof Sys2Proof.Machine

namespace Sys2Proof
namespace Tests

/-! ### Helpers -/

/-- Whether an outcome is a next state with the given property. -/
def nextWith (o : Host.Outcome State Fault Refusal) (f : State → Bool) : Bool :=
  match o with
  | .next t => f t
  | .fault _ => false
  | .refused _ => false

/-- The next state of an outcome, the reset state if there is none. -/
def nextOf (o : Host.Outcome State Fault Refusal) : State :=
  match o with
  | .next t => t
  | .fault _ => State.reset
  | .refused _ => State.reset

theorem eq_next {o : Host.Outcome State Fault Refusal} (h : nextWith o (fun _ => true) = true) :
    o = .next (nextOf o) := by
  cases o with
  | next t => rfl
  | fault f => exact nomatch f
  | refused r => exact absurd h (by simp [nextWith])

/-- The V1 registers of 95_test_vectors.md: key 00..1F, CTR = 1, legal lengths. -/
def v1 : State :=
  { State.reset with
    keylen := 32, noncelen := 12, ctr := 1
    key := #v[0x03020100, 0x07060504, 0x0b0a0908, 0x0f0e0d0c, 0x13121110, 0x17161514, 0x1b1a1918, 0x1f1e1d1c]
    nonce := #v[0x09000000, 0x4a000000, 0x00000000] }

/-- The V1 cipher state. -/
def v1State : CipherState :=
  #v[0x61707865, 0x3320646e, 0x79622d32, 0x6b206574, 0x03020100, 0x07060504, 0x0b0a0908, 0x0f0e0d0c,
     0x13121110, 0x17161514, 0x1b1a1918, 0x1f1e1d1c, 0x00000001, 0x09000000, 0x4a000000, 0x00000000]

/-- A PROCESS over two bytes, "La" of V14, just accepted, with the V14 registers. -/
def processStart : State :=
  accept 0x00000005
    { v1 with
      nonce := #v[0x00000000, 0x4a000000, 0x00000000]
      src := 0x1000, dst := 0x2000, len := 2
      mem := [(0x1000, 0x4c), (0x1001, 0x61)] }

/-- The state after `n` steps of a run. -/
def afterSteps (n : Nat) (s : State) : State := nextOf (core.run n s)

/-! ### The checks refuse ill-formed terms -/

/-- R620: a master that WINDOW_ACCESS keeps out. -/
theorem test_check_refuses_denied_master :
    Access.wellFormed { Platform.baseline with deniedMasters := [3] } { master := 3, addr := 0, width := 4 } = false := by
  decide

/-- R201: an access of another width. -/
theorem test_check_refuses_byte_access :
    Access.wellFormed Platform.baseline { master := 0, addr := 0, width := 1 } = false := by decide

/-- R201: an address that is not a multiple of 4, which would span two registers. -/
theorem test_check_refuses_misaligned_access :
    Access.wellFormed Platform.baseline { master := 0, addr := 2, width := 4 } = false := by decide

/-- R201: the first address above the window. -/
theorem test_check_refuses_outside_window :
    Access.wellFormed Platform.baseline { master := 0, addr := 0x100, width := 4 } = false := by decide

/-- R201: the last word below a window that does not start at 0. -/
theorem test_check_refuses_below_window :
    Access.wellFormed { Platform.baseline with basePage := 1 } { master := 0, addr := 0xFC, width := 4 } = false := by
  decide

/-- R201: the last word of the window is inside. -/
theorem test_check_takes_last_word :
    Access.wellFormed Platform.baseline { master := 0, addr := 0xFC, width := 4 } = true := by decide

/-- R306: 16 is no operand of the assembler. -/
theorem test_check_refuses_index_16 : AsmCommand.wellFormed (.qround 0 1 2 16) = false := by decide

/-- R302: every 4-bit operand is good, equal ones too. -/
theorem test_check_takes_every_index : Instr.wellFormed (.qround 15 15 0 15) = true := by decide

/-- A refused access takes no step, under its own name. -/
theorem test_misaligned_write_is_refused :
    hostWrite { master := 0, addr := 2, width := 4 } 5 State.reset = .refused .accessMisaligned := rfl

/-! ### Words written out bit by bit (R301, R303, R306) -/

theorem test_decode_build : decode 0b00000000000000000000000000000001 = .ok .build := by decide
/-- `qround 2, 7, 8, 13` = 0x00D87202, R306. -/
theorem test_decode_qround : decode 0b00000000110110000111001000000010 = .ok (.qround 2 7 8 13) := by decide
theorem test_decode_dround : decode 0b00000000000000000000000000000011 = .ok .dround := by decide
theorem test_decode_block : decode 0b00000000000000000000000000000100 = .ok .block := by decide
theorem test_decode_process : decode 0b00000000000000000000000000000101 = .ok .process := by decide

/-- V22: the legal neighbour 0x00F00002. -/
theorem test_decode_qround_last_index : decode 0x00F00002 = .ok (.qround 0 0 0 15) := by decide

/-- V22: every illegal word of the list. -/
theorem test_decode_illegal_words :
    decode 0x00000000 = .error .reservedOpcode ∧ decode 0x00000006 = .error .reservedOpcode ∧
    decode 0x0000000F = .error .reservedOpcode ∧ decode 0x00000011 = .error .reservedBits ∧
    decode 0x01000001 = .error .reservedBits ∧ decode 0x00000101 = .error .unusedOperand ∧
    decode 0x00300003 = .error .unusedOperand ∧ decode 0x80000002 = .error .reservedBits := by decide

/-- The encoder gives R306's worked encodings. -/
theorem test_encode_worked :
    encode (.qround 0 1 2 3) = 0x00321002 ∧ encode (.qround 2 7 8 13) = 0x00D87202 ∧
    encode (.qround 3 4 9 14) = 0x00E94302 := by decide

/-- The bytes of CMD, lowest address first (R202); fewer or more than four are no command. -/
theorem test_decode_bytes :
    decodeBytes [0x02, 0x72, 0xD8, 0x00] = .ok (.qround 2 7 8 13) ∧
    decodeBytes [0x01] = .error .notOneWord ∧ decodeBytes [] = .error .notOneWord := by decide

theorem test_table_word : decodeTableWord 32 0x00D87202 = some (.qround 2 7 8 13) := by decide

/-- R306: a mnemonic in either case, and an operand that is out of range. -/
theorem test_assemble_line :
    assembleLine ['Q', 'R', 'o', 'u', 'n', 'd', ' ', '2', ',', ' ', '7', ',', '8', ',', ' ', '1', '3'] = some 0x00D87202 ∧
    assembleLine ['b', 'l', 'o', 'c', 'k'] = some 0x00000004 ∧
    assembleLine ['q', 'r', 'o', 'u', 'n', 'd', ' ', '0', ',', '0', ',', '0', ',', '1', '6'] = none := by decide +kernel

/-! ### One step of each command, with the values of 95_test_vectors.md -/

/-- V1. -/
theorem test_build_v1 : nextWith (exec .build v1) (fun t => t.cipher == v1State && statusWord t == 0x2) = true := by
  decide +kernel

/-- V3: KEYLEN = 31 and NONCELEN = 13 report the key, and STATE stays. -/
theorem test_build_key_first :
    nextWith (exec .build { v1 with keylen := 31, noncelen := 13 })
      (fun t => statusWord t == 0x16 && t.cipher == Vector.replicate 16 0) = true := by decide +kernel

/-- V4. -/
theorem test_qround_v4 :
    nextWith (exec (.qround 0 1 2 3)
      (setCipher #v[0x11111111, 0x01020304, 0x9b8d6f43, 0x01234567, 4, 5, 6, 7, 8, 9, 10, 11, 12, 13, 14, 15] v1))
      (fun t => t.cipher ==
        (#v[0xea2a92f4, 0xcb1cf8ce, 0x4581472e, 0x5881c4bb, 4, 5, 6, 7, 8, 9, 10, 11, 12, 13, 14, 15] : CipherState))
      = true := by decide +kernel

/-- V6: `qround 0, 0, 1, 1`. -/
theorem test_qround_v6 :
    nextWith (exec (.qround 0 0 1 1)
      (setCipher #v[0x11111111, 0x01020304, 0, 0, 0, 0, 0, 0, 0, 0, 0, 0, 0, 0, 0, 0] v1))
      (fun t => t.cipher == (#v[0x4c6a8826, 0x8014991c, 0, 0, 0, 0, 0, 0, 0, 0, 0, 0, 0, 0, 0, 0] : CipherState))
      = true := by decide +kernel

/-- V10. -/
theorem test_dround_v10 :
    nextWith (exec .dround (setCipher v1State v1))
      (fun t => t.cipher ==
        (#v[0xcd52e917, 0x85ab03b4, 0xb3457395, 0xf96de7dd, 0xc4b7cd22, 0x5c2e187a, 0xc95eb461, 0x316c801a,
            0x7bf7d740, 0x7eddd644, 0xf1a1bdf5, 0x761246ca, 0x6b0d58a3, 0x6798471a, 0xd737f167, 0xf173888d] :
          CipherState)) = true := by decide +kernel

/-- V11. -/
theorem test_block_v11 :
    nextWith (exec .block v1)
      (fun t => t.ks ==
        (#v[0xe4e7f110, 0x15593bd1, 0x1fdd0f50, 0xc47120a3, 0xc7f4d1c7, 0x0368c033, 0x9aaa2204, 0x4e6cd4c3,
            0x466482d2, 0x09aa9f07, 0x05d7c214, 0xa2028bd9, 0xd19c12b5, 0xb94e16de, 0xe883d0cb, 0x4e3c50a2] :
          CipherState) && t.ctr == 1 && t.cipher == Vector.replicate 16 0) = true := by decide +kernel

/-- V13: NONCELEN = 0 reports code 2 and KS stays. -/
theorem test_block_noncelen :
    nextWith (exec .block { v1 with noncelen := 0 })
      (fun t => statusWord t == 0x26 && t.ks == Vector.replicate 16 0) = true := by decide +kernel

/-- V14: the first event of PROCESS reads the byte at SRC; the keystream starts 22 4f (0x4c ^ 0x6e, 0x61 ^ 0x2e). -/
theorem test_process_read_v14 :
    nextWith (exec .process processStart)
      (fun t => t.history == [{ kind := .read, addr := 0x1000, data := 0x4c }] && t.engine.i == 1 &&
        t.engine.kb[0] == 0x22 && t.engine.kb[1] == 0x4f) = true := by decide +kernel

/-- V14: a write event stores the input byte XOR its keystream byte, 61 ^ 4f = 2e, at DST + 1. -/
theorem test_process_write_v14 :
    nextWith (exec .process
      { processStart with engine := { processStart.engine with
          sub := .write, i := 1, kb := processStart.engine.kb.set 1 0x4f, ib := processStart.engine.ib.set 1 0x61 } })
      (fun t => t.byteAt 0x2001 == 0x2e && t.byteAt 0x1001 == 0x61 && t.busy) = true := by decide +kernel

/-! ### The window and the interrupt -/

/-- V22: 0x80000002 gives STATUS 0x36 and CMD the word. -/
theorem test_illegal_word :
    nextWith (engineStep (accept 0x80000002 State.reset)) (fun t => statusWord t == 0x36 && t.cmd == 0x80000002) = true := by
  decide

/-- V23: a busy-locked write while BUSY is dropped; STATUS reads 9 (BUSY, OVR). -/
theorem test_busy_lock :
    statusWord (writeReg .ctr 5 processStart) = 0x9 ∧ (writeReg .ctr 5 processStart).ctr = 1 := by decide

/-- V24: irq is low while BUSY, high after completion with DONEIE = 1, low after a STATUS write of 2. -/
theorem test_irq :
    irq { processStart with doneie := true } = false ∧ irq (complete none { processStart with doneie := true }) = true ∧
    irq (writeReg .status 2 (complete none { processStart with doneie := true })) = false := by decide

/-- V25: STATE0 and KS0 read 0 while BUSY, KEY0 always, and so does the reserved offset 0x024. -/
theorem test_reads_zero :
    readReg (setCipher v1State processStart) (.state 0) = 0 ∧ readReg processStart (.ks 0) = 0 ∧
    readReg v1 (.key 1) = 0 ∧ readOffset v1 0x024 = 0 := by decide

/-- Writing the value an unlisted byte reads as takes the cell away again. -/
theorem test_memory_canonical : Memory.write (Memory.write [] 5 7) 5 0 = [] := by decide

/-! ### Every statement's hypotheses can be met -/

/-- IllegalCommandHasNoOtherEffect, a word for each reason of R305. -/
theorem witness_illegal :
    ([(0x00000000 : Word), 0x00000006, 0x0000000F, 0x00000010, 0x01000002, 0x00000105].map decode =
      [.error .reservedOpcode, .error .reservedOpcode, .error .reservedOpcode, .error .reservedBits,
        .error .reservedBits, .error .unusedOperand]) ∧
    (∀ i, decode 0x00000105 ≠ .ok i) ∧ State.reset.busy = false := by
  have h : decode 0x00000105 = .error .unusedOperand := by decide
  exact ⟨by decide, fun i => by rw [h]; simp, by decide⟩

/-- WordTwelveIsTheCounter: the first read of block 0, and of block 1. -/
theorem witness_word_twelve :
    (validate processStart = none ∧ pendingProcessEvent processStart = .read 0 0 ∧
      memAdmit processStart.platform .read (byteAddr processStart.src 0 0) = true) ∧
    (∃ s : State, validate s = none ∧ pendingProcessEvent s = .read 1 0 ∧
      memAdmit s.platform .read (byteAddr s.src 1 0) = true) :=
  ⟨by decide, { processStart with len := 65, engine := { processStart.engine with i := 64, sub := .write } }, by decide⟩

/-- BuildWritesTheState, BlockWritesTheKeystream, WrongLengthsRaiseBeforeAnyWork: each clause at its boundary. -/
theorem witness_lengths :
    (v1.keylen = 32 ∧ v1.noncelen = 12) ∧
    ({ v1 with keylen := 31 } : State).keylen ≠ 32 ∧ ({ v1 with keylen := 33 } : State).keylen ≠ 32 ∧
    (({ v1 with noncelen := 11 } : State).keylen = 32 ∧ ({ v1 with noncelen := 11 } : State).noncelen ≠ 12) ∧
    (({ v1 with noncelen := 13 } : State).keylen = 32 ∧ ({ v1 with noncelen := 13 } : State).noncelen ≠ 12) := by decide

/-- QuarterRoundOnDistinctIndices, PermutationIsBijective, EqualIndicesNameOneWord. -/
theorem witness_distinct_indices :
    ∃ a b c d : Fin 16, a ≠ b ∧ a ≠ c ∧ a ≠ d ∧ b ≠ c ∧ b ≠ d ∧ c ≠ d := ⟨0, 4, 8, 12, by decide⟩

/-- QuarterRoundTouchesOnlyItsWords: an index outside the four, and two states that agree on the four only. -/
theorem witness_only_its_words :
    ((4 : Fin 16) ≠ 0 ∧ (4 : Fin 16) ≠ 1 ∧ (4 : Fin 16) ≠ 2 ∧ (4 : Fin 16) ≠ 3) ∧
    (∀ i : Fin 16, i = 0 ∨ i = 1 ∨ i = 2 ∨ i = 3 →
      CipherState.get v1State i = CipherState.get (CipherState.put v1State 4 7) i) := by decide

/-- OrderInsideARoundDoesNotMatter: disjoint indices, and an order other than R500's. -/
theorem witness_order :
    (∀ x ∈ [(0 : Fin 16), 4, 8, 12], ∀ y ∈ [(1 : Fin 16), 5, 9, 13], x ≠ y) ∧
    List.Perm [((3 : Fin 16), (7 : Fin 16), (11 : Fin 16), (15 : Fin 16)), (2, 6, 10, 14), (1, 5, 9, 13), (0, 4, 8, 12)]
      [(0, 4, 8, 12), (1, 5, 9, 13), (2, 6, 10, 14), (3, 7, 11, 15)] := by decide

/-- QroundMixesTheState and DroundMixesTheState, the all-zero clause. -/
theorem witness_zero_state : State.reset.cipher = Vector.replicate 16 0 := rfl

/-- EqualOperandsGiveEqualKeystream: two machines that differ elsewhere. -/
theorem witness_equal_operands :
    ∃ s s' t t' : State, s ≠ s' ∧ validate s = none ∧ validate s' = none ∧ s'.key = s.key ∧ s'.ctr = s.ctr ∧
      s'.nonce = s.nonce ∧ exec .block s = .next t ∧ exec .block s' = .next t' := by
  obtain ⟨t, ht, -⟩ := exec_frame .block v1
  obtain ⟨t', ht', -⟩ := exec_frame .block { v1 with src := 1 }
  exact ⟨v1, { v1 with src := 1 }, t, t', by decide, by decide, by decide, rfl, rfl, rfl, ht, ht'⟩

/-- BusyLock: a locked register while BUSY and while idle, and an idle write that is neither CMD nor STATUS. -/
theorem witness_busy_lock :
    (Reg.ctr.busyLocked = true ∧ processStart.busy = true) ∧
    ((Reg.state 15).busyLocked = true ∧ v1.busy = false ∧ Reg.state 15 ≠ .cmd ∧ ∀ k, Reg.state 15 ≠ .key k) ∧
    (Reg.ks 0 ≠ .cmd ∧ Reg.ks 0 ≠ .status) := by decide

/-- OperandsChangeOnlyByIdleHostWrite, CommandsArriveOnlyByCmdWrite, CmdWriteWhileIdleIsAcceptance: a CMD write of a
master that is let in, while idle, then while BUSY. -/
theorem witness_cmd_write :
    (∃ s t : State, s.busy = false ∧ (7 : Nat) ∉ s.platform.deniedMasters ∧
      s.inputs = [.core (.write (Reg.cmd.access s.platform 7) 0x00000003)] ∧
      step s = .next t ∧ t.cmd ≠ s.cmd ∧ t.busy = true) ∧
    (∃ s t : State, s.busy = true ∧ (7 : Nat) ∉ s.platform.deniedMasters ∧
      s.inputs = [.core (.write (Reg.cmd.access s.platform 7) 0x00000003)] ∧
      step s = .next t ∧ t.cmd = s.cmd ∧ s.ovr = false ∧ t.ovr = true) := by
  refine ⟨⟨{ v1 with inputs := [.core (.write (Reg.cmd.access Platform.baseline 7) 0x00000003)] }, _, by decide,
      by decide, rfl, rfl, by decide, by decide⟩,
    ⟨{ processStart with inputs := [.core (.write (Reg.cmd.access Platform.baseline 7) 0x00000003)] }, _, by decide,
      by decide, rfl, rfl, by decide, by decide, by decide⟩⟩

/-- OperandsChangeOnlyByIdleHostWrite: STATE changes by a host write and by a DROUND, KS by a completing PROCESS, ERRCODE by
a completion and by an acceptance. -/
theorem witness_writers :
    (∃ s t : State, step s = .next t ∧ s.busy = false ∧ t.cipher ≠ s.cipher) ∧
    (∃ s t : State, step s = .next t ∧ s.busy = true ∧ t.cipher ≠ s.cipher) ∧
    (∃ s t : State, step s = .next t ∧ s.busy = true ∧ t.ks ≠ s.ks) ∧
    (∃ s t : State, step s = .next t ∧ s.errcode = none ∧ t.errcode = some .illegalCommand) ∧
    (∃ s t : State, step s = .next t ∧ s.errcode = some .illegalCommand ∧ t.errcode = none) :=
  ⟨⟨{ v1 with inputs := [.core (.write ((Reg.state 3).access Platform.baseline 0) 1)] }, _, rfl, by decide, by decide⟩,
    ⟨accept 3 (setCipher v1State v1), _, eq_next (by decide +kernel), by decide, by decide +kernel⟩,
    ⟨accept 5 (setKs v1State v1), _, rfl, by decide, by decide⟩,
    ⟨accept 0 v1, _, rfl, by decide, by decide⟩,
    ⟨{ v1 with errcode := some .illegalCommand, inputs := [.core (.write (Reg.cmd.access Platform.baseline 0) 1)] }, _, rfl,
      by decide, by decide⟩⟩

/-- StatusFieldsAndWrites, OvrRisesAndFallsOnlyAsStated: OVR rises by a dropped write, and falls by a STATUS write of 8. -/
theorem witness_ovr :
    (∃ s t : State, step s = .next t ∧ s.ovr = false ∧ t.ovr = true) ∧
    (∃ s t : State, step s = .next t ∧ s.ovr = true ∧ t.ovr = false) := by
  refine ⟨⟨{ processStart with inputs := [.core (.write (Reg.len.access Platform.baseline 0) 1)] }, _, rfl, by decide,
    by decide⟩, ⟨{ v1 with ovr := true, inputs := [.core (.write (Reg.status.access Platform.baseline 0) 8)] }, _, rfl,
    by decide, by decide⟩⟩

/-- DoneRisesAndFallsOnlyAsStated: DONE rises at a completion, and falls by a STATUS write of 2. -/
theorem witness_done :
    (∃ s t : State, step s = .next t ∧ s.done = false ∧ t.done = true) ∧
    (∃ s t : State, step s = .next t ∧ s.done = true ∧ t.done = false) := by
  refine ⟨⟨accept 0 v1, _, rfl, by decide, by decide⟩,
    ⟨{ v1 with done := true, inputs := [.core (.write (Reg.status.access Platform.baseline 0) 2)] }, _, rfl,
      by decide, by decide⟩⟩

/-- InterruptIsDoneAndEnabled: a STATUS write with bit 1 = 1. -/
theorem witness_irq : (0x00000002 : Word).getLsbD 1 = true := by decide

/-- ReadsThatDiscloseNothing: a busy and an idle machine, and both ends of both reserved ranges. -/
theorem witness_reads :
    processStart.busy = true ∧ v1.busy = false ∧
    (∀ off ∈ [0x024, 0x03C, 0x06C, 0x07C], (0x024 ≤ off ∧ off ≤ 0x03C) ∨ (0x06C ≤ off ∧ off ≤ 0x07C)) := by decide

/-- OnlyInterfaceAccessesRun, ReadsAndRepeatedWritesAreIdempotent: a good access and a bad one. -/
theorem witness_access :
    (Reg.status.access v1.platform 0).wellFormed v1.platform = true ∧
    Access.wellFormed v1.platform { master := 0, addr := 0x101, width := 4 } = false ∧
    (∃ t, hostRead (Reg.status.access v1.platform 0) v1 = .next t) ∧ Reg.ctr ≠ .cmd ∧ v1.busy = false :=
  ⟨by decide, by decide, ⟨_, rfl⟩, by decide, by decide⟩

/-- OnlyForeignAccessesStop: a step that is refused. -/
theorem witness_refused :
    step { v1 with inputs := [.core (.read { master := 0, addr := 0x100, width := 4 })] } = .refused .outsideWindow := rfl

/-- StepRunsTheDecodedCommand, each clause. -/
theorem witness_step :
    (processStart.inputs = [] ∧ processStart.busy = true ∧ decode processStart.engine.cur = .ok .process) ∧
    ((State.withFetchWord v1 32 1).inputs = [.core .engine] ∧ (State.withFetchWord v1 32 1).busy = true ∧
      decode (State.withFetchWord v1 32 1).engine.cur = .ok .build) ∧
    (decode (accept 0 v1).engine.cur = .error .reservedOpcode) ∧ (v1.inputs = [] ∧ v1.busy = false) ∧
    ((State.withFetchWord v1 32 0).inputs = [.core .engine] ∧ (State.withFetchWord v1 32 0).busy = true ∧
      decode (State.withFetchWord v1 32 0).engine.cur = .error .reservedOpcode) ∧
    (∃ s : State, s.inputs = [.core .engine] ∧ s.busy = false) :=
  ⟨by decide, by decide, by decide, by decide, by decide, { v1 with inputs := [.core .engine] }, rfl, by decide⟩

/-- CommandsWithoutMemoryEventsTakeOneStep: a word that is no PROCESS, and a PROCESS over an empty input. -/
theorem witness_one_step :
    v1.inputs = [] ∧ decode 0x00000004 ≠ .ok .process ∧ (decode 0x00000005 = .ok .process ∧ v1.len = 0) := by decide

/-- ResetWinsAndClearsEverything: reset meets a CMD write. -/
theorem witness_reset :
    ({ v1 with inputs := [.reset (some (.write (Reg.cmd.access v1.platform 0) 1))] } : State).inputs =
      [.reset (some (.write (Reg.cmd.access v1.platform 0) 1))] := rfl

/-- CommandsAfterReset. -/
theorem witness_after_reset : ∃ a b c d : Fin 16, Instr.qround 0 0 0 15 = .qround a b c d := ⟨0, 0, 0, 15, rfl⟩

/-- ProcessReadsOneInputByte, OtherAgentsMeetTheEngineInOrder: the first read. -/
theorem witness_read :
    processStart.keylen = 32 ∧ processStart.noncelen = 12 ∧ pendingProcessEvent processStart = .read 0 0 ∧
    memAdmit processStart.platform .read (processStart.src + BitVec.ofNat 32 (64 * 0 + 0)) = true := by decide

/-- ProcessWritesOneOutputByte, OtherAgentsMeetTheEngineInOrder: the first write, two steps on. -/
theorem witness_write :
    (afterSteps 2 processStart).keylen = 32 ∧ (afterSteps 2 processStart).noncelen = 12 ∧
    pendingProcessEvent (afterSteps 2 processStart) = .write 0 0 ∧
    memAdmit (afterSteps 2 processStart).platform .write
      ((afterSteps 2 processStart).dst + BitVec.ofNat 32 (64 * 0 + 0)) = true := by decide +kernel

/-- The other positions: a read that is not a block's first, the last write of a full block, and a read in the second
block, which follows the first block's writes (R555). -/
theorem witness_positions :
    pendingProcessEvent { processStart with engine := { processStart.engine with i := 1 } } = .read 0 1 ∧
    pendingProcessEvent
      { processStart with len := 64, engine := { processStart.engine with i := 63, sub := .write } } = .write 0 63 ∧
    pendingProcessEvent
      { processStart with len := 65, engine := { processStart.engine with j := 0, i := 64, sub := .write } } = .read 1 0 := by
  decide

/-- ProcessCompletionZeroesKs: after the last write. -/
theorem witness_finish :
    (afterSteps 4 processStart).keylen = 32 ∧ (afterSteps 4 processStart).noncelen = 12 ∧
    pendingProcessEvent (afterSteps 4 processStart) = .finish := by decide +kernel

/-- RefusedAccessLeavesTheEngineStuck: a read and a write that the platform refuses, at the ends of a refused range. -/
theorem witness_stuck :
    (∃ s : State, s.inputs = [] ∧ s.busy = true ∧ s.done = false ∧ s.errcode = none ∧
      decode s.engine.cur = .ok .process ∧ s.keylen = 32 ∧ s.noncelen = 12 ∧ pendingProcessEvent s = .read 0 0 ∧
      memAdmit s.platform .read (byteAddr s.src 0 0) = false) ∧
    (∃ s : State, s.inputs = [] ∧ s.busy = true ∧ s.done = false ∧ s.errcode = none ∧
      decode s.engine.cur = .ok .process ∧ s.keylen = 32 ∧ s.noncelen = 12 ∧ pendingProcessEvent s = .write 0 0 ∧
      memAdmit s.platform .write (byteAddr s.dst 0 0) = false ∧
      memAdmit s.platform .read (byteAddr s.src 0 0) = true) := by
  refine ⟨⟨{ processStart with platform := { Platform.baseline with memRefused := [⟨.read, 0x0F00, 0x1000⟩] } }, ?_⟩,
    ⟨{ processStart with
        platform := { Platform.baseline with memRefused := [⟨.write, 0x2000, 0x2FFF⟩] }
        engine := { processStart.engine with i := 2 } }, ?_⟩⟩ <;> decide

/-- EmptyInputCompletesAtOnce: legal lengths, a wrong key length, a wrong nonce length. -/
theorem witness_empty :
    (v1.len = 0 ∧ (accept 5 v1).engine.j = 0 ∧ (accept 5 v1).engine.i = 0 ∧ (accept 5 v1).engine.sub = .read) ∧
    (∃ s : State, s.len = 0 ∧ s.engine.j = 0 ∧ s.engine.i = 0 ∧ s.engine.sub = .read ∧ s.keylen ≠ 32) ∧
    (∃ s : State, s.len = 0 ∧ s.engine.j = 0 ∧ s.engine.i = 0 ∧ s.engine.sub = .read ∧ s.keylen = 32 ∧ s.noncelen ≠ 12) :=
  ⟨by decide, ⟨accept 5 { v1 with keylen := 31 }, by decide⟩, ⟨accept 5 { v1 with noncelen := 13 }, by decide⟩⟩

/-- ProcessRunsTheCounterModeLoop, OutputHasTheLengthOfTheInput: a started PROCESS on a platform that admits all. -/
theorem processStart_start : ProcessStart processStart :=
  ⟨by decide, by decide, by decide, by decide, by decide, by decide⟩

theorem processStart_admitted : AllAdmitted processStart := by unfold AllAdmitted; decide

theorem witness_process_run : ∃ t, core.run (2 * processStart.len.toNat + 1) processStart = .next t :=
  ⟨_, eq_next (by decide +kernel)⟩

/-- EveryStepKeepsTheCommandOnPlan: a command on its plan that takes a step. -/
theorem witness_on_plan : processStart.OnPlan ∧ ∃ t, step processStart = .next t := by
  refine ⟨⟨fun _ => by decide, fun _ => .inr (by decide), fun _ => rfl, fun _ h => ?_⟩, _, eq_next (by decide +kernel)⟩
  exact absurd h (by decide)

/-- ProcessTouchesEachByteOnce: a running PROCESS whose next step completes it. -/
theorem witness_touches : ∃ s t : State, s.OnPlan ∧ s.busy = true ∧ decode s.engine.cur = .ok .process ∧
    s.keylen = 32 ∧ s.noncelen = 12 ∧ (∀ met rest, s.inputs ≠ .reset met :: rest) ∧ step s = .next t ∧
    t.busy = false := by
  refine ⟨accept 5 v1, _, ⟨fun _ => by decide, fun _ => .inr (by decide), fun _ => rfl, fun _ h => ?_⟩, by decide,
    by decide, by decide, by decide, fun _ _ => by simp [v1, State.reset, State.powerOn], eq_next (by decide +kernel),
    by decide +kernel⟩
  exact absurd h (by decide)

/-- OutputIsInputXorKeystream: DST = SRC, the closest DST above the input, a single block, and a DST inside the input. -/
theorem witness_overlap :
    ((7 : Word) - 7 = 0) ∧ (65 : Nat) ≤ ((66 : Word) - 1).toNat ∧ (64 : Nat) ≤ 64 ∧
    (1 ≤ ((2 : Word) - 1).toNat ∧ ((2 : Word) - 1).toNat < 65 ∧ 64 < 65) := by decide

/-- ProcessTwiceGivesTheInputBack: disjoint buffers, then in place. -/
theorem witness_twice :
    ∃ (t t' : State) (dst' : Word), SameOrDisjoint processStart.src processStart.dst processStart.len.toNat ∧
      SameOrDisjoint processStart.dst dst' processStart.len.toNat ∧
      core.run (2 * processStart.len.toNat + 1) processStart = .next t ∧
      AllAdmitted (writeReg .cmd 0x00000005 (writeReg .dst dst' (writeReg .src t.dst t))) ∧
      core.run (2 * processStart.len.toNat + 1)
        (writeReg .cmd 0x00000005 (writeReg .dst dst' (writeReg .src t.dst t))) = .next t' := by
  refine ⟨nextOf (core.run (2 * processStart.len.toNat + 1) processStart), _, 0x2000, .inr (by decide), .inl rfl,
    eq_next (by decide +kernel), ?_, eq_next (by decide +kernel)⟩
  unfold AllAdmitted
  decide +kernel

/-- KeystreamContinuesAcrossCommands: a PROCESS over 65 bytes split at 64; OutputIsInputXorKeystream: the same one, its
output one byte above its input. -/
theorem witness_split :
    ∃ s : State, ProcessStart s ∧ AllAdmitted s ∧ 64 ≤ s.len.toNat ∧ 64 % 64 = 0 ∧
      1 ≤ (s.dst - s.src).toNat ∧ (s.dst - s.src).toNat < s.len.toNat ∧ 64 < s.len.toNat :=
  ⟨{ processStart with len := 65, dst := 0x1001 },
    ⟨by decide, by decide, by decide, by decide, by decide, by decide⟩, by unfold AllAdmitted; decide, by decide⟩

/-- EveryStepKeepsTheInvariant: a busy machine with a byte in memory. -/
theorem witness_invariant : processStart.Inv ∧ ∃ t, step processStart = .next t :=
  ⟨⟨by decide, fun _ => by decide, fun _ => by decide⟩, _, eq_next (by decide +kernel)⟩

/-- HiddenStateIsNeverObserved: two idle machines that differ in the hidden state only. -/
theorem witness_hidden :
    ∃ s s' : State, s ≠ s' ∧ SameButHidden s s' ∧ ∃ t, step s = .next t :=
  ⟨v1, { v1 with engine := { v1.engine with i := 9 } }, by decide, ⟨rfl, rfl, fun h => absurd h (by decide)⟩, _, rfl⟩

/-- ByteReadsBackWhatWasWritten: two addresses, and a memory in canonical form. -/
theorem witness_memory : (0xFFFFFFFF : Word) ≠ 0 ∧ processStart.mem.wf := by decide

/-- ColroundThenDiagroundIsDround. -/
theorem witness_colround : v1.busy = false ∧ v1.inputs = [] ∧ (0 : Nat) ∉ v1.platform.deniedMasters := by decide

end Tests
end Sys2Proof
end

