-- ==== Sys2Proof/Proofs/Bijectivity.lean ====
section
/-! SUPPORT and the proof of PermutationIsBijective. The idea: a statement of R450 overwrites one word by a bijection of
that word, chosen by another word which it leaves alone, so it can be undone; everything above is a composition. -/

namespace Sys2Proof

open CipherState Function

/-- Left rotation is undone by right rotation, at every width and for every amount. -/
theorem rotateRight_rotateLeft {w : Nat} (x : BitVec w) (n : Nat) : (x.rotateLeft n).rotateRight n = x := by
  apply BitVec.eq_of_getLsbD_eq
  intro i hi
  have hn : n % w < w := Nat.mod_lt n (by omega)
  rw [BitVec.getLsbD_rotateRight]
  by_cases h : i < w - n % w
  · have hge : ¬ n % w + i < n % w := by omega
    have hlt : n % w + i < w := by omega
    simp [h, BitVec.getLsbD_rotateLeft, hge, hlt, BitVec.getLsbD_eq_getElem hi]
  · have hlt : i - (w - n % w) < n % w := by omega
    have hback : w - n % w + (i - (w - n % w)) = i := by omega
    simp [h, BitVec.getLsbD_rotateLeft, hlt, hi, hback]

/-- `rotl32` of R14 loses no bit, for the amounts the core uses. -/
theorem rotl32_bijective {n : Nat} (h : n < 32) : Bijective fun u : Word => rotl32 u n := by
  have undo : LeftInverse (fun u : Word => u.rotateRight n) fun u => rotl32 u n := fun u => by
    simp only [rotl32_eq_rotateLeft u h, rotateRight_rotateLeft]
  exact Finite.injective_iff_bijective.mp undo.injective

theorem xor_right_bijective (v : Word) : Bijective fun u : Word => u ^^^ v :=
  Involutive.bijective fun u => by simp

/-- Overwriting word `x` by a bijection of it, which may depend on another word `y`, is a bijection of the state. -/
theorem put_bijective {x y : Fin 16} (hxy : x ≠ y) {f : Word → Word → Word}
    (hf : ∀ v, Bijective fun u => f u v) :
    Bijective fun s : CipherState => s.put x (f (s.get x) (s.get y)) := by
  constructor
  · intro s t hst
    have same (i : Fin 16) : (s.put x (f (s.get x) (s.get y))).get i = (t.put x (f (t.get x) (t.get y))).get i :=
      congrArg (·.get i) hst
    have other (i : Fin 16) (hi : i ≠ x) : s.get i = t.get i := by
      simpa only [get_put_other hi] using same i
    have hx : s.get x = t.get x := (hf (t.get y)).injective <| by
      simpa only [get_put_same, other y hxy.symm] using same x
    exact ext_get fun i => if hi : i = x then hi ▸ hx else other i hi
  · intro t
    obtain ⟨u, hu⟩ := (hf (t.get y)).surjective (t.get x)
    refine ⟨t.put x u, ext_get fun i => ?_⟩
    simp only [get_put_same, get_put_other hxy.symm]
    by_cases hi : i = x
    · subst hi; simpa only [get_put_same] using hu
    · simp only [get_put_other hi]

theorem addInto_bijective {x y : Fin 16} (hxy : x ≠ y) : Bijective fun s => addInto s x y :=
  put_bijective hxy AddGroup.addRight_bijective

theorem xorRotInto_bijective {x y : Fin 16} (hxy : x ≠ y) {n : Nat} (hn : n < 32) :
    Bijective fun s => xorRotInto s x y n :=
  put_bijective hxy fun v => (rotl32_bijective hn).comp (xor_right_bijective v)

/-- The quarter-round needs only that no statement of R450 combines a word with itself. -/
theorem quarterRound_bijective {a b c d : Fin 16} (h : a ≠ b ∧ d ≠ a ∧ c ≠ d ∧ b ≠ c) :
    Bijective fun s => quarterRound s a b c d := by
  obtain ⟨hab, hda, hcd, hbc⟩ := h
  have half {m n : Nat} (hm : m < 32) (hn : n < 32) :
      Bijective fun s => xorRotInto (addInto (xorRotInto (addInto s a b) d a m) c d) b c n :=
    (xorRotInto_bijective hbc hn).comp <| (addInto_bijective hcd).comp <|
      (xorRotInto_bijective hda hm).comp (addInto_bijective hab)
  simp only [quarterRound_eq]
  exact (half (m := 8) (n := 7) (by decide) (by decide)).comp (half (m := 16) (n := 12) (by decide) (by decide))

theorem columnRound_bijective : Bijective columnRound :=
  (quarterRound_bijective (by decide)).comp <|
  (quarterRound_bijective (by decide)).comp <|
  (quarterRound_bijective (by decide)).comp <|
  quarterRound_bijective (by decide)

theorem diagonalRound_bijective : Bijective diagonalRound :=
  (quarterRound_bijective (by decide)).comp <|
  (quarterRound_bijective (by decide)).comp <|
  (quarterRound_bijective (by decide)).comp <|
  quarterRound_bijective (by decide)

theorem doubleRound_bijective : Bijective doubleRound := diagonalRound_bijective.comp columnRound_bijective

theorem doubleRounds_bijective (n : Nat) : Bijective (doubleRounds n) := by
  induction n with
  | zero => exact bijective_id
  | succ n ih => exact ih.comp doubleRound_bijective

/-- Settles O15: every statement of R450 on distinct words can be undone, and the double round and the permutation are
compositions of such statements. -/
theorem permutationIsBijective : Obligations.PermutationIsBijective := by
  refine ⟨fun a b c d hab _ had hbc _ hcd => quarterRound_bijective ⟨hab, had.symm, hcd, hbc⟩,
    doubleRound_bijective, ?_⟩
  exact funext permute_eq ▸ doubleRounds_bijective 10

end Sys2Proof
end

