-- ==== Sys2Proof/Proofs/Steps.lean ====
section
/-! SUPPORT for the statements over every step, and the proof of EveryStepKeepsTheInvariant. A step is the engine's turn,
a host write, reset, or an action that leaves the core itself alone: each invariant is a lemma per turn. -/

namespace Sys2Proof
namespace Machine

/-! ### The turns -/

/-- The step in hand is the engine's: it is the first thing pending, or nothing is (R612). -/
def State.EnginesTurn (s : State) : Prop := s.inputs = [] ∨ ∃ rest, s.inputs = .core .engine :: rest

/-- What a step can do to the core: the engine's turn, a host write, reset, or nothing, which leaves the memory in its
form. -/
theorem step_turns {s t : State} (h : step s = .next t) :
    (s.EnginesTurn ∧ ∃ rest, engineStep { s with inputs := rest } = .next t) ∨
    (∃ a v rest, s.inputs = .core (.write a v) :: rest ∧ a.wellFormed s.platform = true ∧
      t = writeOffset (a.addr - s.platform.base) v { s with inputs := rest }) ∨
    (∃ met rest, s.inputs = .reset met :: rest ∧ t = resetCore { s with inputs := rest }) ∨
    (∃ i m r q, (s.mem.wf → Memory.wf m) ∧
      t = { s with inputs := i, mem := m, lastRead := r, lastMemRead := q }) := by
  rcases step_cases h with ⟨hi, he⟩ | ⟨rest, hi, he⟩ | ⟨a, rest, -, -, rfl⟩ | hw | ⟨m, rest, -, -, rfl⟩ | hr |
    ⟨a, rest, -, rfl⟩ | ⟨a, v, rest, -, rfl⟩
  · exact .inl ⟨.inl hi, s.inputs, he⟩
  · exact .inl ⟨.inr ⟨rest, hi⟩, rest, he⟩
  · exact .inr (.inr (.inr ⟨_, _, _, _, id, rfl⟩))
  · exact .inr (.inl hw)
  · exact .inr (.inr (.inr ⟨_, _, _, _, id, rfl⟩))
  · exact .inr (.inr (.inl hr))
  · exact .inr (.inr (.inr ⟨_, _, _, _, id, rfl⟩))
  · exact .inr (.inr (.inr ⟨_, _, _, _, fun hm => Memory.wf_write hm a.isLt v, rfl⟩))

/-- The engine's turn on BUSY and DONE: both stay, or the command completes. -/
theorem engineStep_busy_done {s t : State} (h : engineStep s = .next t) :
    (t.busy = s.busy ∧ t.done = s.done) ∨ (s.busy = true ∧ t.busy = false ∧ t.done = true) := by
  have of_running {u : State} (hu : StillRunning s u) : u.busy = s.busy ∧ u.done = s.done :=
    ⟨by simp only [State.busy, hu.phase], hu.done⟩
  rcases engineStep_cases s with ⟨-, h'⟩ | ⟨-, -, -, ⟨j, i, -, -, h'⟩ | ⟨j, i, -, -, h'⟩ | h'⟩ | ⟨hb, u, h', hu⟩ <;>
    obtain rfl := Host.Outcome.next.inj (h'.symm.trans h)
  · exact .inl ⟨rfl, rfl⟩
  · exact .inl (of_running (processRead_spec j i s).2.1)
  · exact .inl (of_running (processWrite_spec j i s).2.1)
  · exact .inl ⟨rfl, rfl⟩
  · exact .inr ⟨hb, hu.idle, hu.done⟩

/-- The engine's turn on everything but STATE, KS, STATUS and memory. -/
theorem engineStep_keeps_frame {s t : State} (h : engineStep s = .next t) : CommandFrame s t := by
  obtain ⟨u, hu, hf⟩ := engineStep_frame s
  exact Host.Outcome.next.inj (hu.symm.trans h) ▸ hf

/-! ### The invariant of STATUS, CMD and memory -/

/-- An event of PROCESS keeps the invariant where it keeps the memory's form. -/
theorem StillRunning.keeps_inv {s t : State} (h : StillRunning s t) (hf : CommandFrame s t) (hm : t.mem.wf)
    (hi : s.Inv) : t.Inv where
  memory := hm
  status hb := by
    rw [h.done, h.errcode]
    exact hi.status (by simpa only [State.busy, h.phase] using hb)
  command hb := by
    rw [h.cur, hf.cmd]
    exact hi.command (by simpa only [State.busy, h.phase] using hb)

/-- An idle engine meets the invariant by its memory alone. -/
theorem inv_of_idle {t : State} (hb : t.busy = false) (hm : t.mem.wf) : t.Inv :=
  ⟨hm, fun h => by simp [hb] at h, fun h => by simp [hb] at h⟩

theorem engineStep_keeps_inv {s t : State} (hi : s.Inv) (h : engineStep s = .next t) : t.Inv := by
  rcases engineStep_cases s with ⟨-, h'⟩ | ⟨-, -, -, ⟨j, i, -, -, h'⟩ | ⟨j, i, -, -, h'⟩ | h'⟩ | ⟨-, u, h', hu⟩ <;>
    obtain rfl := Host.Outcome.next.inj (h'.symm.trans h)
  · exact hi
  · obtain ⟨hf, hrun, hm, -⟩ := processRead_spec j i s
    exact hrun.keeps_inv hf (hm ▸ hi.memory) hi
  · obtain ⟨hf, hrun, hm, -⟩ := processWrite_spec j i s
    exact hrun.keeps_inv hf (hm ▸ Memory.wf_write hi.memory (BitVec.isLt _) _) hi
  · exact hi
  · exact inv_of_idle hu.idle (hu.mem ▸ hi.memory)

theorem writeOffset_keeps_inv {s : State} (hi : s.Inv) (off : Nat) (v : Word) : (writeOffset off v s).Inv := by
  rcases writeOffset_cases off v s with h | ⟨-, -, h⟩ | ⟨-, -, h⟩ | ⟨-, h⟩ | ⟨-, h⟩ | ⟨hb, r, -, hc, hk, h⟩ <;> rw [h]
  · exact hi
  · exact ⟨hi.memory, hi.status, hi.command⟩
  · exact ⟨hi.memory, fun _ => ⟨rfl, rfl⟩, fun _ => rfl⟩
  · exact ⟨hi.memory, fun hb => ⟨by simp [(hi.status hb).1], (hi.status hb).2⟩, hi.command⟩
  · exact ⟨hi.memory, hi.status, hi.command⟩
  · obtain ⟨-, -, -, -, -, -, he, hm, -⟩ := storeReg_operand hc hk v s
    exact inv_of_idle (by rw [State.busy, he]; exact hb) (hm ▸ hi.memory)

/-- Settles O56: the engine's turn, a host write, reset and the other agents' actions each keep the invariant. -/
theorem everyStepKeepsTheInvariant : Obligations.EveryStepKeepsTheInvariant := by
  intro s t hi h
  have he (rest : List Input) : State.Inv { s with inputs := rest } := ⟨hi.memory, hi.status, hi.command⟩
  rcases step_turns h with ⟨-, rest, h⟩ | ⟨a, v, rest, -, -, rfl⟩ | ⟨met, rest, -, rfl⟩ | ⟨_, _, _, _, hm, rfl⟩
  · exact engineStep_keeps_inv (he rest) h
  · exact writeOffset_keeps_inv (he rest) _ v
  · exact inv_of_idle rfl hi.memory
  · exact ⟨hm hi.memory, hi.status, hi.command⟩

end Machine
end Sys2Proof
end

