-- ==== Sys2Proof/Proofs/Hidden.lean ====
section
/-! SUPPORT and the proof of HiddenStateIsNeverObserved. Two machines that agree but in the hidden items are one machine
with two engines in the same phase. While BUSY the engines are equal too; while idle no operation reads more of the
engine than its phase, and acceptance replaces it whole. -/

namespace Sys2Proof
namespace Machine

theorem SameButHidden.refl (s : State) : SameButHidden s s := ⟨rfl, rfl, fun _ => rfl⟩

/-- The second machine is the first with another engine. -/
theorem SameButHidden.eq_withEngine {s s' : State} (h : SameButHidden s s') :
    s' = { s with engine := s'.engine } :=
  congrArg (fun u : State => { u with engine := s'.engine }) h.visible

/-- Two answers of an operation: next states that agree but in the hidden items, or one refusal. -/
inductive AnswersAlike : Host.Outcome State Fault Refusal → Host.Outcome State Fault Refusal → Prop
  | next {t t' : State} (h : SameButHidden t t') : AnswersAlike (.next t) (.next t')
  | refused (r : Refusal) : AnswersAlike (.refused r) (.refused r)

theorem AnswersAlike.of_next {t : State} {o : Host.Outcome State Fault Refusal} (h : AnswersAlike (.next t) o) :
    ∃ t', o = .next t' ∧ SameButHidden t t' := by
  cases h with
  | next h => exact ⟨_, rfl, h⟩

theorem AnswersAlike.of_refused {r : Refusal} {o : Host.Outcome State Fault Refusal}
    (h : AnswersAlike (.refused r) o) : o = .refused r := by
  cases h with
  | refused => rfl

/-- A register reads the same through any engine in the same phase (R101, R102, R104). -/
theorem readReg_withEngine {s : State} {e : Engine} (h : e.phase = s.engine.phase) (r : Reg) :
    readReg { s with engine := e } r = readReg s r := by
  have hb : ({ s with engine := e } : State).busy = s.busy := by simp only [State.busy, h]
  cases r <;> simp only [readReg, statusWord, intenWord, State.err, hb]

theorem readOffset_withEngine {s : State} {e : Engine} (h : e.phase = s.engine.phase) (off : Nat) :
    readOffset { s with engine := e } off = readOffset s off := by
  unfold readOffset
  cases regAt off with
  | none => rfl
  | some r => exact readReg_withEngine h r

/-- Only acceptance looks at the engine, and it replaces it. -/
theorem storeReg_sameButHidden {s s' : State} (h : SameButHidden s s') (r : Reg) (v : Word) :
    SameButHidden (storeReg r v s) (storeReg r v s') := by
  rw [h.eq_withEngine]
  cases r with
  | cmd => exact SameButHidden.refl (accept v s)
  | _ => exact ⟨rfl, h.phase, h.running⟩

theorem writeOffset_sameButHidden {s s' : State} (h : SameButHidden s s') (off : Nat) (v : Word) :
    SameButHidden (writeOffset off v s) (writeOffset off v s') := by
  have hb : s'.busy = s.busy := by simp only [State.busy, h.phase]
  unfold writeOffset
  cases regAt off with
  | none => exact h
  | some r =>
    simp only [writeReg, hb]
    split
    · rw [h.eq_withEngine]
      exact ⟨rfl, h.phase, h.running⟩
    · exact storeReg_sameButHidden h r v

theorem engineStep_answersAlike {s s' : State} (h : SameButHidden s s') :
    AnswersAlike (engineStep s) (engineStep s') := by
  cases hb : s.busy with
  | true =>
    have hs : s' = s := by rw [h.eq_withEngine, h.running hb]
    obtain ⟨t, ht, -⟩ := engineStep_frame s
    rw [hs, ht]
    exact .next (.refl t)
  | false =>
    have hb' : s'.busy = false := by rw [← hb]; simp only [State.busy, h.phase]
    rw [engineStep_idle hb, engineStep_idle hb']
    exact .next h

theorem hostRead_answersAlike {s s' : State} (h : SameButHidden s s') (a : Access) :
    AnswersAlike (hostRead a s) (hostRead a s') := by
  rw [h.eq_withEngine]
  simp only [hostRead, readOffset_withEngine h.phase]
  cases accessProblem s.platform a with
  | some r => exact .refused r
  | none => exact .next ⟨rfl, h.phase, h.running⟩

theorem hostWrite_answersAlike {s s' : State} (h : SameButHidden s s') (a : Access) (v : Word) :
    AnswersAlike (hostWrite a v s) (hostWrite a v s') := by
  have hp : s'.platform = s.platform := by rw [h.eq_withEngine]
  simp only [hostWrite, hp]
  cases accessProblem s.platform a with
  | some r => exact .refused r
  | none => exact .next (writeOffset_sameButHidden h _ v)

theorem hostWait_answersAlike {s s' : State} (h : SameButHidden s s') (m : Nat) :
    AnswersAlike (hostWait m s) (hostWait m s') := by
  have hp : s'.platform = s.platform := by rw [h.eq_withEngine]
  have hd : s'.done = s.done := by rw [h.eq_withEngine]
  have hr := hostRead_answersAlike h (Reg.status.access s.platform m)
  unfold hostWait
  rw [hp, hd]
  generalize hostRead (Reg.status.access s.platform m) s = o at hr ⊢
  generalize hostRead (Reg.status.access s.platform m) s' = o' at hr ⊢
  cases hr with
  | refused r => exact .refused r
  | next ht =>
    cases s.done with
    | true => exact .next ht
    | false =>
      rw [ht.eq_withEngine]
      exact .next ⟨rfl, ht.phase, ht.running⟩

theorem applyInput_answersAlike {s s' : State} (h : SameButHidden s s') (x : Input) :
    AnswersAlike (applyInput x s) (applyInput x s') := by
  cases x with
  | core e =>
    cases e with
    | engine => exact engineStep_answersAlike h
    | read a => exact hostRead_answersAlike h a
    | write a v => exact hostWrite_answersAlike h a v
  | wait m => exact hostWait_answersAlike h m
  | reset _ => rw [h.eq_withEngine]; exact .next (.refl _)
  | memRead a => rw [h.eq_withEngine]; exact .next ⟨rfl, h.phase, h.running⟩
  | memWrite a v => rw [h.eq_withEngine]; exact .next ⟨rfl, h.phase, h.running⟩

theorem step_answersAlike {s s' : State} (h : SameButHidden s s') : AnswersAlike (step s) (step s') := by
  have hi : s'.inputs = s.inputs := by rw [h.eq_withEngine]
  unfold step
  rw [hi]
  cases s.inputs with
  | nil => exact engineStep_answersAlike h
  | cons x rest =>
    refine applyInput_answersAlike ?_ x
    rw [h.eq_withEngine]
    exact ⟨rfl, h.phase, h.running⟩

/-- Settles O58: the two machines answer every step alike. -/
theorem hiddenStateIsNeverObserved : Obligations.HiddenStateIsNeverObserved := by
  intro s s' h
  have ha := step_answersAlike h
  exact ⟨fun t ht => AnswersAlike.of_next (ht ▸ ha), fun r hr => AnswersAlike.of_refused (hr ▸ ha)⟩

end Machine
end Sys2Proof
end

