-- ==== Sys2Proof/Proofs/Window.lean ====
section
/-! SUPPORT for the statements about the register window, and their proofs: the layout, the busy lock, STATUS, and
what a read discloses. -/

namespace Sys2Proof
namespace Machine

/-! ### The layout -/

/-- Every register is found at its own offset (R100). -/
@[simp] theorem regAt_offset (r : Reg) : regAt r.offset = some r := by
  cases r with
  | key k => revert k; decide
  | nonce k => revert k; decide
  | state i => revert i; decide
  | ks i => revert i; decide
  | _ => rfl

theorem offset_aligned (r : Reg) : r.offset % 4 = 0 := by
  cases r <;> simp only [Reg.offset] <;> omega

theorem offset_lt (r : Reg) : r.offset < 0x100 := by
  cases r <;> simp only [Reg.offset] <;> omega

theorem offset_injective : Function.Injective Reg.offset := fun r r' h =>
  Option.some.inj (by rw [← regAt_offset r, h, regAt_offset])

/-- No register lies in the two reserved ranges (R114), at an aligned offset or not. -/
theorem regAt_reserved {off : Nat} (h : (0x024 ≤ off ∧ off ≤ 0x03C) ∨ (0x06C ≤ off ∧ off ≤ 0x07C)) :
    regAt off = none := by
  unfold regAt
  rcases h with h | h
  · rw [if_neg (by omega), if_pos (by omega)]
  · rw [if_neg (by omega), if_neg (by omega), if_neg (by omega), if_neg (by omega), if_pos (by omega)]

/-- Every other aligned offset of the window has its register. -/
theorem exists_reg_of_not_reserved {off : Nat} (h4 : off % 4 = 0) (hlt : off < 0x100)
    (hres : ¬ ((0x024 ≤ off ∧ off ≤ 0x03C) ∨ (0x06C ≤ off ∧ off ≤ 0x07C))) : ∃ r : Reg, r.offset = off := by
  rcases (by omega : off < 0x024 ∨ (0x040 ≤ off ∧ off < 0x060) ∨ (0x060 ≤ off ∧ off < 0x06C) ∨
    (0x080 ≤ off ∧ off < 0x0C0) ∨ 0x0C0 ≤ off) with h | h | h | h | h
  · obtain rfl | rfl | rfl | rfl | rfl | rfl | rfl | rfl | rfl : off = 0x000 ∨ off = 0x004 ∨ off = 0x008 ∨ off = 0x00C ∨
      off = 0x010 ∨ off = 0x014 ∨ off = 0x018 ∨ off = 0x01C ∨ off = 0x020 := by omega
    exacts [⟨.cmd, rfl⟩, ⟨.status, rfl⟩, ⟨.inten, rfl⟩, ⟨.ctr, rfl⟩, ⟨.keylen, rfl⟩, ⟨.noncelen, rfl⟩, ⟨.src, rfl⟩,
      ⟨.dst, rfl⟩, ⟨.len, rfl⟩]
  · exact ⟨.key ⟨(off - 0x040) / 4, by omega⟩, by simp only [Reg.offset]; omega⟩
  · exact ⟨.nonce ⟨(off - 0x060) / 4, by omega⟩, by simp only [Reg.offset]; omega⟩
  · exact ⟨.state ⟨(off - 0x080) / 4, by omega⟩, by simp only [Reg.offset]; omega⟩
  · exact ⟨.ks ⟨(off - 0x0C0) / 4, by omega⟩, by simp only [Reg.offset]; omega⟩

/-- Settles O22: the registers lie at their offsets, one at each aligned offset outside the reserved ranges. -/
theorem windowLayout : Obligations.WindowLayout := by
  refine ⟨⟨rfl, rfl, rfl, rfl, rfl, rfl, rfl, rfl, rfl, fun k => regAt_offset (.key k),
      fun k => regAt_offset (.nonce k), fun i => ⟨regAt_offset (.state i), regAt_offset (.ks i)⟩⟩,
    fun r => ⟨regAt_offset r, offset_aligned r, offset_lt r⟩, fun _ _ h => offset_injective h, ?_⟩
  intro off h4 hlt
  by_cases hres : (0x024 ≤ off ∧ off ≤ 0x03C) ∨ (0x06C ≤ off ∧ off ≤ 0x07C)
  · simp [regAt_reserved hres, hres]
  · obtain ⟨r, rfl⟩ := exists_reg_of_not_reserved h4 hlt hres
    simp [hres]

/-! ### Writes of a register -/

theorem writeReg_locked {r : Reg} {s : State} (hk : r.busyLocked = true) (hb : s.busy = true) (v : Word) :
    writeReg r v s = { s with ovr := true } := by
  simp [writeReg, hk, hb]

theorem writeReg_idle {s : State} (hb : s.busy = false) (r : Reg) (v : Word) : writeReg r v s = storeReg r v s := by
  simp [writeReg, hb]

/-- A write of any register but CMD leaves the hidden state, memory and the memory history. -/
theorem storeReg_hidden {r : Reg} (hcmd : r ≠ .cmd) (v : Word) (s : State) :
    (storeReg r v s).engine = s.engine ∧ (storeReg r v s).mem = s.mem ∧ (storeReg r v s).history = s.history := by
  cases r with
  | cmd => exact absurd rfl hcmd
  | _ => exact ⟨rfl, rfl, rfl⟩

theorem storeReg_busy {r : Reg} (hcmd : r ≠ .cmd) (v : Word) (s : State) : (storeReg r v s).busy = s.busy := by
  obtain ⟨he, -⟩ := storeReg_hidden hcmd v s
  rw [State.busy, he, State.busy]

theorem readReg_state (s : State) (i : Fin 16) :
    readReg s (.state i) = if s.busy then 0 else s.cipher.get i := rfl

theorem busyLocked_iff (r : Reg) : r.busyLocked = true ↔
    r = .cmd ∨ r = .ctr ∨ r = .keylen ∨ r = .noncelen ∨ r = .src ∨ r = .dst ∨ r = .len ∨
    (∃ k, r = .key k) ∨ (∃ k, r = .nonce k) ∨ (∃ i, r = .state i) := by
  cases r <;> simp [Reg.busyLocked]

/-- A locked register but CMD and KEY reads back what it took. -/
theorem readReg_storeReg_same {r : Reg} {s : State} (hk : r.busyLocked = true) (hb : s.busy = false)
    (hcmd : r ≠ .cmd) (hkey : ∀ k, r ≠ .key k) (v : Word) : readReg (storeReg r v s) r = v := by
  cases r with
  | status | inten | ks => simp [Reg.busyLocked] at hk
  | key k => exact absurd rfl (hkey k)
  | nonce k => simp [readReg, storeReg]
  | state i =>
    rw [readReg_state, storeReg_busy hcmd, hb]
    exact CipherState.get_put_same s.cipher i v
  | cmd => exact absurd rfl hcmd
  | ctr | keylen | noncelen | src | dst | len => rfl

/-- A write of any register but CMD and STATUS leaves what every other register reads. -/
theorem readReg_storeReg_other {r r' : Reg} (hne : r' ≠ r) (hcmd : r ≠ .cmd) (hstatus : r ≠ .status) (v : Word)
    (s : State) : readReg (storeReg r v s) r' = readReg s r' := by
  cases r with
  | cmd => exact absurd rfl hcmd
  | status => exact absurd rfl hstatus
  | key k => cases r' <;> rfl
  | ks i => rfl
  | nonce k =>
    cases r' with
    | nonce k' =>
      have hv : k.val ≠ k'.val := fun h => hne (congrArg Reg.nonce (Fin.ext h.symm))
      simp [readReg, storeReg, hv]
    | _ => rfl
  | state i =>
    cases r' with
    | state i' =>
      have hi : i' ≠ i := fun h => hne (congrArg Reg.state h)
      rw [readReg_state, readReg_state, storeReg_busy hcmd]
      simp only [storeReg, CipherState.get_put_other hi]
    | _ => rfl
  | inten | ctr | keylen | noncelen | src | dst | len => cases r' <;> first | rfl | exact absurd rfl hne

theorem storeReg_key_other {r : Reg} {k : Fin 8} (h : r ≠ .key k) (v : Word) (s : State) :
    (storeReg r v s).key[k] = s.key[k] := by
  cases r with
  | key k' =>
    have hv : k'.val ≠ k.val := fun e => h (congrArg Reg.key (Fin.ext e))
    simp [storeReg, hv]
  | _ => rfl

/-- Settles O23: while BUSY a locked write is dropped; while idle a write is `storeReg`, register by register. -/
theorem busyLock : Obligations.BusyLock := by
  intro r v s
  refine ⟨busyLocked_iff r, fun hk hb => writeReg_locked hk hb v, ?_, ?_, ?_, ?_⟩
  · intro hk hb hcmd hkey
    rw [writeReg_idle hb]
    exact readReg_storeReg_same hk hb hcmd hkey v
  · rintro k rfl hb
    rw [writeReg_idle hb]
    simp [storeReg]
  · rintro rfl hb
    rw [writeReg_idle hb]
    exact ⟨rfl, rfl⟩
  · intro hb hcmd hstatus
    rw [writeReg_idle hb]
    exact ⟨fun r' hne => readReg_storeReg_other hne hcmd hstatus v s, fun k hk => storeReg_key_other hk v s,
      storeReg_hidden hcmd v s⟩

/-! ### STATUS -/

/-- STATUS bit by bit (R104). -/
theorem getLsbD_statusWord (s : State) (i : Nat) :
    (statusWord s).getLsbD i =
      if i = 0 then s.busy else if i = 1 then s.done else if i = 2 then s.err else if i = 3 then s.ovr
      else (errcodeBits s.errcode).getLsbD (i - 4) := by
  simp only [statusWord, BitVec.getLsbD_append, BitVec.getLsbD_ofBool]
  grind

/-- ERRCODE stands from bit 4 on, with zeros above it. -/
theorem getLsbD_statusWord_code (s : State) (i : Nat) :
    (statusWord s).getLsbD (4 + i) = (errcodeBits s.errcode).getLsbD i := by
  rw [getLsbD_statusWord, if_neg (by omega), if_neg (by omega), if_neg (by omega), if_neg (by omega),
    Nat.add_sub_cancel_left]

/-- The fields of STATUS (R104). -/
theorem statusWord_fields (s : State) :
    (statusWord s).getLsbD 0 = s.busy ∧ (statusWord s).getLsbD 1 = s.done ∧ (statusWord s).getLsbD 2 = s.err ∧
    (statusWord s).getLsbD 3 = s.ovr ∧ (statusWord s).extractLsb' 4 4 = errcodeBits s.errcode ∧
    (statusWord s).extractLsb' 8 24 = 0 := by
  refine ⟨getLsbD_statusWord s 0, getLsbD_statusWord s 1, getLsbD_statusWord s 2, getLsbD_statusWord s 3, ?_, ?_⟩ <;>
    apply BitVec.eq_of_getLsbD_eq <;> intro i hi <;> rw [BitVec.getLsbD_extractLsb']
  · simp [getLsbD_statusWord_code, hi]
  · rw [show 8 + i = 4 + (4 + i) by omega, getLsbD_statusWord_code, BitVec.getLsbD_of_ge _ _ (by omega)]
    simp

/-- The bits a STATUS write clears, for the written bits 1 and 3. -/
theorem getLsbD_clearMask : ∀ (clearDone clearOvr : Bool), ∀ i < 32,
    ((if clearDone then 0x2 else 0 : Word) ||| (if clearOvr then 0x8 else 0)).getLsbD i =
      ((clearDone && i == 1) || (clearOvr && i == 3)) := by decide

/-- A write of STATUS clears the written ones among DONE and OVR in the word read (R104). -/
theorem statusWord_writeStatus (v : Word) (s : State) :
    statusWord (writeStatus v s) =
      statusWord s &&& ~~~((if v.getLsbD 1 then 0x2 else 0) ||| (if v.getLsbD 3 then 0x8 else 0)) := by
  have hb : (writeStatus v s).busy = s.busy := rfl
  have he : (writeStatus v s).err = s.err := rfl
  apply BitVec.eq_of_getLsbD_eq
  intro i hi
  rw [BitVec.getLsbD_and, BitVec.getLsbD_not, getLsbD_clearMask _ _ i hi]
  simp only [getLsbD_statusWord, hb, he, writeStatus_done, writeStatus_ovr, writeStatus_errcode, hi]
  by_cases h1 : i = 1
  · simp [h1]
  · by_cases h3 : i = 3
    · simp [h3]
    · simp [h1, h3]

theorem readReg_writeStatus_other {r : Reg} (h : r ≠ .status) (v : Word) (s : State) :
    readReg (writeStatus v s) r = readReg s r := by
  cases r with
  | status => exact absurd rfl h
  | _ => rfl

/-- Settles O26: ERR is the code read as nonzero, and a STATUS write reaches DONE and OVR alone. -/
theorem statusFieldsAndWrites : Obligations.StatusFieldsAndWrites := by
  intro s
  obtain ⟨hbusy, hdone, herr, hovr, hcode, hrest⟩ := statusWord_fields s
  refine ⟨⟨hbusy, hdone, by rw [herr, hcode]; rfl, hovr, ?_, hrest⟩, fun v => ?_⟩
  · rw [hcode]
    rcases s.errcode with _ | _ | _ | _ <;> rfl
  · exact ⟨statusWord_writeStatus v s, fun r hr => readReg_writeStatus_other hr v s, rfl, rfl, rfl, rfl, rfl, rfl⟩

/-! ### What a read discloses -/

/-- Settles O30: STATE and KS are behind BUSY, KEY is never read, and a reserved offset has no register. -/
theorem readsThatDiscloseNothing : Obligations.ReadsThatDiscloseNothing := by
  intro s
  refine ⟨fun hb i => ?_, fun hb i => ?_, fun _ => rfl, fun off hoff => ?_, fun _ _ => rfl⟩
  · simp [readReg, hb]
  · simp [readReg, hb]
  · simp [readOffset, writeOffset, regAt_reserved hoff]

/-- No register reads the KEY registers (R112). -/
theorem readOffset_withKey (s : State) (key : Vector Word 8) (off : Nat) :
    readOffset { s with key := key } off = readOffset s off := by
  unfold readOffset
  cases regAt off with
  | none => rfl
  | some r => cases r <;> rfl

/-- Settles O31: whether an access runs is the platform's and the access's, and no register reads KEY. -/
theorem readsDoNotDependOnTheKey : Obligations.ReadsDoNotDependOnTheKey := by
  intro s key a
  simp only [hostRead]
  cases accessProblem s.platform a with
  | some r => rfl
  | none => exact congrArg some (readOffset_withKey s key _)

end Machine
end Sys2Proof
end

