-- ==== Sys2Proof/Proofs/Writers.lean ====
section
/-! The proofs of the statements about who writes a register over a step of the whole machine. Each is read off the
turns of `step_turns`: what the engine's turn, a host write and reset do to the register, once each. -/

namespace Sys2Proof
namespace Machine

/-! ### What a host write can change -/

/-- A host write while BUSY leaves the operand registers. -/
theorem writeOffset_operands {s : State} (hb : s.busy = true) (off : Nat) (v : Word) :
    SameOperands s (writeOffset off v s) := by
  rcases writeOffset_cases off v s with h | ⟨-, -, h⟩ | ⟨hi, -⟩ | ⟨-, h⟩ | ⟨-, h⟩ | ⟨hi, -⟩
  · rw [h]; exact SameOperands.rfl' s
  · rw [h]; exact ⟨rfl, rfl, rfl, rfl, rfl, rfl, rfl, rfl⟩
  · simp [hb] at hi
  · rw [h]; exact ⟨rfl, rfl, rfl, rfl, rfl, rfl, rfl, rfl⟩
  · rw [h]; exact ⟨rfl, rfl, rfl, rfl, rfl, rfl, rfl, rfl⟩
  · simp [hb] at hi

/-- What a host write can do to STATE, KS and ERRCODE: nothing, or, while idle, STATE by a STATE register, ERRCODE by
acceptance. -/
theorem writeOffset_writers (off : Nat) (v : Word) (s : State) :
    ((writeOffset off v s).cipher = s.cipher ∨ (s.busy = false ∧ ∃ i, regAt off = some (.state i))) ∧
    (writeOffset off v s).ks = s.ks ∧
    ((writeOffset off v s).errcode = s.errcode ∨
      (s.busy = false ∧ (writeOffset off v s).errcode = none ∧ regAt off = some .cmd)) := by
  rcases writeOffset_cases off v s with h | ⟨-, -, h⟩ | ⟨hb, hr, h⟩ | ⟨-, h⟩ | ⟨-, h⟩ | ⟨hb, r, hr, hc, hk, h⟩ <;> rw [h]
  · exact ⟨.inl rfl, rfl, .inl rfl⟩
  · exact ⟨.inl rfl, rfl, .inl rfl⟩
  · exact ⟨.inl rfl, rfl, .inr ⟨hb, rfl, hr⟩⟩
  · exact ⟨.inl rfl, rfl, .inl rfl⟩
  · exact ⟨.inl rfl, rfl, .inl rfl⟩
  · obtain ⟨-, -, -, he, -, hks, -⟩ := storeReg_operand hc hk v s
    refine ⟨?_, hks, .inl he⟩
    by_cases hs : ∃ i, r = .state i
    · obtain ⟨i, rfl⟩ := hs
      exact .inr ⟨hb, i, hr⟩
    · exact .inl (storeReg_cipher (fun i hi => hs ⟨i, hi⟩) v s)

/-- A host write that changes CMD or raises BUSY is an acceptance. -/
theorem writeOffset_accepts {s : State} {off : Nat} {v : Word}
    (h : (writeOffset off v s).cmd ≠ s.cmd ∨ (s.busy = false ∧ (writeOffset off v s).busy = true)) :
    s.busy = false ∧ regAt off = some .cmd ∧ writeOffset off v s = accept v s := by
  have quiet {u : State} (hw : writeOffset off v s = u) (hcmd : u.cmd = s.cmd) (hbusy : u.busy = s.busy) : False := by
    rcases h with h | ⟨hb, h⟩
    · exact h (hw ▸ hcmd)
    · rw [hw, hbusy, hb] at h; cases h
  rcases writeOffset_cases off v s with h | ⟨-, -, h⟩ | ha | ⟨-, h⟩ | ⟨-, h⟩ | ⟨-, r, -, hc, hk, h⟩
  · exact (quiet h rfl rfl).elim
  · exact (quiet h rfl rfl).elim
  · exact ha
  · exact (quiet h rfl rfl).elim
  · exact (quiet h rfl rfl).elim
  · obtain ⟨hcmd, -, -, -, -, -, he, -⟩ := storeReg_operand hc hk v s
    exact (quiet h hcmd (by rw [State.busy, he, State.busy])).elim

/-- OVR rises by a dropped write, and falls by a STATUS write of bit 3. -/
theorem writeOffset_ovr (off : Nat) (v : Word) (s : State) :
    (writeOffset off v s).ovr = s.ovr ∨
    (s.busy = true ∧ (∃ r, regAt off = some r ∧ r.busyLocked = true) ∧ (writeOffset off v s).ovr = true) ∨
    (regAt off = some .status ∧ (writeOffset off v s).ovr = (s.ovr && !v.getLsbD 3)) := by
  rcases writeOffset_cases off v s with h | ⟨hb, hr, h⟩ | ⟨-, -, h⟩ | ⟨hr, h⟩ | ⟨-, h⟩ | ⟨-, r, -, hc, hk, h⟩ <;> rw [h]
  · exact .inl rfl
  · exact .inr (.inl ⟨hb, hr, rfl⟩)
  · exact .inl rfl
  · exact .inr (.inr ⟨hr, rfl⟩)
  · exact .inl rfl
  · obtain ⟨-, -, hovr, -⟩ := storeReg_operand hc hk v s
    exact .inl hovr

/-- DONE falls by a STATUS write of bit 1, and at acceptance. -/
theorem writeOffset_done (off : Nat) (v : Word) (s : State) :
    (writeOffset off v s).done = s.done ∨
    (regAt off = some .status ∧ (writeOffset off v s).done = (s.done && !v.getLsbD 1)) ∨
    (regAt off = some .cmd ∧ s.busy = false ∧ (writeOffset off v s).busy = true ∧
      (writeOffset off v s).done = false) := by
  rcases writeOffset_cases off v s with h | ⟨-, -, h⟩ | ⟨hb, hr, h⟩ | ⟨hr, h⟩ | ⟨-, h⟩ | ⟨-, r, -, hc, hk, h⟩ <;> rw [h]
  · exact .inl rfl
  · exact .inl rfl
  · exact .inr (.inr ⟨hr, hb, rfl, rfl⟩)
  · exact .inr (.inl ⟨hr, rfl⟩)
  · exact .inl rfl
  · obtain ⟨-, hdone, -⟩ := storeReg_operand hc hk v s
    exact .inl hdone

/-! ### Over every step -/

/-- A flag that keeps its value neither rises nor falls. -/
theorem flag_kept {b b' : Bool} (h : b' = b) {P Q : Prop} :
    (b = false → b' = true → P) ∧ (b = true → b' = false → Q) := by
  subst h
  cases b' <;> simp

/-- Settles O24: the engine's turn and a host write each by their lemma on the writers. -/
theorem operandsChangeOnlyByIdleHostWrite : Obligations.OperandsChangeOnlyByIdleHostWrite := by
  intro s t h
  have toRest (rest : List Input) : SameOperands s { s with inputs := rest } := ⟨rfl, rfl, rfl, rfl, rfl, rfl, rfl, rfl⟩
  rcases step_turns h with ⟨hturn, rest, h⟩ | ⟨a, v, rest, hi, -, rfl⟩ | ⟨met, rest, hi, -⟩ | ⟨_, _, _, _, -, rfl⟩
  · obtain ⟨hcipher, hks, herr⟩ := engineStep_writers h
    refine ⟨.inl ((toRest rest).trans' (engineStep_keeps_frame h).operands), ?_, ?_, ?_⟩
    · exact hcipher.imp_right fun ⟨hb, hb', he, hd⟩ => .inr (.inr ⟨⟨hturn, hb, hb'⟩, he, hd⟩)
    · exact hks.imp_right fun ⟨hb, hb', he, hd⟩ => .inr ⟨⟨hturn, hb, hb'⟩, he, hd⟩
    · exact herr.imp_right fun ⟨hb, hb', hd⟩ => .inr (.inr ⟨⟨hturn, hb, hb'⟩, hd⟩)
  · obtain ⟨hcipher, hks, herr⟩ :=
      writeOffset_writers (a.addr - s.platform.base) v { s with inputs := rest }
    refine ⟨?_, ?_, .inl hks, ?_⟩
    · cases hb : s.busy with
      | true => exact .inl ((toRest rest).trans' (writeOffset_operands (s := { s with inputs := rest }) hb _ v))
      | false => exact .inr (.inr ⟨rfl, a, v, rest, hi⟩)
    · exact hcipher.imp_right fun ⟨hb, i, hr⟩ => .inr (.inl ⟨hb, a, v, rest, i, hi, hr⟩)
    · exact herr.imp_right fun ⟨hb, he, hr⟩ => .inr (.inl ⟨hb, he, a, v, rest, hi, hr⟩)
  · exact ⟨.inr (.inl ⟨met, rest, hi⟩), .inr (.inl ⟨met, rest, hi⟩), .inr (.inl ⟨met, rest, hi⟩),
      .inr (.inl ⟨met, rest, hi⟩)⟩
  · exact ⟨.inl ⟨rfl, rfl, rfl, rfl, rfl, rfl, rfl, rfl⟩, .inl rfl, .inl rfl, .inl rfl⟩

/-- Settles O25: the engine keeps CMD and never starts a command, and a host write that does is an acceptance. -/
theorem commandsArriveOnlyByCmdWrite : Obligations.CommandsArriveOnlyByCmdWrite := by
  intro s t h hch
  rcases step_turns h with ⟨-, rest, h⟩ | ⟨a, v, rest, hi, hw, rfl⟩ | ⟨met, rest, hi, -⟩ | ⟨_, _, _, _, -, rfl⟩
  · rcases hch with hcmd | ⟨hb, hb'⟩
    · exact absurd (engineStep_keeps_frame h).cmd hcmd
    · rw [engineStep_idle (s := { s with inputs := rest }) hb] at h
      rw [← Host.Outcome.next.inj h] at hb'
      exact absurd (hb.symm.trans hb') (by decide)
  · obtain ⟨hb, hr, ha⟩ := writeOffset_accepts (s := { s with inputs := rest }) hch
    exact .inr ⟨hb, a, v, rest, hi, hw, hr, ha⟩
  · exact .inl ⟨met, rest, hi⟩
  · rcases hch with hcmd | ⟨hb, hb'⟩
    · exact absurd rfl hcmd
    · exact absurd (hb.symm.trans hb') (by decide)

/-- Settles O27: the engine keeps OVR, and of the host writes two reach it. -/
theorem ovrRisesAndFallsOnlyAsStated : Obligations.OvrRisesAndFallsOnlyAsStated := by
  intro s t h
  rcases step_turns h with ⟨-, rest, h⟩ | ⟨a, v, rest, hi, -, rfl⟩ | ⟨met, rest, hi, rfl⟩ | ⟨_, _, _, _, -, rfl⟩
  · exact flag_kept (engineStep_keeps_frame h).ovr
  · rcases writeOffset_ovr (a.addr - s.platform.base) v { s with inputs := rest } with
      hk | ⟨hb, ⟨r, hr, hl⟩, hk⟩ | ⟨hr, hk⟩ <;> rw [hk]
    · exact flag_kept rfl
    · exact ⟨fun _ _ => ⟨hb, a, v, rest, r, hi, hr, hl⟩, fun _ h0 => (nomatch h0)⟩
    · exact ⟨fun h0 h1 => by simp [h0] at h1, fun h1 h0 => .inr ⟨a, v, rest, hi, hr, by simpa [h1] using h0⟩⟩
  · exact ⟨fun _ h1 => (nomatch h1), fun _ _ => .inl ⟨met, rest, hi⟩⟩
  · exact flag_kept rfl

/-- Settles O28: DONE rises with BUSY falling in the engine's turn, and of the host writes two clear it. -/
theorem doneRisesAndFallsOnlyAsStated : Obligations.DoneRisesAndFallsOnlyAsStated := by
  intro s t h
  rcases step_turns h with ⟨-, rest, h⟩ | ⟨a, v, rest, hi, -, rfl⟩ | ⟨met, rest, hi, rfl⟩ | ⟨_, _, _, _, -, rfl⟩
  · rcases engineStep_busy_done h with ⟨-, hk⟩ | ⟨hb, hb', hk⟩ <;> rw [hk]
    · exact flag_kept rfl
    · exact ⟨fun _ _ => ⟨hb, hb'⟩, fun _ h0 => (nomatch h0)⟩
  · rcases writeOffset_done (a.addr - s.platform.base) v { s with inputs := rest } with
      hk | ⟨hr, hk⟩ | ⟨hr, hb, hb', hk⟩ <;> rw [hk]
    · exact flag_kept rfl
    · exact ⟨fun h0 h1 => by simp [h0] at h1,
        fun h1 h0 => .inr ⟨a, v, rest, hi, .inl ⟨hr, by simpa [h1] using h0⟩⟩⟩
    · exact ⟨fun _ h1 => (nomatch h1), fun _ _ => .inr ⟨a, v, rest, hi, .inr ⟨hr, hb, hb'⟩⟩⟩
  · exact ⟨fun _ h1 => (nomatch h1), fun _ _ => .inl ⟨met, rest, hi⟩⟩
  · exact flag_kept rfl

end Machine
end Sys2Proof
end

