-- ==== Sys2Proof/Proofs/Reset.lean ====
section
/-! The proofs of ResetValues and ResetHasTheInvariants: reset leaves every register 0 and the engine idle. -/

namespace Sys2Proof
namespace Machine

/-- Every register reads 0 after power-on (R118); the flags of STATUS and INTEN do not see the platform. -/
theorem readReg_powerOn (p : Platform) (r : Reg) : readReg (State.powerOn p) r = 0 := by
  cases r with
  | nonce k => simp [readReg, State.powerOn]
  | state i => exact CipherState.get_zero i
  | ks i => exact CipherState.get_zero i
  | status =>
    have h : statusWord State.reset = 0 := by decide
    exact h
  | inten =>
    have h : intenWord State.reset = 0 := by decide
    exact h
  | _ => rfl

/-- Settles O39: every register is 0, and the idle engine's step is a wait. -/
theorem resetValues : Obligations.ResetValues := fun p =>
  ⟨readReg_powerOn p, fun k => by simp [State.powerOn], rfl, rfl, rfl, rfl, rfl, rfl⟩

/-- Settles O57: an idle engine has both invariants, and the memory lists nothing. -/
theorem resetHasTheInvariants : Obligations.ResetHasTheInvariants := by
  have hb : State.reset.busy ≠ true := by decide
  exact ⟨inv_of_idle rfl Memory.wf_nil,
    ⟨fun h => absurd h hb, fun h => absurd h hb, fun h => absurd h hb, fun h => absurd h hb⟩⟩

end Machine
end Sys2Proof
end

