-- ==== Sys2Proof/Proofs/Plan.lean ====
section
/-! SUPPORT for the statements about the plan of a PROCESS command (R555), and the proofs of
EveryStepKeepsTheCommandOnPlan and ProcessTouchesEachByteOnce. The plan is cut into blocks first; then a memory event of
the engine is the plan's next one, and every other action leaves progress, operands and history as they are. -/

namespace Sys2Proof
namespace Machine

/-! ### Blocks of an input (R551, R554) -/

theorem blockLen_eq (n j : Nat) : blockLen n j = if j < n / 64 then 64 else n % 64 := rfl

theorem blockCount_eq (n : Nat) : blockCount n = (n + 63) / 64 := by
  have h : blockCount n = n / 64 + if n % 64 > 0 then 1 else 0 := rfl
  rw [h]
  split <;> omega

theorem blockLen_le (n j : Nat) : blockLen n j ≤ 64 := by
  rw [blockLen_eq]
  split <;> omega

theorem blockLen_pos {n j : Nat} (h : j < blockCount n) : 0 < blockLen n j := by
  rw [blockCount_eq] at h
  rw [blockLen_eq]
  split <;> omega

/-- A block with another one after it is a full one. -/
theorem blockLen_full {n j : Nat} (h : j + 1 < blockCount n) : blockLen n j = 64 := by
  rw [blockCount_eq] at h
  rw [blockLen_eq, if_pos (by omega)]

/-- The last block ends the input. -/
theorem blockLen_last {n j : Nat} (h : j + 1 = blockCount n) : 64 * j + blockLen n j = n := by
  rw [blockCount_eq] at h
  rw [blockLen_eq]
  split <;> omega

/-- Block 0 holds a byte where the input does. -/
theorem blockLen_zero_pos_iff (n : Nat) : 0 < blockLen n 0 ↔ 0 < n := by
  rw [blockLen_eq]
  split <;> omega

theorem blockCount_pos_iff (n : Nat) : 0 < blockCount n ↔ 0 < n := by
  rw [blockCount_eq]
  omega

/-- The blocks of a 32-bit length can be counted in 32 bits. -/
theorem lt_of_lt_blockCount {len : Word} {j : Nat} (h : j < blockCount len.toNat) : j < 2 ^ 32 := by
  have := len.isLt
  rw [blockCount_eq] at h
  omega

/-- The bytes of `m` full blocks are the first 64 * m bytes of the input. -/
theorem flatMap_fullBlocks {α : Type} (f : Nat → α) {n m : Nat} (hm : m ≤ n / 64) :
    (List.range m).flatMap (fun j => (List.range (blockLen n j)).map fun i => f (64 * j + i)) =
      (List.range (64 * m)).map f := by
  induction m with
  | zero => rfl
  | succ m ih =>
    have hl : blockLen n m = 64 := if_pos hm
    rw [List.range_succ, List.flatMap_append, ih (by omega), Nat.mul_succ, List.range_add, List.map_append]
    simp [hl]

/-- The bytes of the blocks one after the other are the bytes of the input in order. -/
theorem flatMap_blocks {α : Type} (f : Nat → α) (n : Nat) :
    (List.range (blockCount n)).flatMap (fun j => (List.range (blockLen n j)).map fun i => f (64 * j + i)) =
      (List.range n).map f := by
  by_cases hr : n % 64 = 0
  · have hc : blockCount n = n / 64 := by rw [blockCount_eq]; omega
    rw [hc, flatMap_fullBlocks f le_rfl, Nat.mul_div_cancel' (Nat.dvd_of_mod_eq_zero hr)]
  · have hc : blockCount n = n / 64 + 1 := by rw [blockCount_eq]; omega
    have hl : blockLen n (n / 64) = n % 64 := by simp [blockLen_eq]
    conv_rhs => rw [← Nat.div_add_mod n 64]
    rw [hc, List.range_succ, List.flatMap_append, flatMap_fullBlocks f le_rfl, List.range_add, List.map_append]
    simp [hl]

/-! ### The plan, event by event -/

theorem plannedBlock_length (n : Nat) (src dst : Word) (j : Nat) :
    (plannedBlock n src dst j).length = 2 * blockLen n j := by
  simp [plannedBlock, Nat.two_mul]

theorem plannedBlock_read {n j i : Nat} (src dst : Word) (hi : i < blockLen n j) :
    (plannedBlock n src dst j)[i]? = some (.read, byteAddr src j i) := by
  simp [plannedBlock, List.getElem?_append_left, hi]

theorem plannedBlock_write {n j i : Nat} (src dst : Word) (hi : i < blockLen n j) :
    (plannedBlock n src dst j)[blockLen n j + i]? = some (.write, byteAddr dst j i) := by
  simp [plannedBlock, hi]

/-- The blocks before block `j` are full: 128 events each. -/
theorem plannedBlocks_length {n j : Nat} (src dst : Word) (hj : j < blockCount n) :
    ((List.range j).flatMap (plannedBlock n src dst)).length = 128 * j := by
  induction j with
  | zero => rfl
  | succ j ih =>
    rw [List.range_succ, List.flatMap_append, List.length_append, ih (by omega), List.flatMap_singleton,
      plannedBlock_length, blockLen_full hj]
    omega

/-- Block `j` of the plan starts after the 128 events of each block before it. -/
theorem plannedEvents_getElem? {n j k : Nat} (src dst : Word) (hj : j < blockCount n) (hk : k < 2 * blockLen n j) :
    (plannedEvents n src dst)[128 * j + k]? = (plannedBlock n src dst j)[k]? := by
  have hsplit : blockCount n = j + 1 + (blockCount n - (j + 1)) := by omega
  rw [plannedEvents, hsplit, List.range_add, List.flatMap_append, List.range_succ, List.flatMap_append,
    List.append_assoc, List.getElem?_append_right (by rw [plannedBlocks_length src dst hj]; omega),
    plannedBlocks_length src dst hj, Nat.add_sub_cancel_left, List.flatMap_singleton,
    List.getElem?_append_left (by rw [plannedBlock_length]; exact hk)]

/-- The read event at byte `i` of block `j` follows the events that lie behind it. -/
theorem plannedEvents_read {n j i : Nat} (src dst : Word) (hj : j < blockCount n) (hi : i < blockLen n j) :
    (plannedEvents n src dst)[eventsDone n j i .read]? = some (.read, byteAddr src j i) := by
  rw [← plannedBlock_read src dst hi, ← plannedEvents_getElem? src dst hj (by omega)]
  rfl

theorem plannedEvents_write {n j i : Nat} (src dst : Word) (hj : j < blockCount n) (hi : i < blockLen n j) :
    (plannedEvents n src dst)[eventsDone n j i .write]? = some (.write, byteAddr dst j i) := by
  rw [← plannedBlock_write src dst hi, ← plannedEvents_getElem? src dst hj (by omega), ← Nat.add_assoc]
  rfl

/-- The plan holds one read and one write for each byte of the input. -/
theorem plannedEvents_length (n : Nat) (src dst : Word) : (plannedEvents n src dst).length = 2 * n := by
  cases hc : blockCount n with
  | zero =>
    have hn : ¬ 0 < n := fun h => by
      have := (blockCount_pos_iff n).mpr h
      omega
    obtain rfl : n = 0 := by omega
    rfl
  | succ j =>
    have hlast := blockLen_last hc.symm
    rw [plannedEvents, hc, List.range_succ, List.flatMap_append, List.length_append,
      plannedBlocks_length src dst (by omega), List.flatMap_singleton, plannedBlock_length]
    omega

/-- The plan reads each input byte in order. -/
theorem plannedEvents_reads (n : Nat) (src dst : Word) :
    (plannedEvents n src dst).filter (fun e => e.1 == .read) =
      (List.range n).map fun k => (AccessKind.read, src + BitVec.ofNat 32 k) := by
  rw [plannedEvents, List.filter_flatMap, ← flatMap_blocks]
  congr 1
  funext j
  simp [plannedBlock, List.filter_map, Function.comp_def, byteAddr, Config.blockBytes]

/-- The plan writes each output byte in order. -/
theorem plannedEvents_writes (n : Nat) (src dst : Word) :
    (plannedEvents n src dst).filter (fun e => e.1 == .write) =
      (List.range n).map fun k => (AccessKind.write, dst + BitVec.ofNat 32 k) := by
  rw [plannedEvents, List.filter_flatMap, ← flatMap_blocks]
  congr 1
  funext j
  simp [plannedBlock, List.filter_map, Function.comp_def, byteAddr, Config.blockBytes]

/-- The bytes of a buffer of a 32-bit length have distinct addresses (R204). -/
theorem bufferBytes_nodup (kind : AccessKind) (base len : Word) :
    ((List.range len.toNat).map fun k => (kind, base + BitVec.ofNat 32 k)).Nodup := by
  refine List.Nodup.map_on (fun k hk k' hk' h => ?_) List.nodup_range
  have hlen := len.isLt
  rw [List.mem_range] at hk hk'
  have he := congrArg BitVec.toNat ((BitVec.add_right_inj _).mp (Prod.mk.inj h).2)
  simpa [Nat.mod_eq_of_lt (hk.trans hlen), Nat.mod_eq_of_lt (hk'.trans hlen)] using he

/-! ### The event a command on its plan comes to -/

/-- A read is next inside a READ half, or after the WRITE half of a block that is not the last (R555). -/
theorem nextProcessEvent_read_iff (n j i : Nat) (sub : Half) (j' i' : Nat) :
    nextProcessEvent n j i sub = .read j' i' ↔
      (sub = .read ∧ i < blockLen n j ∧ j = j' ∧ i = i') ∨
      (sub = .write ∧ blockLen n j ≤ i ∧ j + 1 < blockCount n ∧ j + 1 = j' ∧ 0 = i') := by
  cases sub with
  | read =>
    by_cases hi : i < blockLen n j
    · simp [nextProcessEvent, hi]
    · by_cases hl : 0 < blockLen n j <;> simp [nextProcessEvent, hi, hl]
  | write =>
    by_cases hi : i < blockLen n j
    · simp [nextProcessEvent, hi]
    · by_cases hj : j + 1 < blockCount n <;> simp [nextProcessEvent, hi, hj, Nat.le_of_not_lt]

/-- A write is next inside a WRITE half, or after the READ half of a block that holds a byte (R555). -/
theorem nextProcessEvent_write_iff (n j i : Nat) (sub : Half) (j' i' : Nat) :
    nextProcessEvent n j i sub = .write j' i' ↔
      (sub = .read ∧ blockLen n j ≤ i ∧ 0 < blockLen n j ∧ j = j' ∧ 0 = i') ∨
      (sub = .write ∧ i < blockLen n j ∧ j = j' ∧ i = i') := by
  cases sub with
  | read =>
    by_cases hi : i < blockLen n j
    · simp [nextProcessEvent, hi]
    · by_cases hl : 0 < blockLen n j <;> simp [nextProcessEvent, hi, hl, Nat.le_of_not_lt]
  | write =>
    by_cases hi : i < blockLen n j
    · simp [nextProcessEvent, hi]
    · by_cases hj : j + 1 < blockCount n <;> simp [nextProcessEvent, hi, hj]

/-- The completion is next after the last WRITE half, or at a block that holds no byte (R555, R556). -/
theorem nextProcessEvent_finish_iff (n j i : Nat) (sub : Half) :
    nextProcessEvent n j i sub = .finish ↔
      (sub = .read ∧ blockLen n j = 0) ∨ (sub = .write ∧ blockLen n j ≤ i ∧ blockCount n ≤ j + 1) := by
  cases sub with
  | read =>
    by_cases hi : i < blockLen n j
    · have hl : blockLen n j ≠ 0 := by omega
      simp [nextProcessEvent, hi, hl]
    · by_cases hl : 0 < blockLen n j
      · simp [nextProcessEvent, hi, hl, hl.ne']
      · simp [nextProcessEvent, Nat.eq_zero_of_not_pos hl]
  | write =>
    by_cases hi : i < blockLen n j
    · simp [nextProcessEvent, hi]
    · by_cases hj : j + 1 < blockCount n
      · simp [nextProcessEvent, hi, hj]
      · simp [nextProcessEvent, hi, hj, Nat.le_of_not_lt hi, Nat.le_of_not_lt hj]

/-- A pending read is of a byte of the input, lies behind exactly the events done, and finds its keystream block
computed unless it is the block's first. -/
theorem State.OnPlan.pending_read {s : State} (h : s.OnPlan) (hb : s.busy = true) {j i : Nat}
    (hp : pendingProcessEvent s = .read j i) :
    j < blockCount s.len.toNat ∧ i < blockLen s.len.toNat j ∧
    eventsDone s.len.toNat s.engine.j.toNat s.engine.i s.engine.sub = eventsDone s.len.toNat j i .read ∧
    (i ≠ 0 → s.engine.kb = keystreamBlock s j) := by
  have hin := h.inBlock hb
  rcases (nextProcessEvent_read_iff _ _ _ _ _ _).mp hp with ⟨hsub, hi, rfl, rfl⟩ | ⟨hsub, hi, hj, rfl, rfl⟩
  · refine ⟨?_, hi, by rw [hsub], fun h0 => h.keystream hb (.inl (Nat.pos_of_ne_zero h0))⟩
    rcases h.ofInput hb with hj | ⟨hj, -, -⟩
    · exact hj
    · rw [hj] at hi ⊢
      exact (blockCount_pos_iff _).mpr ((blockLen_zero_pos_iff _).mp (Nat.zero_lt_of_lt hi))
  · refine ⟨hj, blockLen_pos hj, ?_, fun h0 => absurd rfl h0⟩
    have hfull := blockLen_full hj
    rw [hsub]
    simp only [eventsDone, Config.blockBytes]
    omega

/-- A pending write is of a byte of the input, lies behind exactly the events done, and finds its keystream block
computed. -/
theorem State.OnPlan.pending_write {s : State} (h : s.OnPlan) (hb : s.busy = true) {j i : Nat}
    (hp : pendingProcessEvent s = .write j i) :
    j < blockCount s.len.toNat ∧ i < blockLen s.len.toNat j ∧
    eventsDone s.len.toNat s.engine.j.toNat s.engine.i s.engine.sub = eventsDone s.len.toNat j i .write ∧
    s.engine.kb = keystreamBlock s j := by
  have hin := h.inBlock hb
  rcases (nextProcessEvent_write_iff _ _ _ _ _ _).mp hp with ⟨hsub, hi, hl, rfl, rfl⟩ | ⟨hsub, hi, rfl, rfl⟩
  · have hj := (h.ofInput hb).resolve_right fun ⟨_, h0, _⟩ => by omega
    refine ⟨hj, hl, ?_, h.keystream hb (.inl (by omega))⟩
    rw [hsub]
    simp only [eventsDone]
    omega
  · have hj := (h.ofInput hb).resolve_right fun ⟨_, _, hr⟩ => by simp [hsub] at hr
    exact ⟨hj, hi, by rw [hsub], h.keystream hb (.inr hsub)⟩

/-- Where a command on its plan comes to its completion, the whole plan lies behind it. -/
theorem State.OnPlan.pending_finish {s : State} (h : s.OnPlan) (hb : s.busy = true)
    (hp : pendingProcessEvent s = .finish) : s.accesses = plannedEvents s.len.toNat s.src s.dst := by
  have hin := h.inBlock hb
  rw [h.history hb]
  apply List.take_of_length_le
  rw [plannedEvents_length]
  rcases (nextProcessEvent_finish_iff _ _ _ _).mp hp with ⟨-, hl⟩ | ⟨hsub, hi, hj⟩
  · obtain ⟨hj, -, -⟩ := (h.ofInput hb).resolve_left fun hj => (blockLen_pos hj).ne' hl
    rw [hj] at hl
    have hn := mt (blockLen_zero_pos_iff s.len.toNat).mpr hl.not_gt
    omega
  · have hj' := (h.ofInput hb).resolve_right fun ⟨_, _, hr⟩ => by simp [hsub] at hr
    have hlast := blockLen_last (n := s.len.toNat) (j := s.engine.j.toNat) (by omega)
    rw [hsub]
    simp only [eventsDone, Config.blockBytes]
    omega

/-! ### Steps of the machine on the plan -/

/-- The keystream is a function of the operand registers (R552). -/
theorem SameOperands.keystreamBlock_eq {s t : State} (h : SameOperands s t) (j : Nat) :
    keystreamBlock t j = keystreamBlock s j := by
  simp only [keystreamBlock, keyBytes, nonceBytes, h.key, h.nonce, h.ctr]

/-- An idle engine is on every plan. -/
theorem onPlan_of_idle {t : State} (hb : t.busy = false) : t.OnPlan := by
  constructor <;> intro h <;> simp [hb] at h

/-- A command with the same progress, operands and history is on the same plan. -/
theorem State.OnPlan.congr {s t : State} (h : s.OnPlan) (he : t.engine = s.engine) (ho : SameOperands s t)
    (hh : t.history = s.history) : t.OnPlan := by
  have hb : t.busy = s.busy := by rw [State.busy, he, State.busy]
  obtain ⟨hin, hof, hhist, hks⟩ := h
  constructor <;> rw [hb] <;>
    simpa only [State.accesses, he, hh, ho.len, ho.src, ho.dst, ho.keystreamBlock_eq]

/-- The event `e` at byte `i` of a half of block `j`, where the plan has it, leaves the command on its plan. -/
theorem onPlan_of_event {s t : State} {j i : Nat} {sub : Half} {e : MemEvent} (ho : SameOperands s t)
    (hj : j < blockCount s.len.toNat) (hi : i < blockLen s.len.toNat j)
    (hdone : s.accesses = (plannedEvents s.len.toNat s.src s.dst).take (eventsDone s.len.toNat j i sub))
    (hplan : (plannedEvents s.len.toNat s.src s.dst)[eventsDone s.len.toNat j i sub]? = some (e.kind, e.addr))
    (hh : t.history = s.history ++ [e]) (htj : t.engine.j = BitVec.ofNat 32 j) (hti : t.engine.i = i + 1)
    (hsub : t.engine.sub = sub) (hkb : t.engine.kb = keystreamBlock s j) : t.OnPlan := by
  have hjn : t.engine.j.toNat = j := by
    rw [htj, BitVec.toNat_ofNat, Nat.mod_eq_of_lt (lt_of_lt_blockCount hj)]
  have hnext : eventsDone s.len.toNat j (i + 1) sub = eventsDone s.len.toNat j i sub + 1 := by cases sub <;> rfl
  constructor <;> intro _ <;> simp only [ho.len, ho.src, ho.dst, hjn, hti, hsub]
  · exact hi
  · exact .inl hj
  · have hacc : t.accesses = s.accesses ++ [(e.kind, e.addr)] := by simp [State.accesses, hh]
    rw [hacc, hdone, hnext, List.take_add_one, hplan]
    rfl
  · rw [hkb, ho.keystreamBlock_eq]
    exact fun _ => rfl

theorem processRead_keeps_plan {s : State} (h : s.OnPlan) (hb : s.busy = true) {j i : Nat}
    (hp : pendingProcessEvent s = .read j i) : (processRead j i s).OnPlan := by
  obtain ⟨hj, hi, hdone, hkb⟩ := h.pending_read hb hp
  obtain ⟨hf, -, -, hh, htj, hti, hsub, -, htkb⟩ := processRead_spec j i s
  refine onPlan_of_event hf.operands hj hi (hdone ▸ h.history hb) (plannedEvents_read _ _ hj hi) hh htj hti hsub ?_
  rw [htkb]
  split
  · rfl
  · next h0 => exact hkb h0

theorem processWrite_keeps_plan {s : State} (h : s.OnPlan) (hb : s.busy = true) {j i : Nat}
    (hp : pendingProcessEvent s = .write j i) : (processWrite j i s).OnPlan := by
  obtain ⟨hj, hi, hdone, hkb⟩ := h.pending_write hb hp
  obtain ⟨hf, -, -, hh, htj, hti, hsub, -, htkb⟩ := processWrite_spec j i s
  exact onPlan_of_event hf.operands hj hi (hdone ▸ h.history hb) (plannedEvents_write _ _ hj hi) hh htj hti hsub
    (htkb.trans hkb)

theorem engineStep_keeps_plan {s t : State} (hp : s.OnPlan) (h : engineStep s = .next t) : t.OnPlan := by
  rcases engineStep_cases s with ⟨-, h'⟩ | ⟨hb, -, -, ⟨j, i, he, -, h'⟩ | ⟨j, i, he, -, h'⟩ | h'⟩ | ⟨-, u, h', hu⟩ <;>
    obtain rfl := Host.Outcome.next.inj (h'.symm.trans h)
  · exact hp
  · exact processRead_keeps_plan hp hb he
  · exact processWrite_keeps_plan hp hb he
  · exact hp
  · exact onPlan_of_idle hu.idle

/-- A host write reaches a running command at DONE, OVR and DONEIE only (R115), and cannot raise DONE. -/
theorem writeOffset_running {s : State} (hb : s.busy = true) (off : Nat) (v : Word) :
    ∃ d o e, (s.done = false → d = false) ∧
      writeOffset off v s = { s with done := d, ovr := o, doneie := e } := by
  rcases writeOffset_cases off v s with h | ⟨-, -, h⟩ | ⟨hi, -⟩ | ⟨-, h⟩ | ⟨-, h⟩ | ⟨hi, -⟩
  · exact ⟨s.done, s.ovr, s.doneie, id, h⟩
  · exact ⟨s.done, true, s.doneie, id, h⟩
  · simp [hb] at hi
  · exact ⟨_, _, s.doneie, fun hd => by simp [hd], h⟩
  · exact ⟨s.done, s.ovr, _, id, h⟩
  · simp [hb] at hi

/-- An accepted command is at the start of its plan. -/
theorem accept_onPlan (w : Word) (s : State) : (accept w s).OnPlan where
  inBlock _ := Nat.zero_le _
  ofInput _ := .inr ⟨rfl, rfl, rfl⟩
  history _ := rfl
  keystream _ h := by simp at h

theorem writeOffset_keeps_plan {s : State} (hp : s.OnPlan) (off : Nat) (v : Word) : (writeOffset off v s).OnPlan := by
  cases hb : s.busy with
  | true =>
    obtain ⟨d, o, e, -, h⟩ := writeOffset_running hb off v
    rw [h]
    exact hp.congr rfl ⟨rfl, rfl, rfl, rfl, rfl, rfl, rfl, rfl⟩ rfl
  | false =>
    cases hb' : (writeOffset off v s).busy with
    | true =>
      obtain ⟨-, -, h⟩ := writeOffset_accepts (.inr ⟨hb, hb'⟩)
      rw [h]
      exact accept_onPlan v s
    | false => exact onPlan_of_idle hb'

/-- Settles O50: an event of PROCESS is the plan's next one, acceptance starts a plan, completion and reset end it, and
no other action reaches the progress, the operands or the history of a running command. -/
theorem everyStepKeepsTheCommandOnPlan : Obligations.EveryStepKeepsTheCommandOnPlan := by
  intro s t hp h
  have toRest (rest : List Input) : State.OnPlan { s with inputs := rest } :=
    hp.congr rfl ⟨rfl, rfl, rfl, rfl, rfl, rfl, rfl, rfl⟩ rfl
  rcases step_turns h with ⟨-, rest, h⟩ | ⟨a, v, rest, -, -, rfl⟩ | ⟨met, rest, -, rfl⟩ | ⟨_, _, _, _, -, rfl⟩
  · exact engineStep_keeps_plan (toRest rest) h
  · exact writeOffset_keeps_plan (toRest rest) _ v
  · exact onPlan_of_idle rfl
  · exact hp.congr rfl ⟨rfl, rfl, rfl, rfl, rfl, rfl, rfl, rfl⟩ rfl

/-! ### What a completed PROCESS has done -/

/-- The step that ends a validated PROCESS is its completion: no memory event, and no error. -/
theorem engineStep_ends_process {s t : State} (hb : s.busy = true) (hd : decode s.engine.cur = .ok .process)
    (hv : validate s = none) (h : engineStep s = .next t) (hb' : t.busy = false) :
    pendingProcessEvent s = .finish ∧ t = processFinish s := by
  have running {u : State} (hu : StillRunning s u) (ht : u = t) : False := by
    have : t.busy = s.busy := by rw [State.busy, ← ht, hu.phase, State.busy]
    simp [this, hb] at hb'
  rw [engineStep_ok hb hd, execProcess_valid hv] at h
  rcases processStep_cases s with ⟨j, i, -, -, h'⟩ | ⟨j, i, -, -, h'⟩ | ⟨hp, h'⟩ | ⟨h', -⟩ <;>
    have ht := Host.Outcome.next.inj (h'.symm.trans h)
  · exact (running (processRead_spec j i s).2.1 ht).elim
  · exact (running (processWrite_spec j i s).2.1 ht).elim
  · exact ⟨hp, ht.symm⟩
  · exact (running ⟨rfl, rfl, rfl, rfl, rfl, rfl⟩ ht).elim

/-- Of the machine's steps but reset, only the engine's turn ends a running command. -/
theorem step_ends_in_engineStep {s t : State} (hb : s.busy = true) (hr : ∀ met rest, s.inputs ≠ .reset met :: rest)
    (h : step s = .next t) (hb' : t.busy = false) : ∃ rest, engineStep { s with inputs := rest } = .next t := by
  rcases step_turns h with ⟨-, he⟩ | ⟨a, v, rest, -, -, rfl⟩ | ⟨met, rest, hi, -⟩ | ⟨_, _, _, _, -, rfl⟩
  · exact he
  · obtain ⟨d, o, e, -, hw⟩ :=
      writeOffset_running (s := { s with inputs := rest }) hb (a.addr - s.platform.base) v
    rw [hw] at hb'
    exact absurd (hb.symm.trans hb') (by decide)
  · exact absurd hi (hr met rest)
  · exact absurd (hb.symm.trans hb') (by decide)

/-- Settles O48: the command ends where its whole plan lies behind it, and the plan holds each access once. -/
theorem processTouchesEachByteOnce : Obligations.ProcessTouchesEachByteOnce := by
  intro s t hp hb hd hk hn hr h hb'
  obtain ⟨rest, he⟩ := step_ends_in_engineStep hb hr h hb'
  obtain ⟨hfin, rfl⟩ := engineStep_ends_process (s := { s with inputs := rest }) hb hd
    ((validate_none_iff s).mpr ⟨hk, hn⟩) he hb'
  have hacc : (processFinish { s with inputs := rest }).accesses = plannedEvents s.len.toNat s.src s.dst :=
    hp.pending_finish hb hfin
  have hreads := plannedEvents_reads s.len.toNat s.src s.dst
  have hwrites := plannedEvents_writes s.len.toNat s.src s.dst
  rw [hacc]
  refine ⟨rfl, plannedEvents_length _ _ _, by rw [hreads]; simp, fun k hk => ⟨?_, ?_⟩, fun e hmem => ?_⟩
  · rw [← List.count_filter (p := fun e => e.1 == .read) rfl, hreads]
    exact List.count_eq_one_of_mem (bufferBytes_nodup _ _ _) (List.mem_map.mpr ⟨k, List.mem_range.mpr hk, rfl⟩)
  · rw [← List.count_filter (p := fun e => e.1 == .write) rfl, hwrites]
    exact List.count_eq_one_of_mem (bufferBytes_nodup _ _ _) (List.mem_map.mpr ⟨k, List.mem_range.mpr hk, rfl⟩)
  · obtain ⟨kind, addr⟩ := e
    cases kind with
    | read =>
      have hm : (AccessKind.read, addr) ∈ (plannedEvents s.len.toNat s.src s.dst).filter (fun e => e.1 == .read) :=
        List.mem_filter.mpr ⟨hmem, rfl⟩
      obtain ⟨k, hk, hke⟩ := List.mem_map.mp (hreads ▸ hm)
      exact ⟨k, List.mem_range.mp hk, .inl hke.symm⟩
    | write =>
      have hm : (AccessKind.write, addr) ∈ (plannedEvents s.len.toNat s.src s.dst).filter (fun e => e.1 == .write) :=
        List.mem_filter.mpr ⟨hmem, rfl⟩
      obtain ⟨k, hk, hke⟩ := List.mem_map.mp (hwrites ▸ hm)
      exact ⟨k, List.mem_range.mp hk, .inr hke.symm⟩

end Machine
end Sys2Proof
end

