-- ==== Sys2Proof/Proofs/Accesses.lean ====
section
/-! SUPPORT for the statements about host accesses (R201, R203), and the proofs of OnlyInterfaceAccessesRun,
OnlyForeignAccessesStop and ReadsAndRepeatedWritesAreIdempotent. -/

namespace Sys2Proof
namespace Machine

/-! ### Which accesses run -/

theorem inWindow_iff (p : Platform) (a : Access) :
    a.inWindow p = true ↔ 256 * p.basePage ≤ a.addr ∧ a.addr < 256 * p.basePage + 256 := by
  rw [Access.inWindow, Bool.and_eq_true, decide_eq_true_eq, decide_eq_true_eq]
  rfl

/-- R201 and R620 in numbers: the width, the window and the master. -/
theorem wellFormed_iff (p : Platform) (a : Access) :
    a.wellFormed p = true ↔
      a.width = 4 ∧ (∃ off, off % 4 = 0 ∧ off ≤ 0x0FC ∧ a.addr = 256 * p.basePage + off) ∧
      a.master ∉ p.deniedMasters := by
  have hoff : (a.addr % 4 = 0 ∧ 256 * p.basePage ≤ a.addr ∧ a.addr < 256 * p.basePage + 256) ↔
      ∃ off, off % 4 = 0 ∧ off ≤ 0x0FC ∧ a.addr = 256 * p.basePage + off :=
    ⟨fun h => ⟨a.addr - 256 * p.basePage, by omega⟩, fun ⟨off, h4, hle, haddr⟩ => by omega⟩
  simp only [← hoff, ← inWindow_iff, Access.wellFormed, Access.masterAdmitted, Access.wordWide, Access.aligned,
    Bool.and_eq_true, Bool.not_eq_true', beq_iff_eq, List.contains_eq_mem, decide_eq_false_iff_not]
  tauto

/-- An access outside the interface has one of four problems (R201, R620). -/
theorem accessProblem_of_not_wellFormed {p : Platform} {a : Access} (h : a.wellFormed p = false) :
    ∃ r, accessProblem p a = some r ∧
      r ∈ [Refusal.windowAccessDenied, .accessWidth, .accessMisaligned, .outsideWindow] := by
  unfold accessProblem
  by_cases hm : a.masterAdmitted p = true
  · by_cases hw : a.wordWide = true
    · by_cases ha : a.aligned = true
      · have hi : a.inWindow p = false := by simpa [Access.wellFormed, hm, hw, ha] using h
        exact ⟨.outsideWindow, by simp [hm, hw, ha, hi], by simp⟩
      · exact ⟨.accessMisaligned, by simp [hm, hw, ha], by simp⟩
    · exact ⟨.accessWidth, by simp [hm, hw], by simp⟩
  · exact ⟨.windowAccessDenied, by simp [hm], by simp⟩

theorem hostRead_problem {a : Access} {s : State} {r : Refusal} (h : accessProblem s.platform a = some r) :
    hostRead a s = .refused r := by
  simp [hostRead, h]

theorem hostWrite_problem {a : Access} {s : State} {r : Refusal} (h : accessProblem s.platform a = some r) (v : Word) :
    hostWrite a v s = .refused r := by
  simp [hostWrite, h]

/-- Settles O32: an access without a problem runs, and one with a problem is refused under the problem's name. -/
theorem onlyInterfaceAccessesRun : Obligations.OnlyInterfaceAccessesRun := by
  intro a v s
  refine ⟨wellFormed_iff s.platform a, fun h => ⟨hostRead_wf h, hostWrite_wf h⟩, fun h => ?_⟩
  obtain ⟨r, hr, hmem⟩ := accessProblem_of_not_wellFormed h
  exact ⟨r, hostRead_problem hr, hostWrite_problem hr v, hmem⟩

/-! ### Which steps stop -/

theorem engineStep_ne_refused (s : State) (r : Refusal) : engineStep s ≠ .refused r := by
  obtain ⟨t, ht, -⟩ := engineStep_frame s
  simp [ht]

/-- Settles O33: the engine always has a step, `Fault` is empty, and of the inputs only a host access or a poll can be
refused. -/
theorem onlyForeignAccessesStop : Obligations.OnlyForeignAccessesStop := by
  intro s
  refine ⟨fun i => ?_, fun f => (nomatch f), fun r h => ?_⟩
  · obtain ⟨t, ht, -⟩ := exec_frame i s
    exact ⟨t, ht⟩
  · cases hi : s.inputs with
    | nil => exact absurd ((step_alone hi).symm.trans h) (engineStep_ne_refused s r)
    | cons x rest =>
      cases x with
      | core e =>
        cases e with
        | engine => exact absurd ((step_engine hi).symm.trans h) (engineStep_ne_refused _ r)
        | read a =>
          refine .inl ⟨a, rest, rfl, Bool.eq_false_iff.mpr fun hw => ?_⟩
          rw [step_read hi, hostRead_wf (s := { s with inputs := rest }) hw] at h
          cases h
        | write a v =>
          refine .inr (.inl ⟨a, v, rest, rfl, Bool.eq_false_iff.mpr fun hw => ?_⟩)
          rw [step_write hi, hostWrite_wf (s := { s with inputs := rest }) hw] at h
          cases h
      | wait m =>
        refine .inr (.inr ⟨m, rest, rfl, Classical.byContradiction fun hm => ?_⟩)
        rw [step_wait hi hm] at h
        cases h
      | reset _ | memRead _ | memWrite _ _ =>
        rw [step, hi] at h
        cases h

/-! ### Reading and writing again -/

/-- No register reads the value of the last read (R203). -/
theorem readOffset_withLastRead (s : State) (v : Option Word) (off : Nat) :
    readOffset { s with lastRead := v } off = readOffset s off := by
  unfold readOffset
  cases regAt off with
  | none => rfl
  | some r => cases r <;> rfl

/-- A register but CMD takes a value once and for all (R203). -/
theorem storeReg_storeReg {r : Reg} (hcmd : r ≠ .cmd) (v : Word) (s : State) :
    storeReg r v (storeReg r v s) = storeReg r v s := by
  cases r with
  | cmd => exact absurd rfl hcmd
  | status => simp [storeReg, writeStatus]
  | key k => simp [storeReg]
  | nonce k => simp [storeReg]
  | state i => simp [storeReg, CipherState.put]
  | inten | ctr | keylen | noncelen | src | dst | len | ks => rfl

/-- Settles O34: the busy lock answers a repeated write as the first one, and so does the register. -/
theorem readsAndRepeatedWritesAreIdempotent : Obligations.ReadsAndRepeatedWritesAreIdempotent := by
  refine ⟨fun a s t h => ?_, fun r v s hcmd => ?_, fun v s hb => ?_⟩
  · obtain ⟨hw, rfl⟩ := hostRead_next h
    refine ⟨rfl, ?_⟩
    rw [hostRead_wf (by exact hw), readOffset_withLastRead]
    rfl
  · by_cases hl : (r.busyLocked && s.busy) = true
    · obtain ⟨hk, hb⟩ := Bool.and_eq_true_iff.mp hl
      rw [writeReg_locked hk hb, writeReg_locked hk (by exact hb)]
    · have hfree : ∀ u : State, u.busy = s.busy → writeReg r v u = storeReg r v u := fun u hu => by
        simp [writeReg, hu, hl]
      rw [hfree s rfl, hfree _ (storeReg_busy hcmd v s), storeReg_storeReg hcmd]
  · rw [writeReg_idle hb]
    exact ⟨rfl, rfl⟩

end Machine
end Sys2Proof
end

