-- ==== Sys2Proof/Proofs/SharedMemory.lean ====
section
/-! SUPPORT for the statements about memory and its agents (R205, R211, R213), and the proofs of
ByteReadsBackWhatWasWritten, OtherAgentsMeetTheEngineInOrder and RefusedAccessLeavesTheEngineStuck. -/

namespace Sys2Proof

/-- Writing the byte already there leaves a memory in canonical form equal. -/
theorem Memory.write_read_self {m : Memory} (h : m.wf) {a : Nat} (ha : a < 2 ^ 32) : m.write a (m.read a) = m := by
  refine ext_of_read (wf_write h ha _) h fun b => ?_
  rw [read_write]
  split
  · next hb => rw [hb]
  · rfl

namespace Machine

/-- Settles O59: the laws of one write, and the canonical form. -/
theorem byteReadsBackWhatWasWritten : Obligations.ByteReadsBackWhatWasWritten := by
  intro s a b v
  have hagent : (agentMemWrite a v s).byteAt a = v := by rw [agentMemWrite_byteAt, if_pos rfl]
  refine ⟨congrArg some hagent, hagent, by rw [memWrite_byteAt, if_pos rfl], fun hb => ⟨?_, ?_⟩, fun hm => ⟨?_, ?_⟩⟩
  · rw [agentMemWrite_byteAt, if_neg hb]
  · rw [memWrite_byteAt, if_neg hb]
  · exact Memory.wf_write hm a.isLt v
  · exact Memory.write_read_self hm a.isLt

/-! ### The engine's access in the order of the accesses -/

theorem execProcess_read {s : State} {j i : Nat} (hk : s.keylen = 32) (hn : s.noncelen = 12)
    (hp : pendingProcessEvent s = .read j i) (ha : memAdmit s.platform .read (byteAddr s.src j i) = true) :
    exec .process s = .next (processRead j i s) := by
  rw [execProcess_valid ((validate_none_iff s).mpr ⟨hk, hn⟩)]
  simp only [processStep, hp, ha, if_true]

theorem execProcess_write {s : State} {j i : Nat} (hk : s.keylen = 32) (hn : s.noncelen = 12)
    (hp : pendingProcessEvent s = .write j i) (ha : memAdmit s.platform .write (byteAddr s.dst j i) = true) :
    exec .process s = .next (processWrite j i s) := by
  rw [execProcess_valid ((validate_none_iff s).mpr ⟨hk, hn⟩)]
  simp only [processStep, hp, ha, if_true]

/-- A pending read is of a byte position that the input buffer `ib` has. -/
theorem pendingRead_lt {s : State} {j i : Nat} (hp : pendingProcessEvent s = .read j i) : i < 64 := by
  rcases (nextProcessEvent_read_iff _ _ _ _ _ _).mp hp with ⟨-, hi, -, rfl⟩ | ⟨-, -, -, -, rfl⟩
  · exact hi.trans_le (blockLen_le _ _)
  · decide

/-- A read event puts the byte that memory holds at its place in the order into `ib`. -/
theorem processRead_ib {j i : Nat} (hi : i < 64) (s : State) :
    (processRead j i s).engine.ib[i]? = some (s.byteAt (byteAddr s.src j i)) := by
  obtain ⟨-, -, -, -, -, -, -, hib, -⟩ := processRead_spec j i s
  simp [hib, hi]

/-- A write event leaves the engine's byte at its address. -/
theorem processWrite_byteAt {j i : Nat} (hi : i < 64) (s : State) :
    (processWrite j i s).byteAt (byteAddr s.dst j i) = s.engine.ib[i] ^^^ s.engine.kb[i] := by
  obtain ⟨-, -, hm, -⟩ := processWrite_spec j i s
  simp [State.byteAt, hm, outputByte, Vector.getD, hi]

/-- Settles O49: the event reads and writes the memory as the accesses before it left it, and the accesses after it
find what it left. -/
theorem otherAgentsMeetTheEngineInOrder : Obligations.OtherAgentsMeetTheEngineInOrder := by
  refine ⟨fun s j i v hk hn hp ha => ?_, fun s j i hi hk hn hp ha => ?_⟩
  · have hi := pendingRead_lt hp
    refine ⟨⟨_, execProcess_read (s := agentMemWrite _ v s) hk hn hp ha, ?_⟩,
      ⟨_, execProcess_read hk hn hp ha, processRead_ib hi s⟩⟩
    rw [processRead_ib hi, agentMemWrite_byteAt]
    exact congrArg some (if_pos rfl)
  · exact ⟨rfl, _, execProcess_write hk hn hp ha, congrArg some (processWrite_byteAt hi s)⟩

/-! ### The stuck engine (R205) -/

/-- The access PROCESS comes to is one that MEM_ADMIT refuses. -/
def State.PendingRefused (s : State) : Prop :=
  ∃ j i, (pendingProcessEvent s = .read j i ∧ memAdmit s.platform .read (byteAddr s.src j i) = false) ∨
    (pendingProcessEvent s = .write j i ∧ memAdmit s.platform .write (byteAddr s.dst j i) = false)

/-- A validated PROCESS is BUSY, without DONE and without an error, at an access that MEM_ADMIT refuses. -/
structure State.Stuck (s : State) : Prop where
  busy    : s.busy = true
  done    : s.done = false
  errcode : s.errcode = none
  process : decode s.engine.cur = .ok .process
  valid   : validate s = none
  refused : s.PendingRefused

/-- No reset is among the inputs. -/
def NoReset (xs : List Input) : Prop := ∀ x ∈ xs, ∀ met, x ≠ .reset met

theorem State.PendingRefused.processStep_eq {s : State} (h : s.PendingRefused) : processStep s = .next s := by
  obtain ⟨j, i, ⟨hp, ha⟩ | ⟨hp, ha⟩⟩ := h <;> simp [processStep, hp, ha]

theorem State.Stuck.engineStep_eq {s : State} (h : s.Stuck) : engineStep s = .next s := by
  rw [engineStep_ok h.busy h.process, execProcess_valid h.valid, h.refused.processStep_eq]

/-- What the other agents do to the inputs, memory, DONE, OVR, DONEIE and the read results keeps the engine stuck, where
DONE stays 0. -/
theorem State.Stuck.congr {s : State} (h : s.Stuck) {d : Bool} (hd : d = false) (o e : Bool) (m : Memory)
    (i : List Input) (r : Option Word) (q : Option Byte) :
    State.Stuck { s with done := d, ovr := o, doneie := e, mem := m, inputs := i, lastRead := r, lastMemRead := q } :=
  ⟨h.busy, hd, h.errcode, h.process, h.valid, h.refused⟩

/-- Every step but reset keeps the engine stuck. -/
theorem step_keeps_stuck {s t : State} (hs : s.Stuck) (hr : NoReset s.inputs) (h : step s = .next t) : t.Stuck := by
  have toRest (rest : List Input) : State.Stuck { s with inputs := rest } :=
    hs.congr hs.done _ _ _ _ _ _
  rcases step_turns h with ⟨-, rest, he⟩ | ⟨a, v, rest, -, -, rfl⟩ | ⟨met, rest, hi, -⟩ | ⟨_, _, _, _, -, rfl⟩
  · rw [(toRest rest).engineStep_eq] at he
    exact Host.Outcome.next.inj he ▸ toRest rest
  · obtain ⟨d, o, e, hd, hw⟩ :=
      writeOffset_running (s := { s with inputs := rest }) hs.busy (a.addr - s.platform.base) v
    rw [hw]
    exact hs.congr (hd hs.done) _ _ _ _ _ _
  · exact absurd rfl (hr (.reset met) (by simp [hi]) met)
  · exact hs.congr hs.done _ _ _ _ _ _

theorem writeOffset_inputs (off : Nat) (v : Word) (s : State) : (writeOffset off v s).inputs = s.inputs := by
  rcases writeOffset_cases off v s with h | ⟨-, -, h⟩ | ⟨-, -, h⟩ | ⟨-, h⟩ | ⟨-, h⟩ | ⟨-, r, -, hc, hk, h⟩ <;> rw [h]
  · rfl
  · rfl
  · rfl
  · obtain ⟨-, -, -, -, -, -, -, -, -, -, hi⟩ := storeReg_operand hc hk v s
    exact hi

/-- A step takes the first input off, and a poll that reads DONE = 0 puts the engine's turn and the next poll in its
place. -/
theorem step_inputs {s t : State} (h : step s = .next t) :
    t.inputs = s.inputs.tail ∨ ∃ m, t.inputs = .core .engine :: .wait m :: s.inputs.tail := by
  rcases step_cases h with ⟨hi, he⟩ | ⟨rest, hi, he⟩ | ⟨a, rest, hi, -, rfl⟩ | ⟨a, v, rest, hi, -, rfl⟩ |
    ⟨m, rest, hi, -, rfl⟩ | ⟨met, rest, hi, rfl⟩ | ⟨a, rest, hi, rfl⟩ | ⟨a, v, rest, hi, rfl⟩
  · exact .inl ((engineStep_keeps_frame he).inputs.trans (by simp [hi]))
  · exact .inl ((engineStep_keeps_frame he).inputs.trans (by simp [hi]))
  · exact .inl (by simp [hi])
  · exact .inl (by simp [writeOffset_inputs, hi])
  · cases hd : s.done with
    | true => exact .inl (by simp [hi])
    | false => exact .inr ⟨m, by simp [hi]⟩
  · exact .inl (by simp [hi])
  · exact .inl (by simp [hi, agentMemRead])
  · exact .inl (by simp [hi, agentMemWrite])

/-- No step brings a reset that was not pending. -/
theorem step_keeps_noReset {s t : State} (hr : NoReset s.inputs) (h : step s = .next t) : NoReset t.inputs := by
  have htail : NoReset s.inputs.tail := fun x hx => hr x (List.mem_of_mem_tail hx)
  rcases step_inputs h with hi | ⟨m, hi⟩ <;> rw [hi]
  · exact htail
  · intro x hx
    rcases List.mem_cons.mp hx with rfl | hx
    · simp
    · rcases List.mem_cons.mp hx with rfl | hx
      · simp
      · exact htail x hx

/-- Every run without a reset keeps the engine stuck. -/
theorem run_keeps_stuck {n : Nat} {s t : State} (hs : s.Stuck) (hr : NoReset s.inputs) (h : core.run n s = .next t) :
    t.Stuck := by
  induction n generalizing s with
  | zero => exact Host.Outcome.next.inj h ▸ hs
  | succ n ih =>
    obtain ⟨u, hu, h⟩ := run_succ_next h
    exact ih (step_keeps_stuck hs hr hu) (step_keeps_noReset hr hu) h

/-- A stuck engine left alone stays as it is however many turns it gets. -/
theorem run_stuck_alone {s : State} (hs : s.Stuck) (hi : s.inputs = []) (n : Nat) : core.run n s = .next s := by
  induction n with
  | zero => rfl
  | succ n ih => rw [run_cons ((step_alone hi).trans hs.engineStep_eq), ih]

/-- Settles O44: being stuck is an invariant of every run without a reset. -/
theorem refusedAccessLeavesTheEngineStuck : Obligations.RefusedAccessLeavesTheEngineStuck := by
  intro s j i hi hb hd he hp hk hn hrefused
  have hs : s.Stuck := ⟨hb, hd, he, hp, (validate_none_iff s).mpr ⟨hk, hn⟩, j, i, hrefused⟩
  refine ⟨run_stuck_alone hs hi, fun n xs t hxs h => ?_⟩
  have ht := run_keeps_stuck (hs.congr hd _ _ _ xs _ _) hxs h
  exact ⟨ht.busy, ht.done, ht.errcode⟩

end Machine
end Sys2Proof
end

