-- ==== Sys2Proof/Proofs/CommandWord.lean ====
section
/-! SUPPORT for the statements about the command word, and the proofs of DecodeAndEncodeAgree, DecoderIsTheRuleOnBits,
WrittenWordsDecode and AssemblerWordsDecode. The idea: the fields of a word are digits of its number, so a word is the sum
of its fields, and a word decodes to a command exactly when it is that command's encoding. -/

namespace Sys2Proof

/-- A bit vector put above another: the upper one counts in units of the lower one's range. -/
theorem toNat_append_eq_add {m n : Nat} (x : BitVec m) (y : BitVec n) :
    (x ++ y).toNat = x.toNat * 2 ^ n + y.toNat := by
  rw [BitVec.toNat_append, ← Nat.shiftLeft_add_eq_or_of_lt y.isLt, Nat.shiftLeft_eq]

namespace Cmd32

/-! ### The fields as numbers -/

theorem op_eq_iff (w : Word) (x : BitVec 4) : op w = x ↔ w.toNat % 2 ^ 4 = x.toNat := by
  rw [← BitVec.toNat_inj, op, extractLsb'_toNat, pow_zero, Nat.div_one]

theorem rsv0_eq_zero_iff (w : Word) : rsv0 w = 0 ↔ w.toNat / 2 ^ 4 % 2 ^ 4 = 0 := by
  rw [← BitVec.toNat_inj, rsv0, extractLsb'_toNat]; rfl

theorem rsv1_eq_zero_iff (w : Word) : rsv1 w = 0 ↔ w.toNat / 2 ^ 24 = 0 := by
  rw [← BitVec.toNat_inj, rsv1, extractLsb'_toNat, Nat.mod_eq_of_lt (by omega)]; rfl

theorem operandBits_eq_zero_iff (w : Word) : operandBits w = 0 ↔ w.toNat / 2 ^ 8 % 2 ^ 16 = 0 := by
  rw [← BitVec.toNat_inj, operandBits, extractLsb'_toNat]; rfl

/-- A 4-bit field as an index of STATE (R302). -/
theorem toFin_extractLsb' (w : Word) (k : Nat) : (w.extractLsb' k 4).toFin = Fin.ofNat 16 (w.toNat / 2 ^ k) :=
  Fin.ext (extractLsb'_toNat w k 4)

/-- The number of a word put together from fields (R301). -/
theorem toNat_ofFields (o : BitVec 4) (a b c d : Fin 16) :
    (ofFields o a b c d).toNat = o.toNat + a.val * 2 ^ 8 + b.val * 2 ^ 12 + c.val * 2 ^ 16 + d.val * 2 ^ 20 := by
  simp only [ofFields, toNat_append_eq_add, BitVec.toNat_ofFin, BitVec.toNat_ofNat]
  omega

/-- A word without reserved bits is put together from its own fields. -/
theorem ofFields_self {w : Word} (h0 : rsv0 w = 0) (h1 : rsv1 w = 0) :
    ofFields (op w) (a w) (b w) (c w) (d w) = w := by
  rw [rsv0_eq_zero_iff] at h0
  rw [rsv1_eq_zero_iff] at h1
  rw [← BitVec.toNat_inj, toNat_ofFields]
  simp only [op, a, b, c, d, toFin_extractLsb', extractLsb'_toNat, Fin.val_ofNat]
  omega

/-- A word without reserved and operand bits is put together from its opcode. -/
theorem ofFields_op {w : Word} (h0 : rsv0 w = 0) (h1 : rsv1 w = 0) (ho : operandBits w = 0) :
    ofFields (op w) 0 0 0 0 = w := by
  rw [rsv0_eq_zero_iff] at h0
  rw [rsv1_eq_zero_iff] at h1
  rw [operandBits_eq_zero_iff] at ho
  rw [← BitVec.toNat_inj, toNat_ofFields]
  simp only [op, extractLsb'_toNat, Fin.val_zero]
  omega

/-- QROUND's mask of R304 takes the operands off a word, and nothing else. -/
theorem ofFields_and_mask (o : BitVec 4) (a b c d : Fin 16) :
    ofFields o a b c d &&& 0xFF0000FF = ofFields o 0 0 0 0 := by
  apply BitVec.eq_of_getLsbD_eq
  intro i hi
  simp only [ofFields, BitVec.getLsbD_and, BitVec.getLsbD_append]
  interval_cases i <;> simp

end Cmd32

/-! ### The decoder and the encoder -/

theorem toOption_decode_eq_some_iff (w : Word) (i : Instr) : (decode w).toOption = some i ↔ decode w = .ok i := by
  cases decode w <;> simp [Except.toOption]

theorem toOption_decode_eq_none_iff (w : Word) : (decode w).toOption = none ↔ ∀ i, decode w ≠ .ok i := by
  cases decode w <;> simp [Except.toOption]

/-- The decoder without the reason it gives for an illegal word: R304's tests, that of the operand fields made once. -/
theorem toOption_decode (w : Word) :
    (decode w).toOption =
      if Cmd32.rsv0 w ≠ 0 ∨ Cmd32.rsv1 w ≠ 0 then none
      else if Cmd32.op w = 2 then some (.qround (Cmd32.a w) (Cmd32.b w) (Cmd32.c w) (Cmd32.d w))
      else if Cmd32.operandBits w ≠ 0 then none
      else if Cmd32.op w = 1 then some .build
      else if Cmd32.op w = 3 then some .dround
      else if Cmd32.op w = 4 then some .block
      else if Cmd32.op w = 5 then some .process
      else none := by
  unfold decode decodeBare
  split_ifs <;> simp_all [Except.toOption]

theorem decode_of_op_two {w : Word} (h0 : Cmd32.rsv0 w = 0) (h1 : Cmd32.rsv1 w = 0) (hop : Cmd32.op w = 2) :
    decode w = .ok (.qround (Cmd32.a w) (Cmd32.b w) (Cmd32.c w) (Cmd32.d w)) := by
  simp [decode, h0, h1, hop]

/-- No bit of an encoding is dropped. -/
theorem decode_encode (i : Instr) : decode (encode i) = .ok i := by
  cases i with
  | qround a b c d =>
    obtain ⟨hop, h0, h1, ha, hb, hc, hd⟩ := Cmd32.fields_ofFields 2 a b c d
    have h := decode_of_op_two h0 h1 hop
    rwa [ha, hb, hc, hd] at h
  | build | dround | block | process => decide

/-- A word that decodes holds its command's fields and nothing else. -/
theorem encode_of_decode {w : Word} {i : Instr} (h : decode w = .ok i) : encode i = w := by
  rw [← toOption_decode_eq_some_iff, toOption_decode] at h
  split_ifs at h with hr hq ho h1 h3 h4 h5 <;> obtain rfl := Option.some.inj h <;>
    obtain ⟨hr0, hr1⟩ : Cmd32.rsv0 w = 0 ∧ Cmd32.rsv1 w = 0 := by simpa using hr
  · have hw := Cmd32.ofFields_self hr0 hr1
    rwa [hq] at hw
  all_goals have hw := Cmd32.ofFields_op hr0 hr1 (not_not.mp ho)
  · rwa [h1] at hw
  · rwa [h3] at hw
  · rwa [h4] at hw
  · rwa [h5] at hw

/-- The decoder and the encoder are inverse to each other on the legal words. -/
theorem decode_ok_iff (w : Word) (i : Instr) : decode w = .ok i ↔ encode i = w :=
  ⟨encode_of_decode, fun h => h ▸ decode_encode i⟩

/-- The bytes of CMD carry the whole word (R202). -/
theorem decodeBytes_bytesLe (w : Word) : decodeBytes (bytesLe w) = decode w := congrArg decode (le32_bytes w)

/-- Settles O2: an encoding decodes by its fields, and a word that decodes is the sum of its fields. -/
theorem decodeAndEncodeAgree : Obligations.DecodeAndEncodeAgree :=
  ⟨fun i _ => ⟨decode_encode i, (decodeBytes_bytesLe _).trans (decode_encode i)⟩, fun _ _ => encode_of_decode⟩

/-! ### The match and mask table -/

theorem and_fullMask_eq_iff (w v : Word) : w &&& 0xFFFFFFFF = v ↔ v = w := by
  have hmask : (0xFFFFFFFF : Word) = BitVec.allOnes 32 := rfl
  rw [hmask, BitVec.and_allOnes, eq_comm]

/-- QROUND's row of R304 fixes the fields that its mask covers and leaves the operands free. -/
theorem and_qroundMask_eq_iff (w : Word) :
    w &&& 0xFF0000FF = 0x00000002 ↔ ∃ a b c d, encode (.qround a b c d) = w := by
  constructor
  · intro h
    have field (k n : Nat) (hk : (0xFF0000FF : Word).extractLsb' k n = BitVec.allOnes n) :
        w.extractLsb' k n = (0x00000002 : Word).extractLsb' k n := by
      rw [← h, BitVec.extractLsb'_and, hk, BitVec.and_allOnes]
    exact ⟨_, _, _, _, encode_of_decode (decode_of_op_two (field 4 4 rfl) (field 24 8 rfl) (field 0 4 rfl))⟩
  · rintro ⟨a, b, c, d, rfl⟩
    exact Cmd32.ofFields_and_mask 2 a b c d

/-- Settles O1: the decoder's tests in numbers; a row matches exactly the encodings of its command, so the command a word
decodes to is the one row that matches. -/
theorem decoderIsTheRuleOnBits : Obligations.DecoderIsTheRuleOnBits := by
  intro w
  have bare {i : Instr} {v : Word} (hv : encode i = v) :
      (decode w).toOption = some i ↔ w &&& 0xFFFFFFFF = v := by
    rw [toOption_decode_eq_some_iff, decode_ok_iff, and_fullMask_eq_iff, hv]
  have hbuild := bare (i := .build) (v := 0x00000001) rfl
  have hqround : (∃ a b c d, (decode w).toOption = some (.qround a b c d)) ↔ w &&& 0xFF0000FF = 0x00000002 := by
    simp only [toOption_decode_eq_some_iff, decode_ok_iff, and_qroundMask_eq_iff]
  have hdround := bare (i := .dround) (v := 0x00000003) rfl
  have hblock := bare (i := .block) (v := 0x00000004) rfl
  have hprocess := bare (i := .process) (v := 0x00000005) rfl
  refine ⟨?_, hbuild, hqround, hdround, hblock, hprocess, ?_⟩
  · simp only [toOption_decode, ne_eq, Cmd32.op_eq_iff, Cmd32.rsv0_eq_zero_iff, Cmd32.rsv1_eq_zero_iff,
      Cmd32.operandBits_eq_zero_iff, Cmd32.a, Cmd32.b, Cmd32.c, Cmd32.d, Cmd32.toFin_extractLsb']
    rfl
  · simp only [List.countP_cons, List.countP_nil, beq_iff_eq, ← hbuild, ← hqround, ← hdround, ← hblock, ← hprocess]
    rcases (decode w).toOption with _ | _ | _ | _ | _ | _ <;> simp

/-- Settles O3: twelve words, each decoded. -/
theorem writtenWordsDecode : Obligations.WrittenWordsDecode := by
  unfold Obligations.WrittenWordsDecode
  decide

/-! ### The assembler -/

namespace Machine

theorem wellFormed_qround_iff (a b c d : Nat) :
    (AsmCommand.qround a b c d).wellFormed = true ↔ a < 16 ∧ b < 16 ∧ c < 16 ∧ d < 16 := by
  simp only [AsmCommand.wellFormed, asmIndexOk, Bool.and_eq_true, decide_eq_true_eq, Nat.lt_succ_iff, and_assoc]

/-- The number of an assembled QROUND: no operand below 16 spills into the next field (R306). -/
theorem toNat_word_qround {a b c d : Nat} (ha : a < 16) (hb : b < 16) (hc : c < 16) (hd : d < 16) :
    (AsmCommand.qround a b c d).word.toNat = 2 + a * 2 ^ 8 + b * 2 ^ 12 + c * 2 ^ 16 + d * 2 ^ 20 := by
  have hop : ((2 : Nat) : Word).toNat = 2 := rfl
  simp only [AsmCommand.word, BitVec.toNat_add, BitVec.toNat_shiftLeft, BitVec.toNat_ofNat, Nat.shiftLeft_eq, hop]
  omega

/-- The word of R306 is the encoding of R301. -/
theorem encode_qround_eq_word {a b c d : Nat} (ha : a < 16) (hb : b < 16) (hc : c < 16) (hd : d < 16) :
    encode (.qround ⟨a, ha⟩ ⟨b, hb⟩ ⟨c, hc⟩ ⟨d, hd⟩) = (AsmCommand.qround a b c d).word := by
  rw [← BitVec.toNat_inj, toNat_word_qround ha hb hc hd, encode, Cmd32.toNat_ofFields]
  rfl

theorem decode_word_qround {a b c d : Nat} (ha : a < 16) (hb : b < 16) (hc : c < 16) (hd : d < 16) :
    decode (AsmCommand.qround a b c d).word = .ok (.qround ⟨a, ha⟩ ⟨b, hb⟩ ⟨c, hc⟩ ⟨d, hd⟩) :=
  (decode_ok_iff _ _).mpr (encode_qround_eq_word ha hb hc hd)

/-- Settles O4: an assembled word is the encoding of its command. -/
theorem assemblerWordsDecode : Obligations.AssemblerWordsDecode := by
  refine ⟨by decide, by decide, by decide, by decide, fun a b c d => ⟨fun ha hb hc hd => ?_, fun h => ?_⟩⟩
  · have hwf := (wellFormed_qround_iff a b c d).mpr ⟨ha, hb, hc, hd⟩
    exact ⟨_, if_pos hwf, toNat_word_qround ha hb hc hd, decode_word_qround ha hb hc hd⟩
  · refine if_neg fun hwf => ?_
    have hlt := (wellFormed_qround_iff a b c d).mp hwf
    omega

end Machine
end Sys2Proof
end

