-- ==== Sys2Proof/Proofs/CommandStep.lean ====
section
/-! The proofs of IllegalCommandHasNoOtherEffect and StepRunsTheDecodedCommand: the engine's step by what the running word
decodes to. -/

namespace Sys2Proof

/-- R305: which words are illegal. -/
theorem decode_ne_ok_iff (w : Word) :
    (∀ i, decode w ≠ .ok i) ↔
      Cmd32.op w = 0 ∨ 6 ≤ (Cmd32.op w).toNat ∨ Cmd32.rsv0 w ≠ 0 ∨ Cmd32.rsv1 w ≠ 0 ∨
      (Cmd32.op w ≠ 2 ∧ Cmd32.operandBits w ≠ 0) := by
  have reserved : ∀ x : BitVec 4, (x = 0 ∨ 6 ≤ x.toNat) ↔ x ≠ 1 ∧ x ≠ 2 ∧ x ≠ 3 ∧ x ≠ 4 ∧ x ≠ 5 := by decide
  rw [← toOption_decode_eq_none_iff, toOption_decode, ← or_assoc, reserved]
  split_ifs <;> simp only [true_iff, false_iff] <;> tauto

namespace Machine

/-- STATUS after a command completed with IllegalCommand: ERRCODE 3, ERR and DONE, with OVR as it was (R104, R601). -/
theorem statusWord_raise_illegalCommand (s : State) :
    statusWord (raiseError .illegalCommand s) = if s.ovr then 0x0000003E else 0x00000036 := by
  have h : statusWord (raiseError .illegalCommand s) =
      0#24 ++ 3#4 ++ BitVec.ofBool s.ovr ++ BitVec.ofBool true ++ BitVec.ofBool true ++ BitVec.ofBool false := rfl
  rw [h]
  cases s.ovr <;> rfl

/-- Settles O5: an illegal word is accepted like any other, and the engine's next step raises. -/
theorem illegalCommandHasNoOtherEffect : Obligations.IllegalCommandHasNoOtherEffect := by
  refine fun w => ⟨decode_ne_ok_iff w, fun hw s hb => ⟨writeReg_idle hb .cmd w, ?_⟩⟩
  cases hd : decode w with
  | ok i => exact absurd hd (hw i)
  | error e =>
    exact ⟨_, engineStep_error (s := accept w s) rfl hd, complete_completed _ _,
      statusWord_raise_illegalCommand (accept w s), rfl, rfl, rfl, ⟨rfl, rfl, rfl, rfl, rfl, rfl, rfl, rfl⟩,
      rfl, rfl, rfl, fun _ => rfl, rfl⟩

/-- Of a command word nothing is dropped on its way to the engine: it is 32 bits long. -/
theorem withFetchWord_encode (i : Instr) (s : State) :
    s.withFetchWord 32 (encode i).toNat = { accept (encode i) s with inputs := .core .engine :: s.inputs } := by
  rw [State.withFetchWord, Nat.mod_eq_of_lt (BitVec.isLt _), BitVec.ofNat_toNat, BitVec.setWidth_eq]

/-- Settles O36: the engine's turn, whichever way it comes, by what the running word decodes to. -/
theorem stepRunsTheDecodedCommand : Obligations.StepRunsTheDecodedCommand := by
  refine fun s => ⟨fun i hi hb hd => ?_, fun i rest hi hb hd => ?_, fun e hi hb hd => ?_, fun e rest hi hb hd => ?_,
    fun hi hb => ?_, fun rest hi hb => ?_, fun i => ?_⟩
  · exact (step_alone hi).trans (engineStep_ok hb hd)
  · exact (step_engine hi).trans (engineStep_ok (s := { s with inputs := rest }) hb hd)
  · exact (step_alone hi).trans (engineStep_error hb hd)
  · exact (step_engine hi).trans (engineStep_error (s := { s with inputs := rest }) hb hd)
  · exact (step_alone hi).trans (engineStep_idle hb)
  · exact (step_engine hi).trans (engineStep_idle (s := { s with inputs := rest }) hb)
  · rw [withFetchWord_encode]
    exact (step_engine rfl).trans (engineStep_ok (s := accept (encode i) s) rfl (decode_encode i))

end Machine
end Sys2Proof
end

