-- ==== Sys2Proof/Proofs/Scripts.lean ====
section
/-! SUPPORT for host scripts of `issue` and `wait` pairs (R307, R308), and the proof of ColroundThenDiagroundIsDround. The
idea: a pair of a command that works on STATE alone is four steps of the machine, and a script of pairs is an induction
over its commands. -/

namespace Sys2Proof
namespace Machine

/-! ### The commands that work on STATE alone -/

/-- What QROUND and DROUND leave in STATE (R453, R504); none for the other commands, which need more than STATE. -/
def AsmCommand.mix : AsmCommand → CipherState → Option CipherState
  | .qround a b c d, x => some (quarterRound x (Fin.ofNat 16 a) (Fin.ofNat 16 b) (Fin.ofNat 16 c) (Fin.ofNat 16 d))
  | .dround, x => some (doubleRound x)
  | .build, _ | .block, _ | .process, _ => none

/-- The engine's turn on the word of such a command. -/
theorem engineStep_mix {c : AsmCommand} (hc : c.wellFormed = true) {s : State} (hb : s.busy = true)
    (hcur : s.engine.cur = c.word) {x : CipherState} (hx : c.mix s.cipher = some x) :
    engineStep s = .next (complete none (setCipher x s)) := by
  cases c with
  | qround a b c d =>
    obtain ⟨ha, hb', hc', hd⟩ := (wellFormed_qround_iff a b c d).mp hc
    rw [engineStep_ok hb (hcur ▸ decode_word_qround ha hb' hc' hd), exec_qround, ← Option.some.inj hx]
    simp only [Fin.ofNat, Nat.mod_eq_of_lt, ha, hb', hc', hd]
  | dround =>
    have hd : decode (AsmCommand.word .dround) = .ok .dround := by decide
    rw [engineStep_ok hb (hcur ▸ hd), exec_dround, ← Option.some.inj hx]
  | build | block | process => cases hx

/-! ### Waiting -/

/-- The machine after a poll of STATUS that leaves these inputs pending (R307). -/
def State.polled (s : State) (xs : List Input) : State := { s with lastRead := some (statusWord s), inputs := xs }

/-- A poll while the command runs: the engine has its turn and the host polls again (log entry 18). -/
theorem step_wait_running {s : State} {m : Nat} {rest : List Input} (hi : s.inputs = .wait m :: rest)
    (hm : m ∉ s.platform.deniedMasters) (hd : s.done = false) :
    step s = .next (s.polled (.core .engine :: .wait m :: rest)) := by
  simp [step_wait hi hm, hd, State.polled]

/-- A poll of a completed command ends the wait. -/
theorem step_wait_done {s : State} {m : Nat} {rest : List Input} (hi : s.inputs = .wait m :: rest)
    (hm : m ∉ s.platform.deniedMasters) (hd : s.done = true) : step s = .next (s.polled rest) := by
  simp [step_wait hi hm, hd, State.polled]

/-- A wait for a command that the engine's next turn completes: a poll that reads DONE = 0, that turn, and a poll that
reads DONE = 1. -/
theorem run_wait {s t : State} {m : Nat} {rest : List Input} (hi : s.inputs = .wait m :: rest)
    (hm : m ∉ s.platform.deniedMasters) (hd : s.done = false)
    (he : engineStep (s.polled (.wait m :: rest)) = .next t) (ht : t.done = true) :
    core.run 3 s = .next (t.polled rest) := by
  have hf := engineStep_keeps_frame he
  have hturn : step (s.polled (.core .engine :: .wait m :: rest)) = .next t := (step_engine rfl).trans he
  have hlast := step_wait_done hf.inputs (hf.platform ▸ hm) ht
  exact (run_cons (step_wait_running hi hm hd) 2).trans <| (run_cons hturn 1).trans <| run_cons hlast 0

/-! ### Scripts -/

/-- An `issue` and `wait` pair of a command that works on STATE alone: acceptance, and the wait. -/
theorem run_issue_wait {c : AsmCommand} (hc : c.wellFormed = true) {s : State} {m : Nat} {rest : List Input}
    (hb : s.busy = false) (hm : m ∉ s.platform.deniedMasters)
    (hi : s.inputs = scriptInputs s.platform m [.issue c, .wait] ++ rest)
    {x : CipherState} (hx : c.mix s.cipher = some x) :
    ∃ t, core.run 4 s = .next t ∧ t.inputs = rest ∧ t.busy = false ∧ t.platform = s.platform ∧ t.cipher = x := by
  have haccept : step s = .next (accept c.word { s with inputs := .wait m :: rest }) := by
    rw [step_write_reg hi rfl hm, writeReg_idle (by exact hb)]
    rfl
  have hwait := run_wait (s := accept c.word { s with inputs := .wait m :: rest }) rfl hm rfl
    (engineStep_mix hc rfl rfl hx) rfl
  exact ⟨_, (run_cons haccept 3).trans hwait, rfl, rfl, rfl, rfl⟩

/-- A script of such pairs runs its commands on STATE one after the other. -/
theorem run_issueEach {cs : List AsmCommand} (hcs : ∀ c ∈ cs, c.wellFormed = true) {s : State} {m : Nat}
    (hb : s.busy = false) (hm : m ∉ s.platform.deniedMasters)
    (hi : s.inputs = scriptInputs s.platform m (issueEach cs))
    {x : CipherState} (hx : cs.foldlM (fun y c => c.mix y) s.cipher = some x) :
    ∃ n t, core.run n s = .next t ∧ t.inputs = [] ∧ t.busy = false ∧ t.cipher = x := by
  induction cs generalizing s with
  | nil => exact ⟨0, s, rfl, hi, hb, Option.some.inj hx⟩
  | cons c cs ih =>
    obtain ⟨y, hy, hx⟩ := Option.bind_eq_some_iff.mp hx
    obtain ⟨u, hrun, hiu, hbu, hpu, rfl⟩ := run_issue_wait (hcs c (by simp)) hb hm hi hy
    obtain ⟨n, t, hrun', ht⟩ := ih (fun d hd => hcs d (by simp [hd])) hbu (hpu ▸ hm) (hpu ▸ hiu) hx
    exact ⟨4 + n, t, run_add hrun hrun', ht⟩

theorem run_withScript_issueEach {cs : List AsmCommand} (hcs : ∀ c ∈ cs, c.wellFormed = true) {s : State} {m : Nat}
    (hb : s.busy = false) (hi : s.inputs = []) (hm : m ∉ s.platform.deniedMasters)
    {x : CipherState} (hx : cs.foldlM (fun y c => c.mix y) s.cipher = some x) :
    ∃ n t, core.run n (s.withScript m (issueEach cs)) = .next t ∧ t.inputs = [] ∧ t.busy = false ∧ t.cipher = x :=
  run_issueEach (s := s.withScript m (issueEach cs)) hcs hb hm (by simp [State.withScript, hi]) hx

/-- The eight commands of `colround` and `diaground` (R308). -/
def doubleRoundCommands : List AsmCommand :=
  [.qround 0 4 8 12, .qround 1 5 9 13, .qround 2 6 10 14, .qround 3 7 11 15,
   .qround 0 5 10 15, .qround 1 6 11 12, .qround 2 7 8 13, .qround 3 4 9 14]

theorem issueEach_doubleRoundCommands : issueEach doubleRoundCommands = colround ++ diaground := rfl

theorem foldlM_mix_doubleRoundCommands (x : CipherState) :
    doubleRoundCommands.foldlM (fun y c => c.mix y) x = some (doubleRound x) := rfl

/-- Settles O60: both scripts are pairs of commands that work on STATE alone, and both compose to the double round. -/
theorem colroundThenDiagroundIsDround : Obligations.ColroundThenDiagroundIsDround := by
  intro s m hb hi hm
  obtain ⟨n, t, hrun, hend⟩ :=
    run_withScript_issueEach (by decide) hb hi hm (foldlM_mix_doubleRoundCommands s.cipher)
  obtain ⟨n', t', hrun', hend'⟩ := run_withScript_issueEach (cs := [.dround]) (by decide) hb hi hm rfl
  rw [issueEach_doubleRoundCommands] at hrun
  obtain ⟨hit, hbt, hct⟩ := hend
  obtain ⟨hit', hbt', hct'⟩ := hend'
  exact ⟨n, n', t, t', hrun, hit, hbt, hrun', hit', hbt', hct.trans hct'.symm, hct'⟩

end Machine
end Sys2Proof
end

