-- ==== Sys2Proof/Proofs/StateBuilder.lean ====
section
/-! SUPPORT for the statements about the state builder and BUILD (R400 to R410), and the proofs of
KeyAndNonceAreLittleEndian, WordTwelveIsTheCounter, BuildWritesTheState, WrongLengthsRaiseBeforeAnyWork and
BuildStateLaysOutSixteenWords. The idea: a byte of a word is the byte it was put together from, and the bytes of a
register put together again are the register, so the state built from the registers holds the registers. -/

namespace Sys2Proof

/-! ### The words of the built state, by their part of the layout (R402) -/

theorem get_buildState_key (K : Vector Byte 32) (ctr : Word) (N : Vector Byte 12) (k : Fin 8) :
    (buildState K ctr N).get ⟨4 + k.val, by omega⟩ =
      le32 K[4 * k.val] K[4 * k.val + 1] K[4 * k.val + 2] K[4 * k.val + 3] := by
  rw [get_buildState, dif_neg (by simp), dif_pos (by simp; omega)]
  simp only [Nat.add_sub_cancel_left]

theorem get_buildState_nonce (K : Vector Byte 32) (ctr : Word) (N : Vector Byte 12) (k : Fin 3) :
    (buildState K ctr N).get ⟨13 + k.val, by omega⟩ =
      le32 N[4 * k.val] N[4 * k.val + 1] N[4 * k.val + 2] N[4 * k.val + 3] := by
  rw [get_buildState, dif_neg (by simp; omega), dif_neg (by simp; omega), dif_neg (by simp; omega)]
  simp only [Nat.add_sub_cancel_left]

@[simp] theorem get_buildState_counter (K : Vector Byte 32) (ctr : Word) (N : Vector Byte 12) :
    (buildState K ctr N).get 12 = ctr := get_buildState K ctr N 12

/-- The layout as one vector, with the constants of R401 as numbers. -/
theorem buildState_eq (K : Vector Byte 32) (ctr : Word) (N : Vector Byte 12) :
    buildState K ctr N =
      (#v[0x61707865, 0x3320646e, 0x79622d32, 0x6b206574,
        le32 K[0] K[1] K[2] K[3], le32 K[4] K[5] K[6] K[7], le32 K[8] K[9] K[10] K[11],
        le32 K[12] K[13] K[14] K[15], le32 K[16] K[17] K[18] K[19], le32 K[20] K[21] K[22] K[23],
        le32 K[24] K[25] K[26] K[27], le32 K[28] K[29] K[30] K[31],
        ctr, le32 N[0] N[1] N[2] N[3], le32 N[4] N[5] N[6] N[7], le32 N[8] N[9] N[10] N[11]] : CipherState) := by
  apply CipherState.ext_get
  intro i
  rw [get_buildState]
  fin_cases i <;> rfl

/-- Settles O6: the layout, read as a list. -/
theorem buildStateLaysOutSixteenWords : Obligations.BuildStateLaysOutSixteenWords := fun K ctr N =>
  congrArg Vector.toList (buildState_eq K ctr N)

/-- Byte `b` of a word put together from four neighbouring bytes of a vector. -/
theorem byteOf_le32_getElem {n : Nat} (V : Vector Byte n) (m : Nat) (h : m + 3 < n) (b : Fin 4) :
    byteOf (le32 V[m] V[m + 1] V[m + 2] V[m + 3]) b.val = V[m + b.val] := by
  obtain ⟨h0, h1, h2, h3⟩ := byteOf_le32 V[m] V[m + 1] V[m + 2] V[m + 3]
  match b with
  | 0 => exact h0
  | 1 => exact h1
  | 2 => exact h2
  | 3 => exact h3

namespace Machine

/-! ### The state built from the registers (R406) -/

/-- The four bytes of KEYk put together are KEYk (R112). -/
theorem le32_keyBytes (s : State) (k : Fin 8) :
    le32 (keyBytes s)[4 * k.val] (keyBytes s)[4 * k.val + 1] (keyBytes s)[4 * k.val + 2] (keyBytes s)[4 * k.val + 3] =
      s.key[k] := by
  have hdiv : ∀ b < 4, (4 * k.val + b) / 4 = k.val := by omega
  simp [getElem_keyBytes, hdiv, le32_bytes]

/-- The four bytes of NONCEk put together are NONCEk (R113). -/
theorem le32_nonceBytes (s : State) (k : Fin 3) :
    le32 (nonceBytes s)[4 * k.val] (nonceBytes s)[4 * k.val + 1] (nonceBytes s)[4 * k.val + 2]
      (nonceBytes s)[4 * k.val + 3] = s.nonce[k] := by
  have hdiv : ∀ b < 4, (4 * k.val + b) / 4 = k.val := by omega
  simp [getElem_nonceBytes, hdiv, le32_bytes]

theorem get_regsState_key (s : State) (ctr : Word) (k : Fin 8) :
    (regsState s ctr).get ⟨4 + k.val, by omega⟩ = s.key[k] :=
  (get_buildState_key _ ctr _ k).trans (le32_keyBytes s k)

theorem get_regsState_nonce (s : State) (ctr : Word) (k : Fin 3) :
    (regsState s ctr).get ⟨13 + k.val, by omega⟩ = s.nonce[k] :=
  (get_buildState_nonce _ ctr _ k).trans (le32_nonceBytes s k)

@[simp] theorem get_regsState_counter (s : State) (ctr : Word) : (regsState s ctr).get 12 = ctr :=
  get_buildState_counter _ ctr _

/-- The layout in terms of the registers. -/
theorem regsState_eq (s : State) (ctr : Word) :
    regsState s ctr =
      (#v[0x61707865, 0x3320646e, 0x79622d32, 0x6b206574,
        s.key[0], s.key[1], s.key[2], s.key[3], s.key[4], s.key[5], s.key[6], s.key[7],
        ctr, s.nonce[0], s.nonce[1], s.nonce[2]] : CipherState) := by
  rw [regsState, buildState_eq]
  have key := le32_keyBytes s
  have nonce := le32_nonceBytes s
  congr
  exacts [key 0, key 1, key 2, key 3, key 4, key 5, key 6, key 7, nonce 0, nonce 1, nonce 2]

/-- Settles O7: each word is put together from its bytes, and the registers' bytes give the registers back. -/
theorem keyAndNonceAreLittleEndian : Obligations.KeyAndNonceAreLittleEndian := by
  refine ⟨fun K ctr N b => ⟨fun k => ?_, fun k => ?_⟩,
    fun s ctr => ⟨get_regsState_key s ctr, get_regsState_nonce s ctr⟩⟩
  · rw [get_buildState_key]
    exact byteOf_le32_getElem K (4 * k.val) (by omega) b
  · rw [get_buildState_nonce]
    exact byteOf_le32_getElem N (4 * k.val) (by omega) b

/-! ### The counter (R404) -/

/-- The first read of a block leaves the state built with the block's counter as the retained copy (R116). -/
theorem processRead_first_o (j : Nat) (s : State) :
    (processRead j 0 s).engine.o = regsState s (blockCounter s.ctr j) := rfl

theorem toNat_blockCounter (ctr : Word) (j : Nat) : (blockCounter ctr j).toNat = (ctr.toNat + j) % 2 ^ 32 := by
  simp [blockCounter]

/-- Settles O8: BUILD, BLOCK and the first read of a block of PROCESS each build the state with their own counter. -/
theorem wordTwelveIsTheCounter : Obligations.WordTwelveIsTheCounter := by
  refine ⟨get_buildState_counter, fun s hv => ⟨⟨_, execBuild_valid hv, get_regsState_counter s s.ctr⟩,
    ⟨_, execBlock_valid hv, get_regsState_counter s s.ctr⟩, fun j hp ha => ?_⟩⟩
  obtain ⟨hk, hn⟩ := (validate_none_iff s).mp hv
  refine ⟨_, execProcess_read hk hn hp ha, ?_⟩
  rw [processRead_first_o, get_regsState_counter, toNat_blockCounter]

/-! ### The length checks (R400, R407) and BUILD (R410) -/

/-- The check of R400 with a wrong length: the key first. -/
theorem validate_of_wrong_length {s : State} (h : s.keylen ≠ 32 ∨ s.noncelen ≠ 12) :
    validate s = some (if s.keylen ≠ 32 then .invalidKeyLength else .invalidNonceLength) := by
  rw [validate_some_iff]
  by_cases hk : s.keylen = 32
  · rw [if_neg (not_not_intro hk)]
    exact .inr ⟨hk, h.resolve_left (not_not_intro hk), rfl⟩
  · rw [if_pos hk]
    exact .inl ⟨hk, rfl⟩

/-- Settles O10: the check comes before everything else a command does, and raising only completes the command. -/
theorem wrongLengthsRaiseBeforeAnyWork : Obligations.WrongLengthsRaiseBeforeAnyWork := fun _ hi s h =>
  ⟨_, exec_invalid (validate_of_wrong_length h) hi, raiseError_frame _ s, .of_eq rfl rfl, rfl, rfl,
    complete_completed _ s⟩

/-- Settles O9: legal lengths give the built words, in register terms, and a wrong length raises. -/
theorem buildWritesTheState : Obligations.BuildWritesTheState := by
  refine ⟨fun w => (decode_ok_iff w .build).trans eq_comm, fun s => ?_⟩
  by_cases h : s.keylen = 32 ∧ s.noncelen = 12
  · have hends := setCipher_ends (regsState s s.ctr) none s
    exact ⟨_, execBuild_valid ((validate_none_iff s).mpr h), hends.frame, .of_eq hends.history hends.mem, rfl,
      fun _ => ⟨complete_completed none _, regsState_eq s s.ctr⟩, fun hk => absurd h.1 hk, fun hn => absurd h.2 hn.2⟩
  · obtain ⟨t, ht, hframe, hmem, hcipher, hks, hdone⟩ :=
      wrongLengthsRaiseBeforeAnyWork .build (.inl rfl) s (not_and_or.mp h)
    refine ⟨t, ht, hframe, hmem, hks, fun hvalid => absurd hvalid h, fun hk => ⟨?_, hcipher⟩, fun hn => ⟨?_, hcipher⟩⟩
    · rwa [if_pos hk] at hdone
    · rwa [if_neg (not_not_intro hn.1)] at hdone

end Machine
end Sys2Proof
end

