-- ==== Sys2Proof/Proofs/QuarterRound.lean ====
section
/-! SUPPORT for the statements about the quarter-round and QROUND (R450 to R453), and the proofs of EqualIndicesNameOneWord,
QuarterRoundOnDistinctIndices, QuarterRoundTouchesOnlyItsWords and QroundMixesTheState. The idea: the words of a state are
a map from indices to words, on which a statement of R450 is one update, and the eight statements are twice the same four. -/

namespace Sys2Proof

open CipherState Function

/-! ### The statements of R450 on a map from indices to words -/

/-- `f[x] <- f[x] + f[y]`. -/
def addWord (f : Fin 16 → Word) (x y : Fin 16) : Fin 16 → Word := update f x (f x + f y)

/-- `f[x] <- rotl32(f[x] ^ f[y], n)`, with Lean's own rotation. -/
def mixWord (f : Fin 16 → Word) (x y : Fin 16) (n : Nat) : Fin 16 → Word := update f x ((f x ^^^ f y).rotateLeft n)

/-- Two lines of R450, the rotation amounts left open. -/
def halfWords (f : Fin 16 → Word) (a b c d : Fin 16) (m n : Nat) : Fin 16 → Word :=
  mixWord (addWord (mixWord (addWord f a b) d a m) c d) b c n

/-- The four lines of R450. -/
def quarterWords (f : Fin 16 → Word) (a b c d : Fin 16) : Fin 16 → Word :=
  halfWords (halfWords f a b c d 16 12) a b c d 8 7

theorem get_addInto_eq (s : CipherState) (x y : Fin 16) : (addInto s x y).get = addWord s.get x y :=
  funext fun i => by rw [get_addInto, addWord, update_apply]

theorem get_xorRotInto_eq (s : CipherState) (x y : Fin 16) {n : Nat} (hn : n < 32) :
    (xorRotInto s x y n).get = mixWord s.get x y n :=
  funext fun i => by rw [get_xorRotInto, mixWord, update_apply, rotl32_eq_rotateLeft _ hn]

/-- The words of the quarter-round are the eight statements on the words of the state, for every four indices. -/
theorem get_quarterRound (s : CipherState) (a b c d : Fin 16) :
    (quarterRound s a b c d).get = quarterWords s.get a b c d := by
  have half {m n : Nat} (hm : m < 32) (hn : n < 32) (s : CipherState) :
      (xorRotInto (addInto (xorRotInto (addInto s a b) d a m) c d) b c n).get = halfWords s.get a b c d m n := by
    rw [get_xorRotInto_eq _ _ _ hn, get_addInto_eq, get_xorRotInto_eq _ _ _ hm, get_addInto_eq, halfWords]
  rw [quarterRound_eq, half (by decide) (by decide), half (by decide) (by decide), quarterWords]

/-! ### Four distinct indices, and a = b (R450, R452) -/

theorem halfWords_distinct (f : Fin 16 → Word) {a b c d : Fin 16} (m n : Nat) (hab : a ≠ b) (hac : a ≠ c) (had : a ≠ d)
    (hbc : b ≠ c) (hbd : b ≠ d) (hcd : c ≠ d) :
    let a1 := f a + f b
    let d1 := (f d ^^^ a1).rotateLeft m
    let c1 := f c + d1
    let t := halfWords f a b c d m n
    t a = a1 ∧ t b = (f b ^^^ c1).rotateLeft n ∧ t c = c1 ∧ t d = d1 := by
  simp [halfWords, addWord, mixWord, hab, hac, had, hbc, hbd, hcd, hab.symm, hac.symm, had.symm, hbc.symm, hbd.symm,
    hcd.symm]

/-- With a = b the first statement doubles the word, and the last one reads what it left. -/
theorem halfWords_doubled (f : Fin 16 → Word) {a c d : Fin 16} (m n : Nat) (hac : a ≠ c) (had : a ≠ d) (hcd : c ≠ d) :
    let a1 := f a + f a
    let d1 := (f d ^^^ a1).rotateLeft m
    let c1 := f c + d1
    let t := halfWords f a a c d m n
    t a = (a1 ^^^ c1).rotateLeft n ∧ t c = c1 ∧ t d = d1 := by
  simp [halfWords, addWord, mixWord, hac, had, hcd, hac.symm, had.symm, hcd.symm]

/-- Settles O11: the four new words of each half, one half after the other. -/
theorem quarterRoundOnDistinctIndices : Obligations.QuarterRoundOnDistinctIndices := by
  intro s a b c d hab hac had hbc hbd hcd
  obtain ⟨ha1, hb1, hc1, hd1⟩ := halfWords_distinct s.get 16 12 hab hac had hbc hbd hcd
  have second := halfWords_distinct (halfWords s.get a b c d 16 12) 8 7 hab hac had hbc hbd hcd
  rw [ha1, hb1, hc1, hd1] at second
  simp only [get_quarterRound]
  exact second

/-! ### All four indices equal (R452) -/

theorem zero_rotateLeft (n : Nat) : (0 : Word).rotateLeft n = 0 := by
  simp [BitVec.rotateLeft, BitVec.rotateLeftAux]

/-- Combining a word with itself by exclusive or leaves 0, whatever the rotation. -/
theorem mixWord_self (f : Fin 16 → Word) (x : Fin 16) (n : Nat) : mixWord f x x n = update f x 0 := by
  rw [mixWord, BitVec.xor_self]
  exact congrArg (update f x) (zero_rotateLeft n)

theorem halfWords_self (f : Fin 16 → Word) (a : Fin 16) (m n : Nat) : halfWords f a a a a m n = update f a 0 := by
  simp only [halfWords, mixWord_self, addWord, update_idem]

theorem quarterWords_self (f : Fin 16 → Word) (a : Fin 16) : quarterWords f a a a a = update f a 0 := by
  rw [quarterWords, halfWords_self, halfWords_self, update_idem]

/-- Settles O13: the eight statements are those on the map of words; the other two clauses follow half by half. -/
theorem equalIndicesNameOneWord : Obligations.EqualIndicesNameOneWord := by
  refine ⟨fun s a b c d i => congrFun (get_quarterRound s a b c d) i, fun s a i => ?_, fun s a c d hac had hcd => ?_⟩
  · rw [get_quarterRound, quarterWords_self, update_apply]
  · obtain ⟨ha1, hc1, hd1⟩ := halfWords_doubled s.get 16 12 hac had hcd
    have second := halfWords_doubled (halfWords s.get a a c d 16 12) 8 7 hac had hcd
    rw [ha1, hc1, hd1] at second
    simp only [get_quarterRound]
    exact second

/-! ### The words named and the others (R451) -/

section Words
variable {S : Set (Fin 16)} {f g : Fin 16 → Word} {x y : Fin 16}

/-- Updating a word of `S` leaves the words outside `S`. -/
theorem eqOn_compl_update (hx : x ∈ S) (h : Set.EqOn f g Sᶜ) (v : Word) : Set.EqOn (update f x v) g Sᶜ := fun _ hi =>
  (update_of_ne (ne_of_mem_of_not_mem hx hi).symm v f).trans (h hi)

/-- Two maps that agree on `S` still do after one update with one value. -/
theorem eqOn_update_update (h : Set.EqOn f g S) (v : Word) : Set.EqOn (update f x v) (update g x v) S := fun _ hi => by
  rw [update_apply, update_apply, h hi]

theorem eqOn_addWord (hx : x ∈ S) (hy : y ∈ S) (h : Set.EqOn f g S) : Set.EqOn (addWord f x y) (addWord g x y) S := by
  rw [addWord, addWord, h hx, h hy]
  exact eqOn_update_update h _

theorem eqOn_mixWord (hx : x ∈ S) (hy : y ∈ S) (n : Nat) (h : Set.EqOn f g S) :
    Set.EqOn (mixWord f x y n) (mixWord g x y n) S := by
  rw [mixWord, mixWord, h hx, h hy]
  exact eqOn_update_update h _

variable {a b c d : Fin 16} (ha : a ∈ S) (hb : b ∈ S) (hc : c ∈ S) (hd : d ∈ S)
include ha hb hc hd

theorem eqOn_compl_halfWords (m n : Nat) (h : Set.EqOn f g Sᶜ) : Set.EqOn (halfWords f a b c d m n) g Sᶜ :=
  eqOn_compl_update hb (eqOn_compl_update hc (eqOn_compl_update hd (eqOn_compl_update ha h _) _) _) _

theorem eqOn_halfWords (m n : Nat) (h : Set.EqOn f g S) :
    Set.EqOn (halfWords f a b c d m n) (halfWords g a b c d m n) S :=
  eqOn_mixWord hb hc n <| eqOn_addWord hc hd <| eqOn_mixWord hd ha m <| eqOn_addWord ha hb h

/-- The quarter-round writes only the words named. -/
theorem eqOn_compl_quarterWords : Set.EqOn (quarterWords f a b c d) f Sᶜ :=
  eqOn_compl_halfWords ha hb hc hd 8 7 <| eqOn_compl_halfWords ha hb hc hd 16 12 <| Set.eqOn_refl f Sᶜ

/-- The quarter-round reads only the words named. -/
theorem eqOn_quarterWords (h : Set.EqOn f g S) : Set.EqOn (quarterWords f a b c d) (quarterWords g a b c d) S :=
  eqOn_halfWords ha hb hc hd 8 7 <| eqOn_halfWords ha hb hc hd 16 12 h

end Words

/-- The words that four indices name. -/
def namedWords (a b c d : Fin 16) : Set (Fin 16) := {i | i = a ∨ i = b ∨ i = c ∨ i = d}

/-- A word that no index names keeps its value. -/
theorem get_quarterRound_of_notMem (s : CipherState) {a b c d i : Fin 16} (hi : i ∉ namedWords a b c d) :
    (quarterRound s a b c d).get i = s.get i := by
  rw [get_quarterRound]
  exact eqOn_compl_quarterWords (.inl rfl) (.inr (.inl rfl)) (.inr (.inr (.inl rfl))) (.inr (.inr (.inr rfl))) hi

/-- Settles O12: each statement keeps two states equal on the words named, and writes one of those words. -/
theorem quarterRoundTouchesOnlyItsWords : Obligations.QuarterRoundTouchesOnlyItsWords := by
  refine fun a b c d s s' => ⟨fun i ha hb hc hd => get_quarterRound_of_notMem s ?_, fun h => ?_⟩
  · simp [namedWords, ha, hb, hc, hd]
  · simp only [get_quarterRound]
    exact eqOn_quarterWords (S := namedWords a b c d) (.inl rfl) (.inr (.inl rfl)) (.inr (.inr (.inl rfl)))
      (.inr (.inr (.inr rfl))) h

/-! ### QROUND (R453) -/

theorem halfWords_zero (a b c d : Fin 16) (m n : Nat) : halfWords 0 a b c d m n = 0 := by
  have add (x y : Fin 16) : addWord 0 x y = 0 := update_eq_self x 0
  have mix (x y : Fin 16) (n : Nat) : mixWord 0 x y n = 0 := (mixWord_self 0 x n).trans (update_eq_self x 0)
  rw [halfWords, add, mix, add, mix]

/-- A state of zeros stays so, for every four indices. -/
theorem quarterRound_zero (a b c d : Fin 16) :
    quarterRound (Vector.replicate 16 0) a b c d = Vector.replicate 16 0 := by
  have hzero : CipherState.get (Vector.replicate 16 0) = 0 := funext get_zero
  refine ext_get (congrFun ?_)
  rw [get_quarterRound, hzero, quarterWords, halfWords_zero, halfWords_zero]

/-- QROUND's row of R304 holds exactly the words that decode to QROUND with their own four fields. -/
theorem and_qroundMask_eq_iff_decode (w : Word) :
    w &&& 0xFF0000FF = 0x00000002 ↔
      decode w = .ok (.qround (Cmd32.a w) (Cmd32.b w) (Cmd32.c w) (Cmd32.d w)) := by
  rw [and_qroundMask_eq_iff]
  constructor
  · rintro ⟨a, b, c, d, rfl⟩
    obtain ⟨hop, h0, h1, -⟩ := Cmd32.fields_ofFields 2 a b c d
    exact decode_of_op_two h0 h1 hop
  · exact fun h => ⟨_, _, _, _, encode_of_decode h⟩

namespace Machine

/-- Settles O16: QROUND completes with the quarter-round put into STATE, and its clauses are those of the quarter-round. -/
theorem qroundMixesTheState : Obligations.QroundMixesTheState := by
  refine ⟨and_qroundMask_eq_iff_decode, fun a b c d s => ?_⟩
  have hends := setCipher_ends (quarterRound s.cipher a b c d) none s
  refine ⟨_, exec_qround a b c d s, complete_completed none _, hends.frame, .of_eq hends.history hends.mem, rfl, rfl,
    fun i hi => get_quarterRound_of_notMem s.cipher ?_, fun hzero => ?_⟩
  · simpa [namedWords] using hi
  · exact (congrArg (quarterRound · a b c d) hzero).trans (quarterRound_zero a b c d)

end Machine
end Sys2Proof
end

