-- ==== Sys2Proof/Proofs/BlockFunction.lean ====
section
/-! SUPPORT for the statements about the rounds, the block function, DROUND and BLOCK (R500 to R511), and the proofs of
OrderInsideARoundDoesNotMatter, DroundMixesTheState, BlockFunctionIsEightyQuarterRounds,
SerialisationIsLittleEndianInWordOrder, BlockWritesTheKeystream and EqualOperandsGiveEqualKeystream. The idea: a
quarter-round at four indices is one operation on the state, a round is a fold of it, and folds of operations that
commute have no order. -/

namespace Sys2Proof

open CipherState

/-! ### Quarter-rounds on disjoint sets commute (R503) -/

theorem mem_namedWords {a b c d i : Fin 16} : i ∈ namedWords a b c d ↔ i ∈ [a, b, c, d] := by
  simp [namedWords]

/-- Two states that agree on a set of words still do after a quarter-round at words of the set. -/
theorem eqOn_get_quarterRound {s t : CipherState} {S : Set (Fin 16)} {a b c d : Fin 16}
    (hS : namedWords a b c d ⊆ S) (h : Set.EqOn s.get t.get S) :
    Set.EqOn (quarterRound s a b c d).get (quarterRound t a b c d).get S := by
  have mem {i : Fin 16} (hi : i ∈ [a, b, c, d]) : i ∈ S := hS (mem_namedWords.mpr hi)
  rw [get_quarterRound, get_quarterRound]
  exact eqOn_quarterWords (mem (by simp)) (mem (by simp)) (mem (by simp)) (mem (by simp)) h

/-- A quarter-round does not see an earlier one at other words: outside the earlier one's words the result is as if the
earlier one had not been. -/
theorem get_quarterRound_quarterRound_of_notMem (s : CipherState) {a b c d a' b' c' d' i : Fin 16}
    (hd : Disjoint (namedWords a b c d) (namedWords a' b' c' d')) (hi : i ∉ namedWords a' b' c' d') :
    (quarterRound (quarterRound s a' b' c' d') a b c d).get i = (quarterRound s a b c d).get i :=
  eqOn_get_quarterRound (Set.subset_compl_iff_disjoint_right.mpr hd) (fun _ => get_quarterRound_of_notMem s) hi

theorem quarterRound_comm (s : CipherState) {a b c d a' b' c' d' : Fin 16}
    (hd : Disjoint (namedWords a b c d) (namedWords a' b' c' d')) :
    quarterRound (quarterRound s a b c d) a' b' c' d' = quarterRound (quarterRound s a' b' c' d') a b c d := by
  refine ext_get fun i => ?_
  by_cases hi : i ∈ namedWords a' b' c' d'
  · have hn : i ∉ namedWords a b c d := Set.disjoint_right.mp hd hi
    rw [get_quarterRound_quarterRound_of_notMem s hd.symm hn, get_quarterRound_of_notMem _ hn]
  · rw [get_quarterRound_quarterRound_of_notMem s hd hi, get_quarterRound_of_notMem _ hi]

/-! ### Rounds as folds (R500 to R502) -/

/-- The four indices of one quarter-round. -/
abbrev Quad := Fin 16 × Fin 16 × Fin 16 × Fin 16

/-- The indices of a quadruple, in order. -/
def Quad.indices (q : Quad) : List (Fin 16) := [q.1, q.2.1, q.2.2.1, q.2.2.2]

/-- The quarter-round at a quadruple of indices. -/
def quarterRoundAt (s : CipherState) (q : Quad) : CipherState := quarterRound s q.1 q.2.1 q.2.2.1 q.2.2.2

/-- No two different quadruples of the list share an index. -/
def PairwiseApart (qs : List Quad) : Prop :=
  ∀ p ∈ qs, ∀ q ∈ qs, p ≠ q → ∀ i ∈ p.indices, i ∉ q.indices

theorem quarterRoundAt_comm {p q : Quad} (h : ∀ i ∈ p.indices, i ∉ q.indices) (s : CipherState) :
    quarterRoundAt (quarterRoundAt s p) q = quarterRoundAt (quarterRoundAt s q) p :=
  quarterRound_comm s <| Set.disjoint_left.mpr fun i hp hq => h i (mem_namedWords.mp hp) (mem_namedWords.mp hq)

/-- Quarter-rounds at quadruples that are pairwise apart may be applied in any order. -/
theorem foldl_quarterRoundAt_perm {l qs : List Quad} (hqs : PairwiseApart qs) (hl : l.Perm qs) (s : CipherState) :
    l.foldl quarterRoundAt s = qs.foldl quarterRoundAt s := by
  refine hl.foldl_eq' (fun p hp q hq s => ?_) s
  by_cases h : p = q
  · rw [h]
  · exact quarterRoundAt_comm (hqs p (hl.mem_iff.mp hp) q (hl.mem_iff.mp hq) h) s

/-- The quadruples of R500. -/
def columnQuads : List Quad := [(0, 4, 8, 12), (1, 5, 9, 13), (2, 6, 10, 14), (3, 7, 11, 15)]

/-- The quadruples of R501. -/
def diagonalQuads : List Quad := [(0, 5, 10, 15), (1, 6, 11, 12), (2, 7, 8, 13), (3, 4, 9, 14)]

theorem foldl_columnQuads (s : CipherState) : columnQuads.foldl quarterRoundAt s = columnRound s := rfl

theorem foldl_diagonalQuads (s : CipherState) : diagonalQuads.foldl quarterRoundAt s = diagonalRound s := rfl

theorem columnQuads_apart : PairwiseApart columnQuads := by unfold PairwiseApart; decide

theorem diagonalQuads_apart : PairwiseApart diagonalQuads := by unfold PairwiseApart; decide

/-- One word 1 among zeros tells the two orders of the rounds apart. -/
theorem columnRound_diagonalRound_ne :
    columnRound (diagonalRound (put (Vector.replicate 16 0) 0 1)) ≠
      diagonalRound (columnRound (put (Vector.replicate 16 0) 0 1)) := by
  decide +kernel

/-- Settles O14: a quarter-round reads and writes its own words only, so rounds are folds of commuting operations; the
two rounds in the other order differ on a state with one word 1. -/
theorem orderInsideARoundDoesNotMatter : Obligations.OrderInsideARoundDoesNotMatter := by
  refine ⟨fun s a b c d a' b' c' d' h => quarterRound_comm s ?_, by decide, by decide, fun l hl s => ?_,
    fun l hl s => ?_, _, columnRound_diagonalRound_ne⟩
  · exact Set.disjoint_left.mpr fun i hi hi' => h i (mem_namedWords.mp hi) i (mem_namedWords.mp hi') rfl
  · exact (foldl_quarterRoundAt_perm columnQuads_apart hl s).trans (foldl_columnQuads s)
  · exact (foldl_quarterRoundAt_perm diagonalQuads_apart hl s).trans (foldl_diagonalQuads s)

/-! ### The permutation (R505, R506) -/

theorem foldl_doubleRoundIndices (s : CipherState) :
    doubleRoundIndices.foldl quarterRoundAt s = doubleRound s := rfl

/-- `n` double rounds are the quarter-rounds of one double round, `n` times over. -/
theorem doubleRounds_eq_foldl (n : Nat) (s : CipherState) :
    doubleRounds n s = (List.replicate n doubleRoundIndices).flatten.foldl quarterRoundAt s := by
  induction n generalizing s with
  | zero => rfl
  | succ n ih =>
    rw [List.replicate_succ, List.flatten_cons, List.foldl_append, foldl_doubleRoundIndices, doubleRounds, ih]

/-! ### Serialisation (R508) -/

theorem getElem_serialize_word (x : CipherState) (i : Fin 16) (b : Fin 4) :
    (serialize x)[4 * i.val + b.val] = byteOf (x.get i) b.val := by
  have hdiv : (4 * i.val + b.val) / 4 = i.val := by omega
  have hmod : (4 * i.val + b.val) % 4 = b.val := by omega
  simp only [getElem_serialize, hdiv, hmod]

/-- Settles O19: each byte is one byte of one word, and the four bytes of a word give it back. -/
theorem serialisationIsLittleEndianInWordOrder : Obligations.SerialisationIsLittleEndianInWordOrder := by
  refine ⟨getElem_serialize_word, fun x i => ?_⟩
  have word := getElem_serialize_word x i
  calc le32 (serialize x)[4 * i.val] (serialize x)[4 * i.val + 1] (serialize x)[4 * i.val + 2]
        (serialize x)[4 * i.val + 3]
      = le32 (byteOf (x.get i) 0) (byteOf (x.get i) 1) (byteOf (x.get i) 2) (byteOf (x.get i) 3) := by
        congr 1
        exacts [word 0, word 1, word 2, word 3]
    _ = x.get i := le32_bytes (x.get i)

/-! ### The block function (R505) -/

/-- Byte `4i + b` of the block is byte `b` of the feed-forward sum of word `i`. -/
theorem getElem_chachaBlock (K : Vector Byte 32) (ctr : Word) (N : Vector Byte 12) (i : Fin 16) (b : Fin 4) :
    (chachaBlock K ctr N)[4 * i.val + b.val] =
      byteOf ((permute (buildState K ctr N)).get i + (buildState K ctr N).get i) b.val := by
  simp only [chachaBlock_eq, getElem_serialize_word, get_feedForward]

/-- Settles O18: the permutation is the fold of the quarter-rounds, and each byte of the block a byte of a sum with it. -/
theorem blockFunctionIsEightyQuarterRounds : Obligations.BlockFunctionIsEightyQuarterRounds := by
  refine ⟨rfl, fun K ctr N => ?_⟩
  have hw := (permute_eq (buildState K ctr N)).trans (doubleRounds_eq_foldl 10 _)
  exact ⟨hw, fun i b => hw ▸ getElem_chachaBlock K ctr N i b⟩

/-! ### DROUND (R504) -/

theorem doubleRound_zero : doubleRound (Vector.replicate 16 0) = Vector.replicate 16 0 := by
  simp only [doubleRound, columnRound, diagonalRound, quarterRound_zero]

namespace Machine

/-- Settles O17: DROUND completes with the double round put into STATE. -/
theorem droundMixesTheState : Obligations.DroundMixesTheState := by
  refine ⟨fun w => (decode_ok_iff w .dround).trans eq_comm, fun s => ?_⟩
  have hends := setCipher_ends (doubleRound s.cipher) none s
  refine ⟨_, exec_dround s, complete_completed none _, hends.frame, .of_eq hends.history hends.mem, rfl, rfl,
    fun hzero => ?_⟩
  exact (congrArg doubleRound hzero).trans doubleRound_zero

/-! ### BLOCK (R509, R510) -/

theorem blockResult_ks (s : State) :
    (blockResult s).ks = feedForward (permute (regsState s s.ctr)) (regsState s s.ctr) := rfl

/-- The words of KS are the block before serialisation. -/
theorem serialize_blockResult_ks (s : State) :
    serialize (blockResult s).ks = chachaBlock (keyBytes s) s.ctr (nonceBytes s) := by
  rw [blockResult_ks, chachaBlock_eq, regsState]

theorem toNat_get_blockResult_ks (s : State) (i : Fin 16) :
    ((blockResult s).ks.get i).toNat =
      (((doubleRounds 10 (regsState s s.ctr)).get i).toNat + ((regsState s s.ctr).get i).toNat) % 2 ^ 32 := by
  rw [blockResult_ks, get_feedForward, permute_eq, BitVec.toNat_add]

/-- Settles O20: legal lengths give the keystream words, and a wrong length raises. -/
theorem blockWritesTheKeystream : Obligations.BlockWritesTheKeystream := by
  refine ⟨fun w => (decode_ok_iff w .block).trans eq_comm, fun s => ?_⟩
  have hidden (i : Fin 16) : readReg (accept 0x00000004 s) (.ks i) = 0 := rfl
  by_cases h : s.keylen = 32 ∧ s.noncelen = 12
  · have hends := blockResult_ends s
    exact ⟨_, execBlock_valid ((validate_none_iff s).mpr h), hends.frame, .of_eq hends.history hends.mem, rfl, hidden,
      fun _ => ⟨complete_completed none _, toNat_get_blockResult_ks s, serialize_blockResult_ks s⟩,
      fun hk => absurd h.1 hk, fun hn => absurd h.2 hn.2⟩
  · obtain ⟨t, ht, hframe, hmem, hcipher, hks, hdone⟩ :=
      wrongLengthsRaiseBeforeAnyWork .block (.inr (.inl rfl)) s (not_and_or.mp h)
    refine ⟨t, ht, hframe, hmem, hcipher, hidden, fun hvalid => absurd hvalid h, fun hk => ⟨?_, hks⟩,
      fun hn => ⟨?_, hks⟩⟩
    · rwa [if_pos hk] at hdone
    · rwa [if_neg (not_not_intro hn.1)] at hdone

/-- The built state depends on the key, the nonce and the counter alone. -/
theorem regsState_congr {s s' : State} (hkey : s'.key = s.key) (hnonce : s'.nonce = s.nonce) (ctr : Word) :
    regsState s' ctr = regsState s ctr := by
  rw [regsState_eq, regsState_eq, hkey, hnonce]

/-- Settles O21: KS is a function of the built state, and the two built states are one. -/
theorem equalOperandsGiveEqualKeystream : Obligations.EqualOperandsGiveEqualKeystream := by
  intro s s' t t' hv hv' hkey hctr hnonce ht ht'
  obtain rfl := Host.Outcome.next.inj ((execBlock_valid hv).symm.trans ht)
  obtain rfl := Host.Outcome.next.inj ((execBlock_valid hv').symm.trans ht')
  have hks : (blockResult s').ks = (blockResult s).ks := by
    rw [blockResult_ks, blockResult_ks, hctr, regsState_congr hkey hnonce]
  exact ⟨hks, fun n => congrArg (fun ks => (serialize ks)[n]) hks⟩

end Machine
end Sys2Proof
end

