-- ==== Sys2Proof/Proofs/ProcessEvents.lean ====
section
/-! The proofs of ProcessReadsOneInputByte, ProcessWritesOneOutputByte, ProcessCompletionZeroesKs and
EmptyInputCompletesAtOnce: what one engine step of PROCESS does, by the event it comes to; and of InputSplitsIntoBlocks
and CounterWrapsWithoutRepeating: the blocks of an input and their counters. -/

namespace Sys2Proof
namespace Machine

/-! ### One step, by the event PROCESS comes to (R553, R555, R557) -/

/-- The address of a byte, as R550 writes it. -/
theorem byteAddr_eq (base : Word) (j i : Nat) : byteAddr base j i = base + BitVec.ofNat 32 (64 * j + i) := rfl

/-- The block of a pending read can be counted in 32 bits. -/
theorem pendingRead_block_lt {s : State} {j i : Nat} (hp : pendingProcessEvent s = .read j i) : j < 2 ^ 32 := by
  rcases (nextProcessEvent_read_iff _ _ _ _ _ _).mp hp with ⟨-, -, rfl, -⟩ | ⟨-, -, hj, rfl, -⟩
  · exact s.engine.j.isLt
  · exact lt_of_lt_blockCount hj

theorem pendingWrite_block_lt {s : State} {j i : Nat} (hp : pendingProcessEvent s = .write j i) : j < 2 ^ 32 := by
  rcases (nextProcessEvent_write_iff _ _ _ _ _ _).mp hp with ⟨-, -, -, rfl, -⟩ | ⟨-, -, rfl, -⟩ <;>
    exact s.engine.j.isLt

theorem execProcess_finish {s : State} (hk : s.keylen = 32) (hn : s.noncelen = 12)
    (hp : pendingProcessEvent s = .finish) : exec .process s = .next (processFinish s) := by
  rw [execProcess_valid ((validate_none_iff s).mpr ⟨hk, hn⟩), processStep, hp]

/-- A read event leaves the other bytes of `ib`. -/
theorem processRead_ib_other {i k : Nat} (hk : k ≠ i) (j : Nat) (s : State) :
    (processRead j i s).engine.ib[k]? = s.engine.ib[k]? := by
  obtain ⟨-, -, -, -, -, -, -, hib, -⟩ := processRead_spec j i s
  rw [hib, Vector.getElem?_setIfInBounds_ne hk.symm]

theorem processWrite_byteAt_other {j i : Nat} {s : State} {a : Word} (ha : a ≠ byteAddr s.dst j i) :
    (processWrite j i s).byteAt a = s.byteAt a := by
  obtain ⟨-, -, hm, -⟩ := processWrite_spec j i s
  rw [State.byteAt, hm, Memory.read_write_other fun h => ha (BitVec.eq_of_toNat_eq h), State.byteAt]

theorem outputByte_eq {i : Nat} (hi : i < 64) (s : State) : outputByte s i = s.engine.ib[i] ^^^ s.engine.kb[i] := by
  simp [outputByte, Vector.getD, hi]

/-- Settles O41: the read event, field by field. -/
theorem processReadsOneInputByte : Obligations.ProcessReadsOneInputByte := by
  intro s j i hk hn hp ha
  obtain ⟨hframe, hrun, hm, hh, hj, hi, hsub, -, hkb⟩ := processRead_spec j i s
  refine ⟨_, execProcess_read hk hn hp ha, hh, fun a => by simp only [State.byteAt, hm], ?_, hi, hsub,
    processRead_ib (pendingRead_lt hp) s, fun k hne => processRead_ib_other hne j s, hkb, hrun, hframe⟩
  rw [hj, BitVec.toNat_ofNat, Nat.mod_eq_of_lt (pendingRead_block_lt hp)]

/-- Settles O42: the write event, field by field. -/
theorem processWritesOneOutputByte : Obligations.ProcessWritesOneOutputByte := by
  intro s j i hi64 hk hn hp ha
  obtain ⟨hframe, hrun, -, hh, hj, hi, hsub, hib, hkb⟩ := processWrite_spec j i s
  refine ⟨_, execProcess_write hk hn hp ha, ?_, processWrite_byteAt hi64 s,
    fun a hne => processWrite_byteAt_other hne, ?_, hi, hsub, hib, hkb, hrun, hframe⟩
  · rw [hh, outputByte_eq hi64, byteAddr_eq]
  · rw [hj, BitVec.toNat_ofNat, Nat.mod_eq_of_lt (pendingWrite_block_lt hp)]

/-- Settles O43: the completion writes KS and ends the command. -/
theorem processCompletionZeroesKs : Obligations.ProcessCompletionZeroesKs := by
  intro s hk hn hp
  have hends := processFinish_ends s
  exact ⟨_, execProcess_finish hk hn hp, complete_completed none _, CipherState.get_zero, rfl, hends.frame,
    .of_eq hends.history hends.mem⟩

/-- At the start of an empty input the completion is next (R556). -/
theorem pending_of_empty {s : State} (hlen : s.len = 0) (hj : s.engine.j = 0) (hsub : s.engine.sub = .read) :
    pendingProcessEvent s = .finish :=
  (nextProcessEvent_finish_iff _ _ _ _).mpr (.inl ⟨hsub, by rw [hlen, hj]; rfl⟩)

/-- Settles O45: legal lengths complete with KS zeroed, and a wrong length raises. -/
theorem emptyInputCompletesAtOnce : Obligations.EmptyInputCompletesAtOnce := by
  intro s hlen hj _ hsub
  by_cases h : s.keylen = 32 ∧ s.noncelen = 12
  · have hends := processFinish_ends s
    exact ⟨_, execProcess_finish h.1 h.2 (pending_of_empty hlen hj hsub), .of_eq hends.history hends.mem, hends.frame,
      rfl, rfl, rfl, fun hk => absurd h.1 hk, fun _ hn => absurd h.2 hn, fun _ _ => ⟨complete_completed none _, rfl⟩⟩
  · have hexec := exec_invalid (validate_of_wrong_length (not_and_or.mp h)) (i := .process) (.inr (.inr rfl))
    refine ⟨_, hexec, .of_eq rfl rfl, raiseError_frame _ s, rfl, rfl, rfl, fun hk => ?_, fun hk hn => ?_,
      fun hk hn => absurd ⟨hk, hn⟩ h⟩
    · rw [if_pos hk]
      exact ⟨complete_completed _ s, rfl⟩
    · rw [if_neg (not_not_intro hk)]
      exact ⟨complete_completed _ s, rfl⟩

/-! ### Blocks and counters (R551, R552, R561) -/

theorem blockLen_eq_min {n j : Nat} (hj : j < blockCount n) : blockLen n j = min 64 (n - 64 * j) := by
  rw [blockCount_eq] at hj
  rw [blockLen_eq]
  split <;> omega

theorem sum_blockLen (n : Nat) : ((List.range (blockCount n)).map (blockLen n)).sum = n := by
  simpa [List.length_flatMap] using congrArg List.length (flatMap_blocks id n)

/-- Settles O46: the blocks one after the other are the input. -/
theorem inputSplitsIntoBlocks : Obligations.InputSplitsIntoBlocks :=
  ⟨fun n => ⟨blockCount_eq n, fun _ hj => ⟨blockLen_pos hj, blockLen_eq_min hj⟩, sum_blockLen n⟩,
    rfl, rfl, rfl, rfl, rfl⟩

theorem blockCount_le (len : Word) : blockCount len.toNat ≤ 2 ^ 26 := by
  have := len.isLt
  rw [blockCount_eq]
  omega

/-- 2^32 counters, or addresses, in a row are distinct (R204, R561). -/
theorem add_ofNat_inj {base : Word} {k k' : Nat} (hk : k < 2 ^ 32) (hk' : k' < 2 ^ 32)
    (h : base + BitVec.ofNat 32 k = base + BitVec.ofNat 32 k') : k = k' := by
  have he := congrArg BitVec.toNat ((BitVec.add_right_inj _).mp h)
  rwa [BitVec.toNat_ofNat, BitVec.toNat_ofNat, Nat.mod_eq_of_lt hk, Nat.mod_eq_of_lt hk'] at he

/-- Settles O47: the counter is a sum modulo 2^32, and a command has fewer blocks than that. -/
theorem counterWrapsWithoutRepeating : Obligations.CounterWrapsWithoutRepeating := by
  refine ⟨fun j => ?_, fun ctr len => ⟨blockCount_le len, fun j hj j' hj' h =>
    add_ofNat_inj (lt_of_lt_blockCount hj) (lt_of_lt_blockCount hj') h⟩⟩
  rw [toNat_blockCounter, show (0xFFFFFFFF : Word).toNat = 2 ^ 32 - 1 from rfl]
  omega

end Machine
end Sys2Proof
end

