-- ==== Sys2Proof/Proofs/MemoryHistory.lean ====
section
/-! SUPPORT for the statements about a whole PROCESS command: a run of byte writes to a buffer, and the memory that a
memory history leaves (R210, R211). -/

namespace Sys2Proof
namespace Machine

/-! ### Writes to a buffer -/

/-- The memory after `n` byte writes, of `val i` at `addr i`, ascending. -/
def writeBytes (addr : Nat → Word) (val : Nat → Byte) (m : Memory) (n : Nat) : Memory :=
  (List.range n).foldl (fun m' i => Memory.write m' (addr i).toNat (val i)) m

theorem writeBytes_succ (addr : Nat → Word) (val : Nat → Byte) (m : Memory) (n : Nat) :
    writeBytes addr val m (n + 1) = Memory.write (writeBytes addr val m n) (addr n).toNat (val n) := by
  simp [writeBytes, List.range_succ]

theorem writeBytes_add (addr : Nat → Word) (val : Nat → Byte) (m : Memory) (n k : Nat) :
    writeBytes addr val m (n + k) =
      writeBytes (fun i => addr (n + i)) (fun i => val (n + i)) (writeBytes addr val m n) k := by
  simp [writeBytes, List.range_add, List.foldl_map]

theorem writeBytes_congr {val val' : Nat → Byte} {n : Nat} (h : ∀ i < n, val i = val' i) (addr : Nat → Word)
    (m : Memory) : writeBytes addr val m n = writeBytes addr val' m n := by
  induction n with
  | zero => rfl
  | succ n ih => rw [writeBytes_succ, writeBytes_succ, ih fun i hi => h i (by omega), h n n.lt_succ_self]

theorem read_writeBytes_other {addr : Nat → Word} {n : Nat} {a : Word} (h : ∀ i < n, addr i ≠ a) (val : Nat → Byte)
    (m : Memory) : Memory.read (writeBytes addr val m n) a.toNat = Memory.read m a.toNat := by
  induction n with
  | zero => rfl
  | succ n ih =>
    have hne : a.toNat ≠ (addr n).toNat := fun he => h n n.lt_succ_self (BitVec.eq_of_toNat_eq he.symm)
    rw [writeBytes_succ, Memory.read_write_other hne, ih fun i hi => h i (by omega)]

/-- Where no later write meets its address, a byte reads as it was written. -/
theorem read_writeBytes_same {addr : Nat → Word} {n k : Nat} (hk : k < n) (h : ∀ i < n, k < i → addr i ≠ addr k)
    (val : Nat → Byte) (m : Memory) : Memory.read (writeBytes addr val m n) (addr k).toNat = val k := by
  induction n with
  | zero => omega
  | succ n ih =>
    rw [writeBytes_succ]
    rcases Nat.lt_succ_iff_lt_or_eq.mp hk with hlt | rfl
    · have hne : (addr k).toNat ≠ (addr n).toNat := fun he =>
        h n n.lt_succ_self hlt (BitVec.eq_of_toNat_eq he.symm)
      rw [Memory.read_write_other hne, ih hlt fun i hi => h i (by omega)]
    · exact Memory.read_write_same _ _ _

/-! ### The memory a history leaves -/

/-- The memory after one event. -/
def MemEvent.after (m : Memory) (e : MemEvent) : Memory :=
  if e.kind = .write then Memory.write m e.addr.toNat e.data else m

/-- The memory that the events of a history leave, oldest first. -/
def replay (m : Memory) (h : List MemEvent) : Memory := h.foldl MemEvent.after m

/-- Every read of the history returned what the events before it had left (R211). -/
def Coherent (m : Memory) (h : List MemEvent) : Prop :=
  ∀ before e later, h = before ++ e :: later → e.kind = .read → e.data = Memory.read (replay m before) e.addr.toNat

theorem replay_append (m : Memory) (h h' : List MemEvent) : replay m (h ++ h') = replay (replay m h) h' :=
  List.foldl_append

theorem replay_read (m : Memory) (h : List MemEvent) (a : Word) (v : Byte) :
    replay m (h ++ [⟨.read, a, v⟩]) = replay m h := by
  rw [replay_append]
  rfl

theorem replay_write (m : Memory) (h : List MemEvent) (a : Word) (v : Byte) :
    replay m (h ++ [⟨.write, a, v⟩]) = Memory.write (replay m h) a.toNat v := by
  rw [replay_append]
  rfl

/-- An address that the history does not write reads as before it. -/
theorem read_replay_of_unwritten {h : List MemEvent} {a : Word} (hne : ∀ e ∈ h, e.kind = .write → e.addr ≠ a)
    (m : Memory) : Memory.read (replay m h) a.toNat = Memory.read m a.toNat := by
  induction h generalizing m with
  | nil => rfl
  | cons e h ih =>
    rw [List.forall_mem_cons] at hne
    have hafter : Memory.read (e.after m) a.toNat = Memory.read m a.toNat := by
      unfold MemEvent.after
      split
      · next hw => exact Memory.read_write_other (fun he => hne.1 hw (BitVec.eq_of_toNat_eq he.symm)) m e.data
      · rfl
    exact (ih hne.2 _).trans hafter

/-- An address reads as the history's last write of it left it. -/
theorem read_replay_of_last_write {e : MemEvent} (he : e.kind = .write) {later : List MemEvent}
    (hne : ∀ e' ∈ later, e'.kind = .write → e'.addr ≠ e.addr) (m : Memory) (before : List MemEvent) :
    Memory.read (replay m (before ++ e :: later)) e.addr.toNat = e.data := by
  have hsplit : replay m (before ++ e :: later) =
      replay (Memory.write (replay m before) e.addr.toNat e.data) later := by
    rw [replay_append]
    exact congrArg (replay · later) (if_pos he)
  rw [hsplit, read_replay_of_unwritten hne, Memory.read_write_same]

theorem coherent_nil (m : Memory) : Coherent m [] := fun before e later h => by simp at h

/-- One more event keeps a history coherent, where a read returns what the history left. -/
theorem Coherent.snoc {m : Memory} {h : List MemEvent} {e : MemEvent} (hc : Coherent m h)
    (he : e.kind = .read → e.data = Memory.read (replay m h) e.addr.toNat) : Coherent m (h ++ [e]) := by
  intro before e' later heq
  rcases List.eq_nil_or_concat' later with rfl | ⟨init, last, rfl⟩
  · obtain ⟨rfl, he'⟩ := List.append_inj' heq rfl
    obtain rfl := List.cons_eq_cons.mp he' |>.1
    exact he
  · rw [← List.cons_append, ← List.append_assoc] at heq
    obtain ⟨rfl, -⟩ := List.append_inj' heq rfl
    exact hc before e' init rfl

/-! ### An event before another -/

theorem pair_sublist_iff {α : Type} (a b : α) (l : List α) :
    [a, b].Sublist l ↔ ∃ h h' h'', l = h ++ a :: h' ++ b :: h'' := by
  constructor
  · intro hl
    obtain ⟨l₁, l₂, rfl, ha, hb⟩ := List.cons_sublist_iff.mp hl
    obtain ⟨h, h₁, rfl⟩ := List.append_of_mem ha
    obtain ⟨h₂, h'', rfl⟩ := List.append_of_mem (List.singleton_sublist.mp hb)
    exact ⟨h, h₁ ++ h₂, h'', by simp⟩
  · rintro ⟨h, h', h'', rfl⟩
    exact List.Sublist.append (l₁ := [a]) (r₁ := [b]) (List.singleton_sublist.mpr (by simp))
      (List.singleton_sublist.mpr (by simp))

end Machine
end Sys2Proof
end

