-- ==== Sys2Proof/Proofs/CounterMode.lean ====
section
/-! The proofs of ProcessRunsTheCounterModeLoop and OutputHasTheLengthOfTheInput. The idea: at each event that a PROCESS
left alone comes to, the memory is that of R550's loop stopped at the same event, `ib` holds the block's bytes read so
far, and the memory history accounts for the memory. Each of the 2 * LEN events keeps this, and the completion
follows. -/

namespace Sys2Proof
namespace Machine

/-! ### R550's loop, block by block and byte by byte -/

/-- The memory that the first `j` blocks of R550's loop leave. -/
def blocksMemory (s : State) (j : Nat) : Memory := (List.range j).foldl (processBlock s) s.mem

/-- Byte `i` of block `j` as the loop reads it: what the blocks before it left there. -/
def blockInput (s : State) (j i : Nat) : Byte := Memory.read (blocksMemory s j) (byteAddr s.src j i).toNat

/-- Byte `i` of block `j` as the loop writes it. -/
def blockOutput (s : State) (j i : Nat) : Byte := blockInput s j i ^^^ keystreamByte s (64 * j + i)

/-- The memory of the loop where block `j` has written its first `i` bytes. -/
def blockMemory (s : State) (j i : Nat) : Memory :=
  writeBytes (byteAddr s.dst j) (blockOutput s j) (blocksMemory s j) i

theorem processMemory_eq (s : State) : processMemory s = blocksMemory s (blockCount s.len.toNat) := rfl

theorem blocksMemory_zero (s : State) : blocksMemory s 0 = s.mem := rfl

theorem blockMemory_succ (s : State) (j i : Nat) :
    blockMemory s j (i + 1) = Memory.write (blockMemory s j i) (byteAddr s.dst j i).toNat (blockOutput s j i) :=
  writeBytes_succ _ _ _ _

/-- A block that has written all its bytes is done. -/
theorem blockMemory_full (s : State) (j : Nat) :
    blockMemory s j (blockLen s.len.toNat j) = blocksMemory s (j + 1) := by
  rw [blocksMemory, List.range_succ, List.foldl_append]
  rfl

theorem keystreamByte_block {i : Nat} (hi : i < 64) (s : State) (j : Nat) :
    keystreamByte s (64 * j + i) = (keystreamBlock s j)[i] := by
  have hdiv : (64 * j + i) / 64 = j := by omega
  have hmod : (64 * j + i) % 64 = i := by omega
  simp only [keystreamByte, hdiv, hmod]

/-! ### The loop's invariant -/

/-- `ib` holds the first `i` input bytes of block `j`. -/
def InputRead (s u : State) (j i : Nat) : Prop := ∀ k < i, u.engine.ib[k]? = some (blockInput s j k)

/-- `u` is the command started in `s`, left alone, after some of its events: the memory and `ib` are those of R550's
loop stopped at the event that `u` comes to. -/
structure InLoop (s u : State) : Prop where
  frame    : CommandFrame s u
  running  : StillRunning s u
  plan     : u.OnPlan
  replayed : u.mem = replay s.mem u.history
  coherent : Coherent s.mem u.history
  reading  : ∀ j i, pendingProcessEvent u = .read j i → u.mem = blocksMemory s j ∧ InputRead s u j i
  writing  : ∀ j i, pendingProcessEvent u = .write j i →
    u.mem = blockMemory s j i ∧ InputRead s u j (blockLen s.len.toNat j)
  finished : pendingProcessEvent u = .finish → u.mem = processMemory s

theorem StillRunning.trans' {s t u : State} (h : StillRunning s t) (h' : StillRunning t u) : StillRunning s u :=
  ⟨h'.1.trans h.1, h'.2.trans h.2, h'.3.trans h.3, h'.4.trans h.4, h'.5.trans h.5, h'.6.trans h.6⟩

theorem StillRunning.busy_eq {s u : State} (h : StillRunning s u) : u.busy = s.busy := by
  rw [State.busy, h.phase, State.busy]

/-- What comes next is decided by the position that the last event left. -/
theorem pending_after {u : State} {j i : Nat} {sub : Half} (hj : j < 2 ^ 32) (huj : u.engine.j = BitVec.ofNat 32 j)
    (hui : u.engine.i = i) (husub : u.engine.sub = sub) :
    pendingProcessEvent u = nextProcessEvent u.len.toNat j i sub := by
  rw [pendingProcessEvent, huj, hui, husub, BitVec.toNat_ofNat, Nat.mod_eq_of_lt hj]

/-- A command just accepted is at the start of its plan. -/
theorem ProcessStart.onPlan {s : State} (h : ProcessStart s) : s.OnPlan := by
  obtain ⟨hj, hi, hsub⟩ := h.atStart
  refine ⟨fun _ => hi ▸ Nat.zero_le _, fun _ => .inr h.atStart, fun _ => ?_, fun _ hbegun => ?_⟩
  · simp [State.accesses, h.noEvent, hj, hi, hsub, eventsDone]
  · simp [hi, hsub] at hbegun

/-- And at the start of the loop. -/
theorem ProcessStart.inLoop {s : State} (h : ProcessStart s) : InLoop s s := by
  obtain ⟨hj, hi, hsub⟩ := h.atStart
  have hpending : pendingProcessEvent s = nextProcessEvent s.len.toNat 0 0 .read :=
    pending_after (by decide) hj hi hsub
  refine ⟨CommandFrame.rfl' s, ⟨rfl, rfl, rfl, rfl, rfl, rfl⟩, h.onPlan, by rw [h.noEvent]; rfl,
    h.noEvent ▸ coherent_nil _, fun j i hp => ?_, fun j i hp => ?_, fun hp => ?_⟩
  · rcases (nextProcessEvent_read_iff _ _ _ _ _ _).mp (hpending ▸ hp) with ⟨-, -, rfl, rfl⟩ | ⟨hw, -⟩
    · exact ⟨rfl, fun k hk => absurd hk k.not_lt_zero⟩
    · cases hw
  · rcases (nextProcessEvent_write_iff _ _ _ _ _ _).mp (hpending ▸ hp) with ⟨-, h0, hpos, -⟩ | ⟨hw, -⟩
    · omega
    · cases hw
  · rcases (nextProcessEvent_finish_iff _ _ _ _).mp (hpending ▸ hp) with ⟨-, h0⟩ | ⟨hw, -⟩
    · have hcount : blockCount s.len.toNat = 0 := by
        have := blockLen_zero_pos_iff s.len.toNat
        have := blockCount_pos_iff s.len.toNat
        omega
      rw [processMemory_eq, hcount, blocksMemory_zero]
    · cases hw

/-- A read event goes on in the loop: one more byte of the block is in `ib`. -/
theorem processRead_keeps_loop {s u : State} (h : InLoop s u) (hb : u.busy = true) {j i : Nat}
    (hp : pendingProcessEvent u = .read j i) : InLoop s (processRead j i u) := by
  obtain ⟨hmem, hib⟩ := h.reading j i hp
  obtain ⟨-, hi, -⟩ := h.plan.pending_read hb hp
  obtain ⟨hframe, hrun, hm, hh, hj', hi', hsub', -⟩ := processRead_spec j i u
  have hlen : u.len = s.len := h.frame.operands.len
  rw [hlen] at hi
  have hbyte : u.byteAt (byteAddr u.src j i) = blockInput s j i := by
    rw [State.byteAt, hmem, h.frame.operands.src, blockInput]
  have hread : InputRead s (processRead j i u) j (i + 1) := by
    intro k hk
    rcases Nat.lt_succ_iff_lt_or_eq.mp hk with hlt | rfl
    · rw [processRead_ib_other hlt.ne, hib k hlt]
    · rw [processRead_ib (pendingRead_lt hp), hbyte]
  have hnext := pending_after (pendingRead_block_lt hp) hj' hi' hsub'
  rw [hframe.operands.len, hlen] at hnext
  refine ⟨h.frame.trans' hframe, h.running.trans' hrun, processRead_keeps_plan h.plan hb hp, ?_, ?_,
    fun j₁ i₁ hp₁ => ?_, fun j₁ i₁ hp₁ => ?_, fun hp₁ => ?_⟩
  · rw [hm, hh, replay_read, h.replayed]
  · rw [hh]
    refine h.coherent.snoc fun _ => ?_
    rw [← h.replayed, State.byteAt]
  · rcases (nextProcessEvent_read_iff _ _ _ _ _ _).mp (hnext ▸ hp₁) with ⟨-, -, rfl, rfl⟩ | ⟨hw, -⟩
    · exact ⟨hm.trans hmem, hread⟩
    · cases hw
  · rcases (nextProcessEvent_write_iff _ _ _ _ _ _).mp (hnext ▸ hp₁) with ⟨-, hle, -, rfl, rfl⟩ | ⟨hw, -⟩
    · exact ⟨hm.trans hmem, fun k hk => hread k (by omega)⟩
    · cases hw
  · rcases (nextProcessEvent_finish_iff _ _ _ _).mp (hnext ▸ hp₁) with ⟨-, h0⟩ | ⟨hw, -⟩
    · omega
    · cases hw

/-- The engine writes what the loop writes. -/
theorem InLoop.outputByte_eq_blockOutput {s u : State} (h : InLoop s u) (hb : u.busy = true) {j i : Nat}
    (hp : pendingProcessEvent u = .write j i) : outputByte u i = blockOutput s j i := by
  obtain ⟨-, hib⟩ := h.writing j i hp
  obtain ⟨-, hi, -, hkb⟩ := h.plan.pending_write hb hp
  rw [h.frame.operands.len] at hi
  have h64 : i < 64 := hi.trans_le (blockLen_le _ _)
  have hin : u.engine.ib[i] = blockInput s j i := by
    have := hib i hi
    rwa [Vector.getElem?_eq_getElem h64, Option.some.injEq] at this
  rw [outputByte_eq h64, hin, hkb, h.frame.operands.keystreamBlock_eq, blockOutput, keystreamByte_block h64]

/-- A write event goes on in the loop: one more byte of the block is in memory. -/
theorem processWrite_keeps_loop {s u : State} (h : InLoop s u) (hb : u.busy = true) {j i : Nat}
    (hp : pendingProcessEvent u = .write j i) : InLoop s (processWrite j i u) := by
  obtain ⟨hmem, hib⟩ := h.writing j i hp
  obtain ⟨hj, hi, -⟩ := h.plan.pending_write hb hp
  obtain ⟨hframe, hrun, hm, hh, hj', hi', hsub', hib', -⟩ := processWrite_spec j i u
  have hlen : u.len = s.len := h.frame.operands.len
  rw [hlen] at hj hi
  have hm' : (processWrite j i u).mem = blockMemory s j (i + 1) := by
    rw [hm, hmem, h.frame.operands.dst, h.outputByte_eq_blockOutput hb hp, blockMemory_succ]
  have hdone (hle : blockLen s.len.toNat j ≤ i + 1) : (processWrite j i u).mem = blocksMemory s (j + 1) := by
    rw [hm', ← blockMemory_full, le_antisymm hle hi]
  have hnext := pending_after (pendingWrite_block_lt hp) hj' hi' hsub'
  rw [hframe.operands.len, hlen] at hnext
  refine ⟨h.frame.trans' hframe, h.running.trans' hrun, processWrite_keeps_plan h.plan hb hp, ?_, ?_,
    fun j₁ i₁ hp₁ => ?_, fun j₁ i₁ hp₁ => ?_, fun hp₁ => ?_⟩
  · rw [hm, hh, replay_write, h.replayed]
  · rw [hh]
    exact h.coherent.snoc nofun
  · rcases (nextProcessEvent_read_iff _ _ _ _ _ _).mp (hnext ▸ hp₁) with ⟨hr, -⟩ | ⟨-, hle, -, rfl, rfl⟩
    · cases hr
    · exact ⟨hdone hle, fun k hk => absurd hk k.not_lt_zero⟩
  · rcases (nextProcessEvent_write_iff _ _ _ _ _ _).mp (hnext ▸ hp₁) with ⟨hr, -⟩ | ⟨-, -, rfl, rfl⟩
    · cases hr
    · exact ⟨hm', fun k hk => by rw [hib', hib k hk]⟩
  · rcases (nextProcessEvent_finish_iff _ _ _ _).mp (hnext ▸ hp₁) with ⟨hr, -⟩ | ⟨-, hle, hlast⟩
    · cases hr
    · rw [hdone hle, processMemory_eq, le_antisymm hlast hj]

/-! ### The run -/

theorem accesses_length (s : State) : s.accesses.length = s.history.length := List.length_map _

/-- A command on its plan whose next access the plan has is not at the plan's end. -/
theorem State.OnPlan.length_lt {s : State} (h : s.OnPlan) (hb : s.busy = true) {a : AccessKind × Word}
    (ha : (plannedEvents s.len.toNat s.src s.dst)[eventsDone s.len.toNat s.engine.j.toNat s.engine.i s.engine.sub]? =
      some a) : s.history.length < 2 * s.len.toNat := by
  obtain ⟨hlt, -⟩ := List.getElem?_eq_some_iff.mp ha
  rw [plannedEvents_length] at hlt
  rw [← accesses_length, h.history hb, List.length_take, plannedEvents_length]
  omega

theorem State.OnPlan.length_lt_of_read {s : State} (h : s.OnPlan) (hb : s.busy = true) {j i : Nat}
    (hp : pendingProcessEvent s = .read j i) : s.history.length < 2 * s.len.toNat := by
  obtain ⟨hj, hi, hdone, -⟩ := h.pending_read hb hp
  exact h.length_lt hb (hdone ▸ plannedEvents_read _ _ hj hi)

theorem State.OnPlan.length_lt_of_write {s : State} (h : s.OnPlan) (hb : s.busy = true) {j i : Nat}
    (hp : pendingProcessEvent s = .write j i) : s.history.length < 2 * s.len.toNat := by
  obtain ⟨hj, hi, hdone, -⟩ := h.pending_write hb hp
  exact h.length_lt hb (hdone ▸ plannedEvents_write _ _ hj hi)

/-- The completion is next exactly where all 2 * LEN events have been made. -/
theorem State.OnPlan.pending_finish_iff {s : State} (h : s.OnPlan) (hb : s.busy = true) :
    pendingProcessEvent s = .finish ↔ s.history.length = 2 * s.len.toNat := by
  constructor
  · intro hp
    rw [← accesses_length, h.pending_finish hb hp, plannedEvents_length]
  · intro hlen
    cases hp : pendingProcessEvent s with
    | read j i => exact absurd hlen (h.length_lt_of_read hb hp).ne
    | write j i => exact absurd hlen (h.length_lt_of_write hb hp).ne
    | finish => rfl

/-- Byte `i` of block `j` is a byte of the input. -/
theorem byteIndex_lt {n j i : Nat} (hj : j < blockCount n) (hi : i < blockLen n j) : 64 * j + i < n := by
  rw [blockLen_eq_min hj] at hi
  omega

theorem InLoop.lengths {s u : State} (hs : ProcessStart s) (h : InLoop s u) : u.keylen = 32 ∧ u.noncelen = 12 := by
  rw [h.frame.operands.keylen, h.frame.operands.noncelen]
  exact hs.valid

/-- In the loop, with nothing else pending, the machine's step is PROCESS's. -/
theorem InLoop.step_eq {s u : State} (hs : ProcessStart s) (h : InLoop s u) : step u = exec .process u := by
  have hcur : decode u.engine.cur = .ok .process := by
    rw [h.running.cur, hs.cur]
    decide
  rw [step_alone (h.frame.inputs.trans hs.alone), engineStep_ok (h.running.busy_eq.trans hs.busy) hcur]

/-- Where events are left, the step makes the next one and stays in the loop. -/
theorem InLoop.step_event {s u : State} (hs : ProcessStart s) (ha : AllAdmitted s) (h : InLoop s u)
    (hlen : u.history.length < 2 * s.len.toNat) :
    ∃ v, step u = .next v ∧ InLoop s v ∧ v.history.length = u.history.length + 1 := by
  have hb : u.busy = true := h.running.busy_eq.trans hs.busy
  obtain ⟨hk, hn⟩ := h.lengths hs
  have ho := h.frame.operands
  rw [h.step_eq hs]
  cases hp : pendingProcessEvent u with
  | read j i =>
    obtain ⟨hj, hi, -⟩ := h.plan.pending_read hb hp
    obtain ⟨hadmit, -⟩ := ha _ (ho.len ▸ byteIndex_lt hj hi)
    obtain ⟨-, -, -, hh, -⟩ := processRead_spec j i u
    refine ⟨_, execProcess_read hk hn hp ?_, processRead_keeps_loop h hb hp, by rw [hh, List.length_append]; rfl⟩
    rw [h.frame.platform, ho.src, byteAddr_eq, hadmit]
  | write j i =>
    obtain ⟨hj, hi, -⟩ := h.plan.pending_write hb hp
    obtain ⟨-, hadmit⟩ := ha _ (ho.len ▸ byteIndex_lt hj hi)
    obtain ⟨-, -, -, hh, -⟩ := processWrite_spec j i u
    refine ⟨_, execProcess_write hk hn hp ?_, processWrite_keeps_loop h hb hp, by rw [hh, List.length_append]; rfl⟩
    rw [h.frame.platform, ho.dst, byteAddr_eq, hadmit]
  | finish =>
    have hall := (h.plan.pending_finish_iff hb).mp hp
    rw [ho.len] at hall
    omega

/-- `n` steps of a PROCESS left alone are its first `n` events. -/
theorem run_inLoop {s : State} (hs : ProcessStart s) (ha : AllAdmitted s) {n : Nat} (hn : n ≤ 2 * s.len.toNat) :
    ∃ u, core.run n s = .next u ∧ InLoop s u ∧ u.history.length = n := by
  induction n with
  | zero => exact ⟨s, rfl, hs.inLoop, by rw [hs.noEvent]; rfl⟩
  | succ n ih =>
    obtain ⟨u, hu, hloop, hlen⟩ := ih (by omega)
    obtain ⟨v, hv, hloop', hlen'⟩ := hloop.step_event hs ha (by omega)
    exact ⟨v, run_snoc hu hv, hloop', by omega⟩

/-- What a PROCESS started in `s`, left alone and admitted, has done in `t` (R550, R555, R557). -/
structure ProcessDone (s t : State) : Prop where
  completed : CompletedWith none t
  frame     : CommandFrame s t
  mem       : t.mem = processMemory s
  accesses  : t.accesses = plannedEvents s.len.toNat s.src s.dst
  ks        : t.ks = Vector.replicate 16 0
  cipher    : t.cipher = s.cipher
  replayed  : t.mem = replay s.mem t.history
  coherent  : Coherent s.mem t.history

/-- After the last event the command completes. -/
theorem run_processDone {s : State} (hs : ProcessStart s) (ha : AllAdmitted s) :
    ∃ t, core.run (2 * s.len.toNat + 1) s = .next t ∧ ProcessDone s t := by
  obtain ⟨u, hu, h, hlen⟩ := run_inLoop hs ha le_rfl
  have hb : u.busy = true := h.running.busy_eq.trans hs.busy
  have ho := h.frame.operands
  have hp := (h.plan.pending_finish_iff hb).mpr (by rw [hlen, ho.len])
  obtain ⟨hk, hn⟩ := h.lengths hs
  have hstep := (h.step_eq hs).trans (execProcess_finish hk hn hp)
  refine ⟨_, run_snoc hu hstep, complete_completed none _, h.frame.trans' (processFinish_frame u), h.finished hp, ?_,
    rfl, h.running.cipher, h.replayed, h.coherent⟩
  rw [← ho.len, ← ho.src, ← ho.dst]
  exact h.plan.pending_finish hb hp

/-- Every run of that many steps is that one. -/
theorem ProcessDone.of_run {s t : State} (hs : ProcessStart s) (ha : AllAdmitted s)
    (h : core.run (2 * s.len.toNat + 1) s = .next t) : ProcessDone s t := by
  obtain ⟨u, hu, hdone⟩ := run_processDone hs ha
  exact Host.Outcome.next.inj (hu.symm.trans h) ▸ hdone

/-- Settles O51: the first 2 * LEN steps are the loop's events, and the next one is the completion. -/
theorem processRunsTheCounterModeLoop : Obligations.ProcessRunsTheCounterModeLoop := by
  intro s hs ha
  refine ⟨fun n hn => ?_, ?_⟩
  · obtain ⟨u, hu, h, -⟩ := run_inLoop hs ha hn
    exact ⟨u, hu, h.running.busy_eq.trans hs.busy, h.running.done⟩
  · obtain ⟨t, ht, h⟩ := run_processDone hs ha
    exact ⟨t, ht, h.completed, h.mem, h.accesses, h.ks, h.cipher, h.frame⟩

/-! ### What it writes (R558) -/

/-- A write event of the command is of an output byte. -/
theorem ProcessDone.write_addr {s t : State} (h : ProcessDone s t) {e : MemEvent} (he : e ∈ t.history)
    (hw : e.kind = .write) : ∃ k < s.len.toNat, e.addr = s.dst + BitVec.ofNat 32 k := by
  have hacc : (AccessKind.write, e.addr) ∈ plannedEvents s.len.toNat s.src s.dst := by
    rw [← h.accesses, ← hw]
    exact List.mem_map_of_mem (f := fun e : MemEvent => (e.kind, e.addr)) he
  have hmem : _ ∈ (plannedEvents s.len.toNat s.src s.dst).filter (fun e => e.1 == .write) :=
    List.mem_filter.mpr ⟨hacc, rfl⟩
  rw [plannedEvents_writes] at hmem
  obtain ⟨k, hk, heq⟩ := List.mem_map.mp hmem
  exact ⟨k, List.mem_range.mp hk, (Prod.mk.inj heq).2.symm⟩

/-- Settles O53: the plan's writes are LEN, and an address that is no output byte is not written. -/
theorem outputHasTheLengthOfTheInput : Obligations.OutputHasTheLengthOfTheInput := by
  intro s t hs ha hrun
  have h := ProcessDone.of_run hs ha hrun
  refine ⟨by rw [h.accesses, plannedEvents_writes]; simp, fun a hout => ?_⟩
  rw [State.byteAt, h.replayed, read_replay_of_unwritten fun e he hw heq => ?_, State.byteAt]
  obtain ⟨k, hk, haddr⟩ := h.write_addr he hw
  exact hout k hk (heq.symm.trans haddr)

end Machine
end Sys2Proof
end

