-- ==== Sys2Proof/Proofs/Overlap.lean ====
section
/-! The proofs of OutputIsInputXorKeystream and ProcessTwiceGivesTheInputBack. The idea: a read meets an earlier write
of the same command exactly where an input byte's address is that of an output byte of an earlier block, and this is what
R560's condition on DST - SRC says. Where none does, each block reads original bytes, and R550's loop is one run of byte
writes. -/

namespace Sys2Proof
namespace Machine

/-! ### Input bytes at the addresses of earlier blocks' output (R560) -/

/-- Some input byte's address is that of an output byte of an earlier block. -/
def Overlaps (src dst : Word) (n : Nat) : Prop :=
  ∃ k < n, ∃ k' < n, k' / 64 < k / 64 ∧ dst + BitVec.ofNat 32 k' = src + BitVec.ofNat 32 k

/-- Byte `k'` of the output lies at byte `k' + d` of the input, modulo 2^32, for d = DST - SRC. -/
theorem addr_eq_iff (src dst : Word) (k k' : Nat) :
    dst + BitVec.ofNat 32 k' = src + BitVec.ofNat 32 k ↔ ((dst - src).toNat + k') % 2 ^ 32 = k % 2 ^ 32 := by
  have hd : dst + BitVec.ofNat 32 k' = src + (dst - src + BitVec.ofNat 32 k') := by
    rw [← BitVec.add_assoc, BitVec.add_comm src, BitVec.sub_add_cancel]
  rw [hd, BitVec.add_right_inj, ← BitVec.toNat_inj, BitVec.toNat_add, BitVec.toNat_ofNat, BitVec.toNat_ofNat,
    Nat.add_mod_mod]

/-- R560's condition: the output starts inside the input above it, and the input is more than one block. -/
theorem overlaps_iff (src dst len : Word) :
    Overlaps src dst len.toNat ↔
      1 ≤ (dst - src).toNat ∧ (dst - src).toNat < len.toNat ∧ 64 < len.toNat := by
  have hd := (dst - src).isLt
  have hlen := len.isLt
  constructor
  · rintro ⟨k, hk, k', hk', hblock, haddr⟩
    rw [addr_eq_iff] at haddr
    omega
  · rintro ⟨hpos, hlt, h64⟩
    refine ⟨max (dst - src).toNat 64, by omega, max (dst - src).toNat 64 - (dst - src).toNat, by omega, by omega, ?_⟩
    rw [addr_eq_iff]
    omega

/-- The condition under which no read meets an earlier write is the negation of the other. -/
theorem not_overlaps_of_apart {src dst len : Word}
    (h : dst - src = 0 ∨ len.toNat ≤ (dst - src).toNat ∨ len.toNat ≤ 64) : ¬ Overlaps src dst len.toNat := by
  rw [overlaps_iff]
  rintro ⟨hpos, hlt, h64⟩
  rcases h with h | h | h
  · simp [h] at hpos
  · omega
  · omega

/-- One buffer, or disjoint ones, do not overlap in this way (R559). -/
theorem not_overlaps_of_sameOrDisjoint {src dst len : Word} (h : SameOrDisjoint src dst len.toNat) :
    ¬ Overlaps src dst len.toNat := by
  rintro ⟨k, hk, k', hk', hblock, haddr⟩
  rcases h with rfl | h
  · have := len.isLt
    have := add_ofNat_inj (by omega) (by omega) haddr
    omega
  · exact h k hk k' hk' haddr.symm

/-! ### The loop where no read meets an earlier write (R553) -/

/-- Byte `k` of the output: the original input byte XOR its keystream byte. -/
def cipherByte (s : State) (k : Nat) : Byte := s.byteAt (s.src + BitVec.ofNat 32 k) ^^^ keystreamByte s k

/-- The memory with the first `n` output bytes in place. -/
def cipherMemory (s : State) (n : Nat) : Memory :=
  writeBytes (fun k => s.dst + BitVec.ofNat 32 k) (cipherByte s) s.mem n

/-- The blocks before block `j` have written their bytes, and block `j` finds its input as it was. -/
theorem blocksMemory_eq_cipherMemory {s : State} (h : ¬ Overlaps s.src s.dst s.len.toNat) {j : Nat}
    (hj : j ≤ blockCount s.len.toNat) : blocksMemory s j = cipherMemory s (min (64 * j) s.len.toNat) := by
  induction j with
  | zero => rw [Nat.mul_zero, Nat.zero_min]; rfl
  | succ j ih =>
    have hbefore : min (64 * j) s.len.toNat = 64 * j := by
      rw [blockCount_eq] at hj
      omega
    have hafter : min (64 * (j + 1)) s.len.toNat = 64 * j + blockLen s.len.toNat j := by
      rw [blockLen_eq_min hj]
      omega
    have hmem : blocksMemory s j = cipherMemory s (64 * j) := hbefore ▸ ih (by omega)
    have hout : ∀ i < blockLen s.len.toNat j, blockOutput s j i = cipherByte s (64 * j + i) := by
      intro i hi
      have hin := byteIndex_lt hj hi
      have h64 := hi.trans_le (blockLen_le _ _)
      rw [blockOutput, blockInput, hmem, cipherMemory, cipherByte, byteAddr_eq,
        read_writeBytes_other fun k' hk' haddr => h ⟨_, hin, k', by omega, by omega, haddr⟩, State.byteAt]
    rw [← blockMemory_full, blockMemory, writeBytes_congr hout, hmem, hafter, cipherMemory, cipherMemory,
      writeBytes_add]
    rfl

theorem processMemory_eq_cipherMemory {s : State} (h : ¬ Overlaps s.src s.dst s.len.toNat) :
    processMemory s = cipherMemory s s.len.toNat := by
  rw [processMemory_eq, blocksMemory_eq_cipherMemory h le_rfl]
  congr 1
  rw [blockCount_eq]
  omega

/-- R553 on the memory the loop leaves. -/
theorem read_processMemory {s : State} (h : ¬ Overlaps s.src s.dst s.len.toNat) {k : Nat} (hk : k < s.len.toNat) :
    Memory.read (processMemory s) (s.dst + BitVec.ofNat 32 k).toNat =
      s.byteAt (s.src + BitVec.ofNat 32 k) ^^^ keystreamByte s k := by
  have hlen := s.len.isLt
  rw [processMemory_eq_cipherMemory h, cipherMemory]
  refine read_writeBytes_same (addr := fun k => s.dst + BitVec.ofNat 32 k) hk (fun i hi hlt haddr => ?_) _ _
  have := add_ofNat_inj (by omega) (by omega) haddr
  omega

theorem ProcessDone.byteAt_dst {s t : State} (hd : ProcessDone s t) (h : ¬ Overlaps s.src s.dst s.len.toNat) {k : Nat}
    (hk : k < s.len.toNat) :
    t.byteAt (s.dst + BitVec.ofNat 32 k) = s.byteAt (s.src + BitVec.ofNat 32 k) ^^^ keystreamByte s k := by
  rw [State.byteAt, hd.mem, read_processMemory h hk]

/-! ### Reads after writes in the memory history (R211, R560) -/

/-- An access reads an address that an earlier one wrote. -/
def ReadsBack (a a' : AccessKind × Word) : Prop := a.1 = .write ∧ a'.1 = .read ∧ a'.2 = a.2

theorem mem_plannedBlock_write {n j : Nat} {src dst a : Word} :
    (AccessKind.write, a) ∈ plannedBlock n src dst j ↔ ∃ i < blockLen n j, byteAddr dst j i = a := by
  simp [plannedBlock]

theorem mem_plannedBlock_read {n j : Nat} {src dst a : Word} :
    (AccessKind.read, a) ∈ plannedBlock n src dst j ↔ ∃ i < blockLen n j, byteAddr src j i = a := by
  simp [plannedBlock]

/-- Inside a block every read comes before every write (R555). -/
theorem plannedBlock_no_readsBack (n : Nat) (src dst : Word) (j : Nat) :
    (plannedBlock n src dst j).Pairwise fun a a' => ¬ ReadsBack a a' := by
  rw [plannedBlock, List.pairwise_append, List.pairwise_map, List.pairwise_map]
  refine ⟨List.pairwise_of_forall fun _ _ h => (nomatch h.1),
    List.pairwise_of_forall fun _ _ h => (nomatch h.2.1), fun a ha _ _ h => ?_⟩
  obtain ⟨i, -, rfl⟩ := List.mem_map.mp ha
  exact nomatch h.1

/-- A byte of the input by its block and its place there. -/
theorem lt_iff_blockIndex (n k : Nat) : k < n ↔ k / 64 < blockCount n ∧ k % 64 < blockLen n (k / 64) := by
  rw [blockCount_eq, blockLen_eq]
  split <;> omega

theorem byteAddr_blockIndex (base : Word) (k : Nat) : byteAddr base (k / 64) (k % 64) = base + BitVec.ofNat 32 k := by
  rw [byteAddr_eq, Nat.div_add_mod]

/-- The plan reads no address after it wrote it exactly where the buffers do not overlap. -/
theorem plannedEvents_readsBack_iff (n : Nat) (src dst : Word) :
    (plannedEvents n src dst).Pairwise (fun a a' => ¬ ReadsBack a a') ↔ ¬ Overlaps src dst n := by
  rw [plannedEvents, List.pairwise_flatMap, List.pairwise_iff_getElem]
  simp only [List.length_range, List.getElem_range]
  constructor
  · rintro ⟨-, hblocks⟩ ⟨k, hk, k', hk', hlt, haddr⟩
    obtain ⟨hj, hi⟩ := (lt_iff_blockIndex n k).mp hk
    obtain ⟨hj', hi'⟩ := (lt_iff_blockIndex n k').mp hk'
    refine hblocks _ _ hj' hj hlt _ (mem_plannedBlock_write.mpr ⟨_, hi', rfl⟩) _
      (mem_plannedBlock_read.mpr ⟨_, hi, rfl⟩) ⟨rfl, rfl, ?_⟩
    rw [byteAddr_blockIndex, byteAddr_blockIndex, haddr]
  · refine fun h => ⟨fun j _ => plannedBlock_no_readsBack n src dst j, ?_⟩
    rintro j' j hj' hj hlt ⟨_, a⟩ hmem ⟨_, a'⟩ hmem' ⟨rfl, rfl, rfl⟩
    obtain ⟨i', hi', rfl⟩ := mem_plannedBlock_write.mp hmem
    obtain ⟨i, hi, haddr⟩ := mem_plannedBlock_read.mp hmem'
    have h64 := hi.trans_le (blockLen_le n j)
    have h64' := hi'.trans_le (blockLen_le n j')
    exact h ⟨_, byteIndex_lt hj hi, _, byteIndex_lt hj' hi', by omega, haddr.symm⟩

/-- No read of the history follows a write of its address exactly where the buffers do not overlap. -/
theorem ProcessDone.readsBack_iff {s t : State} (hd : ProcessDone s t) :
    t.history.Pairwise (fun e e' => ¬ ReadsBack (e.kind, e.addr) (e'.kind, e'.addr)) ↔
      ¬ Overlaps s.src s.dst s.len.toNat := by
  rw [← plannedEvents_readsBack_iff, ← hd.accesses, State.accesses, List.pairwise_map]

/-- No address is written twice (R206). -/
theorem ProcessDone.writes_distinct {s t : State} (hd : ProcessDone s t) :
    t.history.Pairwise fun e e' => e.kind = .write → e'.kind = .write → e'.addr ≠ e.addr := by
  have hnodup : ((t.accesses).filter (fun a => a.1 == .write)).Nodup := by
    rw [hd.accesses, plannedEvents_writes]
    exact bufferBytes_nodup _ _ _
  rw [List.Nodup, List.pairwise_filter, State.accesses, List.pairwise_map] at hnodup
  exact hnodup.imp fun h hw hw' haddr => h (by simp [hw]) (by simp [hw']) (by rw [hw, hw', haddr])

/-- A read that follows a write of its address finds what that write wrote. -/
theorem ProcessDone.read_after_write {s t : State} (hd : ProcessDone s t) {h h' h'' : List MemEvent} {e e' : MemEvent}
    (hsplit : t.history = h ++ e :: h' ++ e' :: h'') (hw : e.kind = .write) (hr : e'.kind = .read)
    (haddr : e'.addr = e.addr) : e'.data = e.data := by
  have hdistinct := hd.writes_distinct
  rw [hsplit, List.append_assoc, List.pairwise_append, List.cons_append, List.pairwise_cons] at hdistinct
  obtain ⟨-, ⟨hlater, -⟩, -⟩ := hdistinct
  rw [hd.coherent _ _ _ hsplit hr, haddr]
  exact read_replay_of_last_write hw (fun e₁ he₁ hw₁ => hlater e₁ (List.mem_append_left _ he₁) hw hw₁) _ _

/-- Where the buffers do not overlap, every read finds the original byte. -/
theorem ProcessDone.read_original {s t : State} (hd : ProcessDone s t) (h : ¬ Overlaps s.src s.dst s.len.toNat)
    {e : MemEvent} (he : e ∈ t.history) (hr : e.kind = .read) : e.data = s.byteAt e.addr := by
  obtain ⟨before, later, hsplit⟩ := List.append_of_mem he
  have hpairs := hd.readsBack_iff.mpr h
  rw [hsplit, List.pairwise_append] at hpairs
  obtain ⟨-, -, hbefore⟩ := hpairs
  rw [hd.coherent _ _ _ hsplit hr, read_replay_of_unwritten fun e₁ he₁ hw haddr => ?_, State.byteAt]
  exact hbefore e₁ he₁ e List.mem_cons_self ⟨hw, hr, haddr.symm⟩

/-- A read that follows a write of its address is in the history exactly where the buffers overlap. -/
theorem ProcessDone.exists_read_after_write_iff {s t : State} (hd : ProcessDone s t) :
    (∃ h e h' e' h'', t.history = h ++ e :: h' ++ e' :: h'' ∧ e.kind = .write ∧ e'.kind = .read ∧ e'.addr = e.addr) ↔
      Overlaps s.src s.dst s.len.toNat := by
  rw [← not_iff_not, ← hd.readsBack_iff, List.pairwise_iff_forall_sublist]
  constructor
  · intro hno e e' hsub hback
    obtain ⟨h, h', h'', hsplit⟩ := (pair_sublist_iff e e' _).mp hsub
    exact hno ⟨h, e, h', e', h'', hsplit, hback⟩
  · rintro hpairs ⟨h, e, h', e', h'', hsplit, hback⟩
    exact hpairs ((pair_sublist_iff e e' _).mpr ⟨h, h', h'', hsplit⟩) hback

/-- Settles O52: the loop as one run of byte writes, R560's condition, and the history of the run. -/
theorem outputIsInputXorKeystream : Obligations.OutputIsInputXorKeystream := by
  intro s apart inside
  have hoverlaps : Overlaps s.src s.dst s.len.toNat ↔ inside := overlaps_iff s.src s.dst s.len
  have hapart (h : apart) : ¬ Overlaps s.src s.dst s.len.toNat := not_overlaps_of_apart h
  refine ⟨fun h k hk => read_processMemory (hapart h) hk, hoverlaps, fun hs ha => ?_⟩
  obtain ⟨t, ht, hd⟩ := run_processDone hs ha
  exact ⟨t, ht, hd.completed, fun h k hk => hd.byteAt_dst (hapart h) hk,
    fun h e he hr => hd.read_original (hapart h) he hr, fun _ _ _ _ _ hsplit hw hr => hd.read_after_write hsplit hw hr,
    hd.exists_read_after_write_iff.trans hoverlaps⟩

/-! ### A second PROCESS over the output (R559) -/

/-- The core where the host has set SRC to DST and DST to another buffer, and started a PROCESS. -/
def restarted (dst' : Word) (t : State) : State :=
  writeReg .cmd 0x00000005 (writeReg .dst dst' (writeReg .src t.dst t))

/-- An idle core takes all three writes. -/
theorem restarted_eq {t : State} (hb : t.busy = false) (dst' : Word) :
    restarted dst' t = accept 0x00000005 { t with src := t.dst, dst := dst' } := by
  rw [restarted, writeReg_idle hb, writeReg_idle (s := storeReg .src t.dst t) hb,
    writeReg_idle (s := storeReg .dst dst' (storeReg .src t.dst t)) hb]
  rfl

theorem ProcessDone.restarted_start {s t : State} (hs : ProcessStart s) (hd : ProcessDone s t) (dst' : Word) :
    ProcessStart (restarted dst' t) := by
  rw [restarted_eq hd.completed.idle]
  refine ⟨rfl, rfl, ⟨rfl, rfl, rfl⟩, rfl, ?_, hd.frame.inputs.trans hs.alone⟩
  rw [accept_keylen, accept_noncelen, hd.frame.operands.keylen, hd.frame.operands.noncelen]
  exact hs.valid

theorem SameOperands.keystreamByte_eq {s t : State} (h : SameOperands s t) (k : Nat) :
    keystreamByte t k = keystreamByte s k := by
  simp only [keystreamByte, h.keystreamBlock_eq]

/-- Settles O54: the second command puts the same keystream on the bytes the first one left. -/
theorem processTwiceGivesTheInputBack : Obligations.ProcessTwiceGivesTheInputBack := by
  intro s t t' dst' hs ha hbuf hbuf' hrun ha' hrun'
  have hd := ProcessDone.of_run hs ha hrun
  have ho := hd.frame.operands
  have hu := restarted_eq hd.completed.idle dst'
  have hsrc : (restarted dst' t).src = s.dst := by rw [hu, accept_src, ho.dst]
  have hdst : (restarted dst' t).dst = dst' := by rw [hu, accept_dst]
  have hlen : (restarted dst' t).len = s.len := by rw [hu, accept_len, ho.len]
  have hbyte (a : Word) : (restarted dst' t).byteAt a = t.byteAt a := by rw [hu]; rfl
  have hks (k : Nat) : keystreamByte (restarted dst' t) k = keystreamByte s k := by
    rw [hu, ← ho.keystreamByte_eq]
    rfl
  have hd' : ProcessDone (restarted dst' t) t' := .of_run (hd.restarted_start hs dst') ha' (by rw [hlen]; exact hrun')
  refine ⟨hd'.completed, fun k hk => ?_⟩
  have hover' : ¬ Overlaps (restarted dst' t).src (restarted dst' t).dst (restarted dst' t).len.toNat := by
    rw [hsrc, hdst, hlen]
    exact not_overlaps_of_sameOrDisjoint hbuf'
  have hsecond := hd'.byteAt_dst hover' (hlen ▸ hk)
  rw [hsrc, hdst, hbyte, hks, hd.byteAt_dst (not_overlaps_of_sameOrDisjoint hbuf) hk] at hsecond
  rw [hsecond, BitVec.xor_assoc, BitVec.xor_self, BitVec.xor_zero]

end Machine
end Sys2Proof
end

