-- ==== Sys2Proof/Proofs/Lifecycle.lean ====
section
/-! SUPPORT and the proofs for the life of a command: the CMD write that accepts it, its completion where no memory
event is pending, and irq. -/

namespace Sys2Proof
namespace Machine

/-! ### Completion without a memory event (R611, R612) -/

/-- A command completes in the engine's next turn, unless it is a PROCESS with legal lengths that has a memory event
to make. -/
theorem engineStep_ends_of_no_event {s : State} (hb : s.busy = true)
    (hp : decode s.engine.cur = .ok .process → validate s = none → pendingProcessEvent s = .finish) :
    ∃ t, engineStep s = .next t ∧ EndsCommand s t := by
  rcases engineStep_cases s with ⟨hidle, -⟩ | ⟨-, hd, hv, -⟩ | ⟨-, hends⟩
  · simp [hb] at hidle
  · obtain ⟨hk, hn⟩ := (validate_none_iff s).mp hv
    exact ⟨_, (engineStep_ok hb hd).trans (execProcess_finish hk hn (hp hd hv)), processFinish_ends s⟩
  · exact hends

/-- Past the validation of a word just accepted only the empty input is left, and its completion is next. -/
theorem pending_accept_finish {w : Word} {s : State} (hv : validate (accept w s) = none)
    (h : s.len = 0 ∨ s.keylen ≠ 32 ∨ s.noncelen ≠ 12) : pendingProcessEvent (accept w s) = .finish := by
  obtain ⟨hk, hn⟩ := (validate_none_iff _).mp hv
  rcases h with hlen | hk' | hn'
  · exact pending_of_empty hlen rfl rfl
  · exact absurd hk hk'
  · exact absurd hn hn'

/-- Settles O37: of the accepted words only a PROCESS with legal lengths and a nonempty input has an event to make. -/
theorem commandsWithoutMemoryEventsTakeOneStep : Obligations.CommandsWithoutMemoryEventsTakeOneStep := by
  intro w s hi hw
  obtain ⟨t, ht, hends⟩ := engineStep_ends_of_no_event (accept_busy w s) fun hd hv =>
    pending_accept_finish hv (hw hd)
  exact ⟨t, (step_alone (s := accept w s) hi).trans ht, hends.idle, hends.done, hends.history,
    (NoMemoryAccess.of_eq hends.history hends.mem).bytes, hends.frame⟩

/-! ### irq and INTEN (R105, R613) -/

/-- INTEN bit by bit (R105). -/
theorem getLsbD_intenWord (s : State) (i : Nat) : (intenWord s).getLsbD i = (decide (i = 0) && s.doneie) := by
  rw [intenWord, BitVec.getLsbD_append, BitVec.getLsbD_ofBool]
  by_cases hi : i = 0 <;> simp [hi]

/-- INTEN keeps bit 0 of the value written (R105). -/
theorem intenWord_writeInten (v : Word) (s : State) : intenWord (writeInten v s) = v &&& 1 := by
  apply BitVec.eq_of_getLsbD_eq
  intro i hi
  rw [getLsbD_intenWord, writeInten_doneie, BitVec.getLsbD_and]
  by_cases h0 : i = 0 <;> simp [h0, BitVec.getLsbD_one]

theorem irq_of_not_done {s : State} (h : s.done = false) : irq s = false := by
  rw [irq, h, Bool.false_and]

/-- A STATUS write with bit 1 = 1 clears DONE (R104). -/
theorem writeStatus_clears_done {v : Word} (hv : v.getLsbD 1 = true) (s : State) : (writeStatus v s).done = false := by
  rw [writeStatus_done, hv, Bool.not_true, Bool.and_false]

/-- Settles O29: irq follows DONE, and INTEN is outside the busy lock. -/
theorem interruptIsDoneAndEnabled : Obligations.InterruptIsDoneAndEnabled := by
  intro s
  have hirq : irq s = ((statusWord s).getLsbD 1 && (intenWord s).getLsbD 0) := by
    obtain ⟨-, hdone, -⟩ := statusWord_fields s
    rw [hdone, getLsbD_intenWord]
    rfl
  exact ⟨hirq, fun v => ⟨intenWord_writeInten v s, rfl⟩, fun _ => Bool.true_and _,
    fun _ hv => irq_of_not_done (writeStatus_clears_done hv s), fun _ => irq_of_not_done rfl, irq_of_not_done rfl⟩

/-! ### Acceptance (R610) -/

/-- Acceptance of the first pending input writes no operand register. -/
theorem accept_sameOperands (w : Word) (s : State) (rest : List Input) :
    SameOperands s (accept w { s with inputs := rest }) :=
  ⟨rfl, rfl, rfl, rfl, rfl, rfl, rfl, rfl⟩

/-- Settles O35: the step is the write of CMD, which is `accept` while idle and behind the busy lock otherwise. -/
theorem cmdWriteWhileIdleIsAcceptance : Obligations.CmdWriteWhileIdleIsAcceptance := by
  intro m w s rest hm hi
  have hstep := step_write_reg hi (regAt_offset .cmd) hm
  refine ⟨fun hb => ?_, fun hb => ?_⟩
  · rw [writeReg_idle (s := { s with inputs := rest }) hb] at hstep
    exact ⟨_, hstep, rfl, rfl, rfl, rfl, rfl, rfl, rfl, rfl, rfl, rfl, rfl, rfl, rfl,
      accept_sameOperands w s rest, rfl, rfl, fun _ => rfl, rfl⟩
  · rwa [writeReg_locked (s := { s with inputs := rest }) rfl hb] at hstep

end Machine
end Sys2Proof
end

