-- ==== Sys2Proof/Proofs/ResetCommands.lean ====
section
/-! The proofs of ResetWinsAndClearsEverything and CommandsAfterReset: reset leaves a host what power-on leaves, and
right after power-on the length checks fail and the mixing commands find only zeros. -/

namespace Sys2Proof
namespace Machine

/-! ### Reset as a step (R700) -/

/-- Reset as the next input is the whole step, whatever event it meets. -/
theorem step_reset {s : State} {met : Option CoreEvent} {rest : List Input} (hi : s.inputs = .reset met :: rest) :
    step s = .next (resetCore { s with inputs := rest }) := by
  rw [step, hi]
  rfl

/-- No register tells a reset core from one just powered on. -/
theorem readReg_resetCore (s : State) (r : Reg) : readReg (resetCore s) r = readReg (State.powerOn s.platform) r := by
  cases r <;> rfl

/-- Settles O38: the step is the reset, whose registers are those of power-on and whose engine is idle. -/
theorem resetWinsAndClearsEverything : Obligations.ResetWinsAndClearsEverything := by
  intro s met rest hi
  exact ⟨_, step_reset hi, fun r => (readReg_resetCore _ r).trans (readReg_powerOn _ r),
    fun k => Vector.getElem_replicate k.isLt, CipherState.get_zero, CipherState.get_zero, rfl, rfl, rfl,
    irq_of_not_done rfl, engineStep_idle rfl, fun _ => rfl, rfl, rfl⟩

/-! ### Commands right after reset (R703) -/

/-- Before KEYLEN is written the key length check fails (R400). -/
theorem validate_accept_powerOn (w : Word) (p : Platform) :
    validate (accept w (State.powerOn p)) = some .invalidKeyLength :=
  (validate_some_iff _ _).mpr (.inl ⟨(by decide : (0 : Word) ≠ 32), rfl⟩)

/-- Once KEYLEN is 32, and before NONCELEN is written, the nonce length check fails (R400). -/
theorem validate_accept_keylen_powerOn (w : Word) (p : Platform) :
    validate (accept w (writeReg .keylen 32 (State.powerOn p))) = some .invalidNonceLength := by
  rw [writeReg_idle rfl]
  exact (validate_some_iff _ _).mpr (.inr ⟨rfl, (by decide : (0 : Word) ≠ 12), rfl⟩)

/-- Settles O40: a failed length check raises, and a round of zeros is zero. -/
theorem commandsAfterReset : Obligations.CommandsAfterReset := by
  refine fun p => ⟨fun i hi => ⟨?_, ?_⟩, ?_⟩
  · exact ⟨_, exec_invalid (validate_accept_powerOn _ p) hi, complete_completed _ _⟩
  · exact ⟨_, exec_invalid (validate_accept_keylen_powerOn _ p) hi, complete_completed _ _⟩
  · rintro _ (rfl | ⟨a, b, c, d, rfl⟩)
    · exact ⟨_, exec_dround _, complete_completed none _, doubleRound_zero⟩
    · exact ⟨_, exec_qround a b c d _, complete_completed none _, quarterRound_zero a b c d⟩

end Machine
end Sys2Proof
end

