-- ==== Sys2Proof/Proofs/Continuation.lean ====
section
/-! The proof of KeystreamContinuesAcrossCommands. The idea: R550's loop goes block by block, so the loop over the first
64 * q bytes is its first q blocks, and with CTR moved on by q and the buffers by 64 * q a second loop's block j is
block q + j of the first, on the memory that the first q blocks left. No block is asked where its buffers lie. -/

namespace Sys2Proof
namespace Machine

/-! ### One keystream, moved on by whole blocks (R552, R716) -/

/-- The keystream of `u` is that of `s` from block `q` on: the same key and nonce, and CTR moved on by `q`. -/
structure KeystreamFrom (q : Nat) (s u : State) : Prop where
  key   : u.key = s.key
  nonce : u.nonce = s.nonce
  ctr   : u.ctr = s.ctr + BitVec.ofNat 32 q

theorem blockCounter_add (ctr : Word) (q j : Nat) :
    blockCounter (ctr + BitVec.ofNat 32 q) j = blockCounter ctr (q + j) := by
  rw [blockCounter, blockCounter, BitVec.ofNat_add, BitVec.add_assoc]

theorem KeystreamFrom.keystreamBlock_eq {q : Nat} {s u : State} (h : KeystreamFrom q s u) (j : Nat) :
    keystreamBlock u j = keystreamBlock s (q + j) := by
  simp only [keystreamBlock, keyBytes, nonceBytes, h.key, h.nonce, h.ctr, blockCounter_add]

theorem KeystreamFrom.keystreamByte_eq {q : Nat} {s u : State} (h : KeystreamFrom q s u) (k : Nat) :
    keystreamByte u k = keystreamByte s (64 * q + k) := by
  have hdiv : (64 * q + k) / 64 = q + k / 64 := by omega
  have hmod : (64 * q + k) % 64 = k % 64 := by omega
  simp only [keystreamByte, h.keystreamBlock_eq, hdiv, hmod]

/-! ### One loop, taken up again at a block (R550, R554) -/

/-- Block `j` of `u`'s loop is block `q + j` of `s`'s, but for its length: one keystream, and the buffers moved on by
`q` blocks. -/
structure BlocksFrom (q : Nat) (s u : State) : Prop extends KeystreamFrom q s u where
  src : u.src = s.src + BitVec.ofNat 32 (64 * q)
  dst : u.dst = s.dst + BitVec.ofNat 32 (64 * q)

theorem byteAddr_add (base : Word) (q j i : Nat) :
    byteAddr (base + BitVec.ofNat 32 (64 * q)) j i = byteAddr base (q + j) i := by
  rw [byteAddr_eq, byteAddr_eq, BitVec.add_assoc, ← BitVec.ofNat_add]
  congr 2
  omega

theorem BlocksFrom.processBlock_eq {q j : Nat} {s u : State} (h : BlocksFrom q s u)
    (hlen : blockLen u.len.toNat j = blockLen s.len.toNat (q + j)) (m : Memory) :
    processBlock u m j = processBlock s m (q + j) := by
  have hks (i : Nat) : keystreamByte u (64 * j + i) = keystreamByte s (64 * (q + j) + i) := by
    rw [h.keystreamByte_eq, Nat.mul_add, Nat.add_assoc]
  simp only [processBlock, hlen, hks, h.src, h.dst, byteAddr_add]

theorem blocksMemory_succ (s : State) (j : Nat) : blocksMemory s (j + 1) = processBlock s (blocksMemory s j) j := by
  rw [blocksMemory, List.range_succ, List.foldl_append]
  rfl

/-- Taken up on the memory that the first `q` blocks left, the loop leaves what it would have left. -/
theorem BlocksFrom.blocksMemory_eq {q k : Nat} {s u : State} (h : BlocksFrom q s u) (hmem : u.mem = blocksMemory s q)
    (hlen : ∀ j < k, blockLen u.len.toNat j = blockLen s.len.toNat (q + j)) :
    blocksMemory u k = blocksMemory s (q + k) := by
  induction k with
  | zero => exact hmem
  | succ k ih =>
    rw [blocksMemory_succ, ih fun j hj => hlen j (by omega), h.processBlock_eq (hlen k k.lt_succ_self),
      ← blocksMemory_succ, Nat.add_assoc]

/-- An input of whole blocks and a rest has the blocks of both, one after the other (R551, R554). -/
theorem blockCount_add (q r : Nat) : blockCount (64 * q + r) = q + blockCount r := by
  rw [blockCount_eq, blockCount_eq]
  omega

theorem blockLen_add (q r j : Nat) : blockLen (64 * q + r) (q + j) = blockLen r j := by
  rw [blockLen_eq, blockLen_eq]
  split <;> split <;> omega

theorem blockLen_wholeBlocks {q j : Nat} (hj : j < q) (r : Nat) : blockLen (64 * q + r) j = 64 := by
  rw [blockLen_eq]
  split <;> omega

/-! ### The PROCESS over the first blocks -/

/-- The same PROCESS, over the first `n` bytes only. -/
def shortened (n : Nat) (s : State) : State := { s with len := BitVec.ofNat 32 n }

theorem shortened_len {n : Nat} {s : State} (hn : n ≤ s.len.toNat) : (shortened n s).len.toNat = n :=
  (BitVec.toNat_ofNat n 32).trans (Nat.mod_eq_of_lt (hn.trans_lt s.len.isLt))

theorem shortened_start {s : State} (hs : ProcessStart s) (n : Nat) : ProcessStart (shortened n s) :=
  ⟨hs.busy, hs.cur, hs.atStart, hs.noEvent, hs.valid, hs.alone⟩

theorem shortened_admitted {n : Nat} {s : State} (ha : AllAdmitted s) (hn : n ≤ s.len.toNat) :
    AllAdmitted (shortened n s) := by
  intro k hk
  rw [shortened_len hn] at hk
  exact ha k (hk.trans_le hn)

theorem blocksFrom_shortened (n : Nat) (s : State) : BlocksFrom 0 s (shortened n s) where
  key := rfl
  nonce := rfl
  ctr := (BitVec.add_zero s.ctr).symm
  src := (BitVec.add_zero s.src).symm
  dst := (BitVec.add_zero s.dst).symm

/-- A PROCESS over whole blocks leaves what these blocks of the longer one leave. -/
theorem processMemory_shortened {q : Nat} {s : State} (hq : 64 * q ≤ s.len.toNat) :
    processMemory (shortened (64 * q) s) = blocksMemory s q := by
  obtain ⟨r, hr⟩ := Nat.exists_eq_add_of_le hq
  have hcount : blockCount (shortened (64 * q) s).len.toNat = q := by
    rw [shortened_len hq]
    exact blockCount_add q 0
  have hlen : ∀ j < q, blockLen (shortened (64 * q) s).len.toNat j = blockLen s.len.toNat (0 + j) := by
    intro j hj
    rw [shortened_len hq, hr, Nat.zero_add, blockLen_wholeBlocks hj r]
    exact blockLen_wholeBlocks hj 0
  rw [processMemory_eq, hcount, (blocksFrom_shortened _ s).blocksMemory_eq rfl hlen, Nat.zero_add]

/-! ### The PROCESS over the rest -/

/-- The core where the host has moved CTR on by `n / 64`, and SRC and DST by `n`, set LEN, and started a PROCESS. -/
def continued (n : Nat) (len : Word) (t : State) : State :=
  writeReg .cmd 0x00000005 (writeReg .len len (writeReg .dst (t.dst + BitVec.ofNat 32 n)
    (writeReg .src (t.src + BitVec.ofNat 32 n) (writeReg .ctr (t.ctr + BitVec.ofNat 32 (n / 64)) t))))

/-- An idle core takes all five writes. -/
theorem continued_eq {t : State} (hb : t.busy = false) (n : Nat) (len : Word) :
    continued n len t = accept 0x00000005
      { t with ctr := t.ctr + BitVec.ofNat 32 (n / 64), src := t.src + BitVec.ofNat 32 n
               dst := t.dst + BitVec.ofNat 32 n, len := len } := by
  simp only [continued, writeReg_idle, storeReg_busy, hb, ne_eq, reduceCtorEq, not_false_eq_true]
  rfl

/-- The writes set LEN, and leave memory, STATE and the platform. -/
theorem continued_spec {t : State} (hb : t.busy = false) (n : Nat) (len : Word) :
    (continued n len t).len = len ∧ (continued n len t).mem = t.mem ∧ (continued n len t).cipher = t.cipher ∧
    (continued n len t).platform = t.platform := by
  rw [continued_eq hb]
  exact ⟨rfl, rfl, rfl, rfl⟩

/-- The PROCESS over the rest of the buffer is started like the first one. -/
theorem ProcessDone.continued_start {s t : State} (hs : ProcessStart s) (hd : ProcessDone s t) (n : Nat) (len : Word) :
    ProcessStart (continued n len t) := by
  rw [continued_eq hd.completed.idle]
  refine ⟨rfl, rfl, ⟨rfl, rfl, rfl⟩, rfl, ?_, hd.frame.inputs.trans hs.alone⟩
  rw [accept_keylen, accept_noncelen, hd.frame.operands.keylen, hd.frame.operands.noncelen]
  exact hs.valid

/-- The blocks of the PROCESS over the rest are those after the first `q`. -/
theorem ProcessDone.blocksFrom_continued {q : Nat} {s t : State} (hd : ProcessDone (shortened (64 * q) s) t)
    (len : Word) : BlocksFrom q s (continued (64 * q) len t) := by
  have ho := hd.frame.operands
  rw [continued_eq hd.completed.idle, Nat.mul_div_cancel_left q (by decide)]
  exact { key := ho.key, nonce := ho.nonce, ctr := congrArg (· + _) ho.ctr, src := congrArg (· + _) ho.src,
          dst := congrArg (· + _) ho.dst }

/-- LEN less the `n` bytes already done does not wrap. -/
theorem toNat_rest {n : Nat} {len : Word} (hn : n ≤ len.toNat) : (len - BitVec.ofNat 32 n).toNat = len.toNat - n := by
  have hlt := len.isLt
  rw [BitVec.toNat_sub, BitVec.toNat_ofNat]
  omega

/-- Every access of a PROCESS over the rest is one of the whole PROCESS. -/
theorem BlocksFrom.admitted {q : Nat} {s u : State} (h : BlocksFrom q s u) (hp : u.platform = s.platform)
    (hlen : 64 * q + u.len.toNat = s.len.toNat) (ha : AllAdmitted s) : AllAdmitted u := by
  intro k hk
  rw [hp, h.src, h.dst, BitVec.add_assoc, BitVec.add_assoc, ← BitVec.ofNat_add]
  exact ha (64 * q + k) (by omega)

/-- The loop over the rest, on the memory of the first blocks, leaves the memory of the whole loop. -/
theorem BlocksFrom.processMemory_whole {q : Nat} {s u : State} (h : BlocksFrom q s u) (hmem : u.mem = blocksMemory s q)
    (hlen : 64 * q + u.len.toNat = s.len.toNat) : processMemory u = processMemory s := by
  rw [processMemory_eq, processMemory_eq, ← hlen, blockCount_add]
  exact h.blocksMemory_eq hmem fun j _ => by rw [← hlen, blockLen_add]

/-- After the PROCESS over the first blocks, the one over the rest runs to its end and leaves the memory of the loop
over the whole buffer. -/
theorem run_continued {q : Nat} {s t : State} (hs : ProcessStart s) (ha : AllAdmitted s) (hle : 64 * q ≤ s.len.toNat)
    (hd : ProcessDone (shortened (64 * q) s) t) :
    ∃ u, core.run (2 * (s.len.toNat - 64 * q) + 1)
        (continued (64 * q) (s.len - BitVec.ofNat 32 (64 * q)) t) = .next u ∧
      CompletedWith none u ∧ u.mem = processMemory s ∧ u.cipher = s.cipher := by
  obtain ⟨hlen, hmem, hcipher, hplatform⟩ :=
    continued_spec hd.completed.idle (64 * q) (s.len - BitVec.ofNat 32 (64 * q))
  have hfrom := hd.blocksFrom_continued (s.len - BitVec.ofNat 32 (64 * q))
  have hstart := hd.continued_start (shortened_start hs _) (64 * q) (s.len - BitVec.ofNat 32 (64 * q))
  have hrest := (congrArg BitVec.toNat hlen).trans (toNat_rest hle)
  have hsplit := (congrArg (64 * q + ·) hrest).trans (Nat.add_sub_of_le hle)
  have hadmit := hfrom.admitted (hplatform.trans hd.frame.platform) hsplit ha
  obtain ⟨u, hu, hd'⟩ := run_processDone hstart hadmit
  rw [hrest] at hu
  refine ⟨u, hu, hd'.completed, ?_, hd'.cipher.trans (hcipher.trans hd.cipher)⟩
  rw [hd'.mem, hfrom.processMemory_whole (by rw [hmem, hd.mem, processMemory_shortened hle]) hsplit]

/-- Settles O55: the keystream moved on by whole blocks, and two loops that are the one loop cut at a block. -/
theorem keystreamContinuesAcrossCommands : Obligations.KeystreamContinuesAcrossCommands := by
  refine ⟨fun s n k hn => ?_, fun s n hs ha hle hn => ?_⟩
  · obtain ⟨q, rfl⟩ := Nat.dvd_of_mod_eq_zero hn
    have h : KeystreamFrom q s { s with ctr := s.ctr + BitVec.ofNat 32 (64 * q / 64) } :=
      ⟨rfl, rfl, by rw [Nat.mul_div_cancel_left q (by decide)]⟩
    exact h.keystreamByte_eq k
  · obtain ⟨q, rfl⟩ := Nat.dvd_of_mod_eq_zero hn
    obtain ⟨whole, hwhole, hd⟩ := run_processDone hs ha
    obtain ⟨first, hfirst, hd₁⟩ := run_processDone (shortened_start hs _) (shortened_admitted ha hle)
    rw [shortened_len hle] at hfirst
    obtain ⟨second, hsecond, hdone, hmem, hcipher⟩ := run_continued hs ha hle hd₁
    exact ⟨whole, first, second, hwhole, hd.completed, hfirst, hd₁.completed, hsecond, hdone,
      fun a => congrArg (Memory.read · a.toNat) (hmem.trans hd.mem.symm), hcipher.trans hd.cipher.symm⟩

end Machine
end Sys2Proof
end
